-- ==== Sys2Proof/Word.lean ====
section
/-!
DEFINITION. The widths of data the specification names (rules R7, R10): a byte, a word of 2 bytes,
a dword of 4 bytes and a descriptor of 8 bytes. All register and address arithmetic is arithmetic on these.
-/
namespace Sys2Proof

/-- One byte: a memory cell, a configuration register, a configuration index (R7). -/
abbrev Byte := BitVec 8

/-- Two bytes ("word" of R15): a selector, an I/O port address, a table limit. -/
abbrev Word16 := BitVec 16

/-- Four bytes ("dword" of R15): a general register, a linear or physical address. -/
abbrev Dword := BitVec 32

/-- Eight bytes: the hidden descriptor of a segment-type register (R24, R114). -/
abbrev Qword := BitVec 64

end Sys2Proof
end

