-- ==== Sys2Proof/Machine/Bits.lean ====
section
/-!
DEFINITION. Bit fields and byte order, once for the whole model: bit numbering of R10 (bit 0 least significant),
little-endian byte order of R110 (log entry 2).
-/
namespace Sys2Proof

/-- `v` with bit `i` made `b` (R10: bits are numbered from 0 at the least significant end). -/
def setBit {w : Nat} (v : BitVec w) (i : Nat) (b : Bool) : BitVec w :=
  if b then v ||| (1#w <<< i) else v &&& ~~~(1#w <<< i)

/-- The low `n` bytes of `v`, least significant first (R110). -/
def toLE : Nat → Nat → List Byte
  | 0, _ => []
  | n + 1, v => BitVec.ofNat 8 v :: toLE n (v / 256)

/-- The number whose bytes, least significant first, are given (R110). -/
def ofLE : List Byte → Nat
  | [] => 0
  | b :: bs => b.toNat + 256 * ofLE bs

/-- The bytes of `w`, most significant first: the numbering of spec/opcode_table.json (R152). -/
def toBE : Nat → Nat → List Byte
  | 0, _ => []
  | n + 1, v => BitVec.ofNat 8 (v / 256 ^ n) :: toBE n v

end Sys2Proof
end

