-- ==== Sys2Proof/Syntax.lean ====
section
/-!
DEFINITION. The abstract syntax of the ten SMM instructions of spec/opcode_table.json (R2, R149): one constructor
per row, with every operand bit the encoding holds (prefix bytes, the reg field, the mod r/m operand with its
displacement and SIB fields), so that the encoding can be written back from the term.
-/
namespace Sys2Proof

/-- The eight 32-bit general registers in their encoding order (R20). -/
inductive GReg where
  | eax | ecx | edx | ebx | esp | ebp | esi | edi
deriving DecidableEq, Repr, Inhabited

/-- The six segment registers in the order of `sreg3` (R24, R148). -/
inductive SegName where
  | es | cs | ss | ds | fs | gs
deriving DecidableEq, Repr, Inhabited

/-- A prefix byte (R141): a segment override, `67h`, `66h`, `F3h`, `F2h`, `F0h`. -/
inductive Pfx where
  | seg (s : SegName)
  | addrSize
  | opSize
  | rep
  | repne
  | lock
deriving DecidableEq, Repr

/-- The register part of a 16-bit address, in the order of the r/m field (R144). -/
inductive Base16 where
  | bxsi | bxdi | bpsi | bpdi | si | di | bp | bx
deriving DecidableEq, Repr

/-- The displacement of a 16-bit address by the mod field (R144). -/
inductive Disp16 where
  | none
  | d8 (d : BitVec 8)
  | d16 (d : BitVec 16)
deriving DecidableEq, Repr

/-- The displacement of a 32-bit address by the mod field (R145). -/
inductive Disp32 where
  | none
  | d8 (d : BitVec 8)
  | d32 (d : BitVec 32)
deriving DecidableEq, Repr

/-- A 16-bit address form (R144). -/
inductive Addr16 where
  | ind (b : Base16) (d : Disp16)
  | abs (d : BitVec 16)
deriving DecidableEq, Repr

/-- A 32-bit address form (R145); an `index` of ESP in a SIB form means "no index". -/
inductive Addr32 where
  | ind (r : GReg) (d : Disp32)
  | abs (d : BitVec 32)
  | sib (scale : BitVec 2) (index base : GReg) (d : Disp32)
  | sibAbs (scale : BitVec 2) (index : GReg) (d : BitVec 32)
deriving DecidableEq, Repr

/-- A memory operand: the address form in force by the address size (R144 to R146). -/
inductive MemArg where
  | a16 (a : Addr16)
  | a32 (a : Addr32)
deriving DecidableEq, Repr

/-- The operand a mod r/m byte names (R143): a register for mod = 11, else memory. -/
inductive RmArg where
  | reg (r : GReg)
  | mem (m : MemArg)
deriving DecidableEq, Repr

/-- The ten SMM instructions (R2, R149). `pre` holds the prefix bytes in order, repeats included (R141);
`sreg`/`reg` is the raw reg field of the mod r/m byte; `rm` its operand. Encodings the source leaves without a
meaning (R150) are terms too: the meaning stops on them after the validity check of R170. -/
inductive Instr where
  | svdc (pre : List Pfx) (sreg : BitVec 3) (rm : RmArg)
  | rsdc (pre : List Pfx) (sreg : BitVec 3) (rm : RmArg)
  | svldt (pre : List Pfx) (reg : BitVec 3) (rm : RmArg)
  | rsldt (pre : List Pfx) (reg : BitVec 3) (rm : RmArg)
  | svts (pre : List Pfx) (reg : BitVec 3) (rm : RmArg)
  | rsts (pre : List Pfx) (reg : BitVec 3) (rm : RmArg)
  | smint (pre : List Pfx)
  | rsm (pre : List Pfx)
  | rdshr (pre : List Pfx) (reg : BitVec 3) (rm : RmArg)
  | wrshr (pre : List Pfx) (reg : BitVec 3) (rm : RmArg)
deriving DecidableEq, Repr

/-- The prefix bytes of an instruction, in order. -/
def Instr.pre : Instr → List Pfx
  | .svdc p _ _ | .rsdc p _ _ | .svldt p _ _ | .rsldt p _ _ | .svts p _ _ | .rsts p _ _
  | .smint p | .rsm p | .rdshr p _ _ | .wrshr p _ _ => p

/-- The mod r/m operand of an instruction, where it has one. -/
def Instr.operand : Instr → Option RmArg
  | .svdc _ _ rm | .rsdc _ _ rm | .svldt _ _ rm | .rsldt _ _ rm | .svts _ _ rm | .rsts _ _ rm
  | .rdshr _ _ rm | .wrshr _ _ rm => some rm
  | .smint _ | .rsm _ => none

/-- The two-byte opcodes' second byte (R149), as an enumeration. -/
inductive SmmOp where
  | svdc | rsdc | svldt | rsldt | svts | rsts | smint | rsm | rdshr | wrshr
deriving DecidableEq, Repr

/-- Which opcode an instruction has. -/
def Instr.op : Instr → SmmOp
  | .svdc _ _ _ => .svdc
  | .rsdc _ _ _ => .rsdc
  | .svldt _ _ _ => .svldt
  | .rsldt _ _ _ => .rsldt
  | .svts _ _ _ => .svts
  | .rsts _ _ _ => .rsts
  | .smint _ => .smint
  | .rsm _ => .rsm
  | .rdshr _ _ _ => .rdshr
  | .wrshr _ _ _ => .wrshr

end Sys2Proof
end

