-- ==== Sys2Proof/WellFormed.lean ====
section
/-!
DEFINITION. Which terms of `Instr` are encodings at all (`encodable`), and which of those have a meaning
(`hasMeaning`, rule R150): together `WellFormed`. `d32` is the default address size in force: true for 32 bits (R146).
-/
namespace Sys2Proof

/-- R144: mod 00 with r/m 110 is a bare displacement, so `[BP]` without displacement has no encoding. -/
def Addr16.encodable : Addr16 → Bool
  | .ind .bp .none => false
  | .ind _ _ => true
  | .abs _ => true

/-- R145: r/m 100 calls for a SIB byte, r/m 101 (and SIB base 101) with mod 00 is a bare displacement. -/
def Addr32.encodable : Addr32 → Bool
  | .ind .esp _ => false
  | .ind .ebp .none => false
  | .ind _ _ => true
  | .abs _ => true
  | .sib _ _ .ebp .none => false
  | .sib _ _ _ _ => true
  | .sibAbs _ _ _ => true

/-- An operand form belongs to the address size in force (R146). -/
def RmArg.encodable (a32 : Bool) : RmArg → Bool
  | .reg _ => true
  | .mem (.a16 a) => !a32 && a.encodable
  | .mem (.a32 a) => a32 && a.encodable

/-- R146: a `67h` prefix selects the other address size for one instruction. -/
def addrSize32 (d32 : Bool) (pre : List Pfx) : Bool :=
  if pre.contains .addrSize then !d32 else d32

/-- The term is the reading of some byte string in code whose default address size is `d32`. -/
def Instr.encodable (d32 : Bool) (i : Instr) : Bool :=
  match i.operand with
  | none => true
  | some rm => rm.encodable (addrSize32 d32 i.pre)

/-- R141, R150 (g): a `66h`, `F2h`, `F3h` or `F0h` prefix has no stated effect on an SMM instruction. -/
def prefixesDefined (pre : List Pfx) : Bool :=
  pre.all fun p => match p with
    | .seg _ | .addrSize => true
    | .opSize | .rep | .repne | .lock => false

/-- The operand is memory (R150 (d)). -/
def RmArg.isMem : RmArg → Bool
  | .reg _ => false
  | .mem _ => true

/-- `sreg3` names DS, ES, FS, GS or SS (R150 (a) and (c); R172, R173). -/
def sregDefined (sreg : BitVec 3) : Bool :=
  sreg = 0 || sreg = 2 || sreg = 3 || sreg = 4 || sreg = 5

/-- The operand fields have a meaning (R150). RSDC naming CS has one: it raises an exception (R173). -/
def Instr.fieldsDefined : Instr → Bool
  | .svdc _ sreg rm => sregDefined sreg && rm.isMem
  | .rsdc _ sreg rm => sreg = 1 || (sregDefined sreg && rm.isMem)
  | .svldt _ reg rm | .rsldt _ reg rm | .svts _ reg rm | .rsts _ reg rm => reg = 0 && rm.isMem
  | .smint _ | .rsm _ => true
  | .rdshr _ reg _ | .wrshr _ reg _ => reg = 0

/-- The encoding has a meaning (R150): its prefixes and its operand fields are ones the spec defines. -/
def Instr.hasMeaning (i : Instr) : Bool :=
  prefixesDefined i.pre && i.fieldsDefined

/-- A well-formed instruction for the default address size `d32`. -/
def WellFormed (d32 : Bool) (i : Instr) : Bool :=
  i.encodable d32 && i.hasMeaning

end Sys2Proof
end

