-- ==== Sys2Proof/Decode.lean ====
section
/-!
DEFINITION. The decoder of R140 to R149, total on any bytes and rejecting by name, and after it the encoder written
from the same tables. Lengths (R158) are the lengths of the encodings.
-/
namespace Sys2Proof

/-- Why a byte string is not read as one of the ten instructions. -/
inductive DecodeError where
  /-- The bytes given end before the instruction does. -/
  | truncated
  /-- The opcode is none of the ten (R142): the instruction belongs to the base set (R150, last sentence but one). -/
  | notSmm
deriving DecidableEq, Repr

/-! ### Register and prefix numbers -/

/-- R20: the general register with an encoding number. -/
def GReg.ofNum (n : BitVec 3) : GReg :=
  match n.toNat with
  | 0 => .eax | 1 => .ecx | 2 => .edx | 3 => .ebx | 4 => .esp | 5 => .ebp | 6 => .esi | _ => .edi

/-- R20: the encoding number of a general register. -/
def GReg.num : GReg → BitVec 3
  | .eax => 0 | .ecx => 1 | .edx => 2 | .ebx => 3 | .esp => 4 | .ebp => 5 | .esi => 6 | .edi => 7

/-- R148: the segment register an `sreg3` value names; 6 and 7 name none. -/
def SegName.ofNum (n : BitVec 3) : Option SegName :=
  match n.toNat with
  | 0 => some .es | 1 => some .cs | 2 => some .ss | 3 => some .ds | 4 => some .fs | 5 => some .gs | _ => none

/-- R148: the `sreg3` value of a segment register. -/
def SegName.num : SegName → BitVec 3
  | .es => 0 | .cs => 1 | .ss => 2 | .ds => 3 | .fs => 4 | .gs => 5

/-- R144: the register part an r/m value names. -/
def Base16.ofNum (n : BitVec 3) : Base16 :=
  match n.toNat with
  | 0 => .bxsi | 1 => .bxdi | 2 => .bpsi | 3 => .bpdi | 4 => .si | 5 => .di | 6 => .bp | _ => .bx

/-- R144: the r/m value of a register part. -/
def Base16.num : Base16 → BitVec 3
  | .bxsi => 0 | .bxdi => 1 | .bpsi => 2 | .bpdi => 3 | .si => 4 | .di => 5 | .bp => 6 | .bx => 7

/-- R141: the prefix a byte is, if it is one. -/
def Pfx.ofByte (b : Byte) : Option Pfx :=
  match b.toNat with
  | 0x26 => some (.seg .es)
  | 0x2E => some (.seg .cs)
  | 0x36 => some (.seg .ss)
  | 0x3E => some (.seg .ds)
  | 0x64 => some (.seg .fs)
  | 0x65 => some (.seg .gs)
  | 0x66 => some .opSize
  | 0x67 => some .addrSize
  | 0xF0 => some .lock
  | 0xF2 => some .repne
  | 0xF3 => some .rep
  | _ => none

/-- R141: the byte of a prefix. -/
def Pfx.byte : Pfx → Byte
  | .seg .es => 0x26
  | .seg .cs => 0x2E
  | .seg .ss => 0x36
  | .seg .ds => 0x3E
  | .seg .fs => 0x64
  | .seg .gs => 0x65
  | .opSize => 0x66
  | .addrSize => 0x67
  | .lock => 0xF0
  | .repne => 0xF2
  | .rep => 0xF3

/-- R149: the instruction a second opcode byte (after `0Fh`) names, if it is one of the ten. -/
def SmmOp.ofByte (b : Byte) : Option SmmOp :=
  match b.toNat with
  | 0x36 => some .rdshr
  | 0x37 => some .wrshr
  | 0x38 => some .smint
  | 0x78 => some .svdc
  | 0x79 => some .rsdc
  | 0x7A => some .svldt
  | 0x7B => some .rsldt
  | 0x7C => some .svts
  | 0x7D => some .rsts
  | 0xAA => some .rsm
  | _ => none

/-- R149: the second opcode byte of an instruction. -/
def SmmOp.byte : SmmOp → Byte
  | .rdshr => 0x36
  | .wrshr => 0x37
  | .smint => 0x38
  | .svdc => 0x78
  | .rsdc => 0x79
  | .svldt => 0x7A
  | .rsldt => 0x7B
  | .svts => 0x7C
  | .rsts => 0x7D
  | .rsm => 0xAA

/-! ### Decoding -/

/-- The leading prefix bytes and what follows them (R140, R141). -/
def scanPrefixes : List Byte → List Pfx × List Byte
  | [] => ([], [])
  | b :: bs =>
    match Pfx.ofByte b with
    | some p => (p :: (scanPrefixes bs).1, (scanPrefixes bs).2)
    | none => ([], b :: bs)

/-- A one-byte field. -/
def takeByte : List Byte → Except DecodeError (BitVec 8 × List Byte)
  | a :: r => .ok (a, r)
  | [] => .error .truncated

/-- A two-byte field, least significant byte first (R157). -/
def takeWord : List Byte → Except DecodeError (BitVec 16 × List Byte)
  | a :: b :: r => .ok (b ++ a, r)
  | _ => .error .truncated

/-- A four-byte field, least significant byte first (R157). -/
def takeDword : List Byte → Except DecodeError (BitVec 32 × List Byte)
  | a :: b :: c :: d :: r => .ok (d ++ c ++ b ++ a, r)
  | _ => .error .truncated

/-- The displacement of 32-bit addressing for a mod value other than 11 (R145). -/
def decodeDisp32 (md : BitVec 2) (bs : List Byte) : Except DecodeError (Disp32 × List Byte) :=
  if md = 0 then .ok (.none, bs)
  else if md = 1 then (takeByte bs).map fun x => (.d8 x.1, x.2)
  else (takeDword bs).map fun x => (.d32 x.1, x.2)

/-- R144: a 16-bit memory operand (mod other than 11). -/
def decodeAddr16 (md : BitVec 2) (rm : BitVec 3) (bs : List Byte) : Except DecodeError (Addr16 × List Byte) :=
  if md = 0 then
    if rm = 6 then (takeWord bs).map fun x => (.abs x.1, x.2)
    else .ok (.ind (.ofNum rm) .none, bs)
  else if md = 1 then (takeByte bs).map fun x => (.ind (.ofNum rm) (.d8 x.1), x.2)
  else (takeWord bs).map fun x => (.ind (.ofNum rm) (.d16 x.1), x.2)

/-- R145: a memory operand whose r/m field calls for a SIB byte. -/
def decodeSib (md : BitVec 2) : List Byte → Except DecodeError (Addr32 × List Byte)
  | [] => .error .truncated
  | b :: bs =>
    let scale := b.extractLsb' 6 2
    let index := GReg.ofNum (b.extractLsb' 3 3)
    let base := b.extractLsb' 0 3
    if base = 5 ∧ md = 0 then (takeDword bs).map fun x => (.sibAbs scale index x.1, x.2)
    else (decodeDisp32 md bs).map fun x => (.sib scale index (.ofNum base) x.1, x.2)

/-- R145: a 32-bit memory operand (mod other than 11). -/
def decodeAddr32 (md : BitVec 2) (rm : BitVec 3) (bs : List Byte) : Except DecodeError (Addr32 × List Byte) :=
  if rm = 4 then decodeSib md bs
  else if rm = 5 ∧ md = 0 then (takeDword bs).map fun x => (.abs x.1, x.2)
  else (decodeDisp32 md bs).map fun x => (.ind (.ofNum rm) x.1, x.2)

/-- R143: the mod r/m byte with what it calls for: the reg field, the operand, the bytes after it. -/
def decodeModRm (a32 : Bool) : List Byte → Except DecodeError (BitVec 3 × RmArg × List Byte)
  | [] => .error .truncated
  | b :: bs =>
    let md := b.extractLsb' 6 2
    let reg := b.extractLsb' 3 3
    let rm := b.extractLsb' 0 3
    if md = 3 then .ok (reg, .reg (.ofNum rm), bs)
    else if a32 then (decodeAddr32 md rm bs).map fun x => (reg, .mem (.a32 x.1), x.2)
    else (decodeAddr16 md rm bs).map fun x => (reg, .mem (.a16 x.1), x.2)

/-- R147: what follows the two opcode bytes, by format. -/
def decodeOp (op : SmmOp) (pre : List Pfx) (a32 : Bool) (bs : List Byte) : Except DecodeError (Instr × List Byte) :=
  match op with
  | .smint => .ok (.smint pre, bs)
  | .rsm => .ok (.rsm pre, bs)
  | .svdc => (decodeModRm a32 bs).map fun x => (.svdc pre x.1 x.2.1, x.2.2)
  | .rsdc => (decodeModRm a32 bs).map fun x => (.rsdc pre x.1 x.2.1, x.2.2)
  | .svldt => (decodeModRm a32 bs).map fun x => (.svldt pre x.1 x.2.1, x.2.2)
  | .rsldt => (decodeModRm a32 bs).map fun x => (.rsldt pre x.1 x.2.1, x.2.2)
  | .svts => (decodeModRm a32 bs).map fun x => (.svts pre x.1 x.2.1, x.2.2)
  | .rsts => (decodeModRm a32 bs).map fun x => (.rsts pre x.1 x.2.1, x.2.2)
  | .rdshr => (decodeModRm a32 bs).map fun x => (.rdshr pre x.1 x.2.1, x.2.2)
  | .wrshr => (decodeModRm a32 bs).map fun x => (.wrshr pre x.1 x.2.1, x.2.2)

/-- R142, R149: which of the ten opcodes a byte string begins with, its prefixes apart, whatever follows. -/
def opcodeRead (bs : List Byte) : Option SmmOp :=
  match (scanPrefixes bs).2 with
  | esc :: opb :: _ => if esc = 0x0F then SmmOp.ofByte opb else none
  | _ => none

/-- R140 to R149: the instruction a byte string begins with and the bytes after it, in code whose default address
size is 32 bits exactly if `d32`. -/
def decode (d32 : Bool) (bs : List Byte) : Except DecodeError (Instr × List Byte) :=
  match (scanPrefixes bs).2 with
  | [] => .error .truncated
  | esc :: rest =>
    if esc = 0x0F then
      match rest with
      | [] => .error .truncated
      | opb :: tail =>
        match SmmOp.ofByte opb with
        | none => .error .notSmm
        | some op => decodeOp op (scanPrefixes bs).1 (addrSize32 d32 (scanPrefixes bs).1) tail
    else .error .notSmm

/-! ### Encoding -/

/-- A two-byte field, least significant byte first (R157). -/
def wordBytes (d : BitVec 16) : List Byte :=
  [d.extractLsb' 0 8, d.extractLsb' 8 8]

/-- A four-byte field, least significant byte first (R157). -/
def dwordBytes (d : BitVec 32) : List Byte :=
  [d.extractLsb' 0 8, d.extractLsb' 8 8, d.extractLsb' 16 8, d.extractLsb' 24 8]

/-- R143, R145: three fields of 2, 3 and 3 bits in one byte, the first in the most significant place. -/
def fieldByte (hi : BitVec 2) (mid lo : BitVec 3) : Byte :=
  hi ++ mid ++ lo

/-- The mod value and the bytes of a 32-bit displacement (R145). -/
def Disp32.encode : Disp32 → BitVec 2 × List Byte
  | .none => (0, [])
  | .d8 d => (1, [d])
  | .d32 d => (2, dwordBytes d)

/-- R144: the mod value, the r/m value and the following bytes of a 16-bit address. -/
def Addr16.encode : Addr16 → BitVec 2 × BitVec 3 × List Byte
  | .abs d => (0, 6, wordBytes d)
  | .ind b .none => (0, b.num, [])
  | .ind b (.d8 d) => (1, b.num, [d])
  | .ind b (.d16 d) => (2, b.num, wordBytes d)

/-- R145: the mod value, the r/m value and the following bytes of a 32-bit address. -/
def Addr32.encode : Addr32 → BitVec 2 × BitVec 3 × List Byte
  | .abs d => (0, 5, dwordBytes d)
  | .ind r d => (d.encode.1, r.num, d.encode.2)
  | .sib scale index base d => (d.encode.1, 4, fieldByte scale index.num base.num :: d.encode.2)
  | .sibAbs scale index d => (0, 4, fieldByte scale index.num 5 :: dwordBytes d)

/-- R143: the mod value, the r/m value and the following bytes of an operand. -/
def RmArg.encode : RmArg → BitVec 2 × BitVec 3 × List Byte
  | .reg r => (3, r.num, [])
  | .mem (.a16 a) => a.encode
  | .mem (.a32 a) => a.encode

/-- R143: the mod r/m byte and what follows it. -/
def encodeModRm (reg : BitVec 3) (rm : RmArg) : List Byte :=
  fieldByte rm.encode.1 reg rm.encode.2.1 :: rm.encode.2.2

/-- R147: the bytes after the opcode, by format. -/
def Instr.encodeTail : Instr → List Byte
  | .smint _ | .rsm _ => []
  | .svdc _ reg rm | .rsdc _ reg rm | .svldt _ reg rm | .rsldt _ reg rm | .svts _ reg rm | .rsts _ reg rm
  | .rdshr _ reg rm | .wrshr _ reg rm => encodeModRm reg rm

/-- R140: the bytes of an instruction: prefixes, `0Fh`, opcode, mod r/m and address bytes. -/
def encode (i : Instr) : List Byte :=
  i.pre.map Pfx.byte ++ 0x0F :: i.op.byte :: i.encodeTail

/-- R140: the length of an instruction is the count of all its bytes, prefixes included. -/
def Instr.length (i : Instr) : Nat :=
  (encode i).length

/-- The longest instruction without prefixes: opcode, mod r/m, SIB, 4-byte displacement (R158). -/
def maxUnprefixed : Nat := 8

/-- The bytes of a word of spec/opcode_table.json: `nbits` bits numbered as R152 says (the first opcode byte most
significant), followed by zero bytes up to the longest instruction. -/
def tableWordBytes (nbits w : Nat) : List Byte :=
  toBE (nbits / 8) w ++ List.replicate (maxUnprefixed - nbits / 8) 0

/-- The instruction the decoder reads from a word of spec/opcode_table.json in 16-bit code (R146: the size in force
after RESET). -/
def decodeTableWord (nbits w : Nat) : Option Instr :=
  match decode false (tableWordBytes nbits w) with
  | .ok (i, _) => some i
  | .error _ => none

end Sys2Proof
end

