-- ==== Sys2Proof/Config.lean ====
section
/-!
DEFINITION. What the spec fixes for the MII (R8, column "MII and 6x86MX"), and the points it leaves open (R9, R13
`draw`): each open point is an opaque constant, so no proof can depend on which value it has. The open parameters
that need the machine's state as an argument stand in Machine/BaseParam.lean.
-/
namespace Sys2Proof

/-! ### Values of the MII column of R8 and of the entry table R274 -/

/-- EFLAGS after RESET and after SMM entry (R23, R80, R274). -/
def Config.resetEflags : BitVec 32 := 0x00000002

/-- CR0 after RESET and after SMM entry, NW apart (R28, R80, R274; `cr0_on_entry` of R8). -/
def Config.resetCr0 : BitVec 32 := 0x60000010

/-- DR7 after RESET and after SMM entry (R30, R80, R274). -/
def Config.resetDr7 : BitVec 32 := 0x00000400

/-- CS limit on SMM entry (`cs_limit_on_entry` of R8): the 20-bit limit FFFFFh with G = 1 is 4 GBytes (R114). -/
def Config.entryCsLimit20 : BitVec 20 := 0xFFFFF

/-- The bytes a fetch looks at after an instruction's prefixes and first opcode byte, more than any instruction this
model decodes has (log entry 12). -/
def Config.tailWindow : Nat := 15

/-- The prefix bytes a fetch looks at: as many as the address space has (R140 states no maximum length; log entry 12). -/
def Config.prefixLimit : Nat := 2 ^ 32

/-! ### Open points -/

/-- `draw` of R13: the n-th value the rules do not determine, at most 64 bits of it used. Log entry 20. -/
opaque Config.freeBits : Nat → BitVec 64

/-- `arr3_size` of R9 and decision D8, as the exponent above 4 KBytes of the size a SIZE code selects; used for the
codes whose size the source does not state (1, 2, 4 to 14). Log entry 21. -/
opaque Config.arr3SizeExponent : BitVec 4 → Fin 21

/-- Chooses `hdr_cpl_pos` of R9, R117 and decision D7 among its 26 possible values. Log entry 22. -/
opaque Config.hdrCplChoice : Fin 26

/-- Chooses `hdr_n_pos` among the 25 positions that `hdr_cpl_pos` leaves (R9, R117, decision D7). Log entry 22. -/
opaque Config.hdrNChoice : Fin 25

/-- Chooses `hdr_is_pos` among the 24 positions that the other two leave (R9, R117, decision D7). Log entry 22. -/
opaque Config.hdrIsChoice : Fin 24

/-- `smm_entry_cs_selector` of R9, R274 and decision D12. Log entry 23. -/
opaque Config.smmEntryCsSelector : BitVec 16

/-- The access-rights byte (byte 5) of the CS descriptor after SMM entry, not stated by the source (R274). Log entry 23. -/
opaque Config.smmEntryCsRights : BitVec 8

/-- Bits 5 and 4 (reserved, AVL) of byte 6 of the CS descriptor after SMM entry, not stated (R114, R274). Log entry 23. -/
opaque Config.smmEntryCsAvl : BitVec 2

/-- Which of several different segment-override prefixes counts; the source does not say (R141, R171). Log entry 24. -/
opaque Config.segOverrideChoice : List SegName → Nat

/-- `Base`'s A20M# masking of a physical address, not defined by the source (R106). Log entry 25. -/
opaque Config.a20Mask : BitVec 32 → BitVec 32

/-- Whether the region test uses the masked address while A20M# is asserted; not stated (R106). Log entry 25. -/
opaque Config.a20MasksRegionTest : Bool

/-- Which of the values a fetched byte has had since the last jump, SMM entry or RSM the fetch sees; not determined
(R127, decision D4). Its arguments are the draw counter and the byte's place. Log entry 26. -/
opaque Config.prefetchChoice : Nat → Bool → BitVec 32 → Nat

/-- The auxiliary-carry flag after a base logical instruction (OR, AND, TEST), by its operands; the source states no
flag result (R230) and the family leaves it undefined. Log entry 37. -/
opaque Config.logicAuxFlag : BitVec 32 → BitVec 32 → Bool

/-- The flags OF, SF, AF and PF after BT, by its operand and bit number; R230 states the carry flag only. Log entry 37. -/
opaque Config.btOtherFlags : BitVec 32 → BitVec 8 → BitVec 4

/-- Whether a core whose SUSP# input is enabled and asserted holds its instruction stream at this boundary; what suspend
mode is the source does not say (R33, R50, R304). Its argument is the draw counter. Log entry 10. -/
opaque Config.suspendHolds : Nat → Bool

/-- The fourth base byte that SGDT and SIDT store without a `66h` prefix; "the top byte of the base would be lost"
(R232). Log entry 38. -/
opaque Config.lostTableByte : BitVec 32 → BitVec 8

end Sys2Proof
end

