-- ==== Sys2Proof/Machine/Memory.lean ====
section
/-!
DEFINITION. One byte store in one canonical form (R100, R101): a list of (address, byte) pairs, addresses strictly
rising and below 2^32, no pair equal to what an unlisted address reads as.
-/
namespace Sys2Proof.Machine

/-- A byte store over the 32-bit addresses (R100). -/
abbrev Memory := List Host.Cell

/-- What a byte that nothing has written reads as (DESIGN CHOICE, unsafe: log entry 4; R80 states no memory contents). -/
def Memory.unlisted : Byte := 0

/-- The byte at an address. -/
def Memory.read : Memory → Nat → Byte
  | [], _ => Memory.unlisted
  | c :: m, a => if c.1 = a then c.2 else Memory.read m a

/-- The store without the address. -/
def Memory.erase (m : Memory) (a : Nat) : Memory :=
  m.filter fun c => c.1 ≠ a

/-- The store with a pair put before the first larger address. -/
def Memory.insert (a : Nat) (b : Byte) : Memory → Memory
  | [] => [(a, b)]
  | c :: m => if a < c.1 then (a, b) :: c :: m else c :: Memory.insert a b m

/-- One byte written; writing what an unlisted address reads as removes the pair. -/
def Memory.write (m : Memory) (a : Nat) (b : Byte) : Memory :=
  if b = Memory.unlisted then m.erase a else Memory.insert a b (m.erase a)

/-- The canonical form. -/
abbrev Memory.wf (m : Memory) : Prop :=
  m.Pairwise (fun c d => c.1 < d.1) ∧ ∀ c ∈ m, c.1 < 2 ^ 32 ∧ c.2 ≠ Memory.unlisted

end Sys2Proof.Machine
end

