-- ==== Sys2Proof/Machine/State.lean ====
section
/-!
DEFINITION. The state of the machine as plain data: everything 10_state.md names (R20 to R78), the two memories of
R100 and R101, the inputs of R16, and the model's own fields (each marked so). Then the outcomes' reasons and the
state after RESET (R80, R320).
-/
namespace Sys2Proof.Machine

/-! ### Base state (R20 to R33) -/

/-- The eight general registers (R20). -/
structure Gpr where
  eax : Dword
  ecx : Dword
  edx : Dword
  ebx : Dword
  esp : Dword
  ebp : Dword
  esi : Dword
  edi : Dword
deriving DecidableEq, Repr, Inhabited

/-- A segment-type register: visible selector, hidden descriptor (R24, R25). -/
structure SegReg where
  sel : Word16
  desc : Qword
deriving DecidableEq, Repr, Inhabited

/-- The six segment registers (R24). -/
structure SegFile where
  es : SegReg
  cs : SegReg
  ss : SegReg
  ds : SegReg
  fs : SegReg
  gs : SegReg
deriving DecidableEq, Repr, Inhabited

/-- GDTR or IDTR: a 16-bit limit and a 32-bit base (R26). -/
structure TableReg where
  limit : Word16
  base : Dword
deriving DecidableEq, Repr, Inhabited

/-- The FPU state (R31): the image FNSAVE would store, whose layout and size the source does not give (R234), and
whether an unmasked exception is pending. The image's own bit for that, at an open place, is not read: a save puts the
field there (log entry 49). -/
structure Fpu where
  image : List Byte
  pendingUnmasked : Bool
deriving DecidableEq, Repr, Inhabited

/-- Running, halted by HLT (with or without suspend mode, R33, R50), or shut down (R33, R293). -/
inductive Activity where
  | running
  | halted (suspended : Bool)
  | shutdown
deriving DecidableEq, Repr, Inhabited

/-- The base core's registers, as far as the source names them (R20 to R33). -/
structure BaseRegs where
  gpr : Gpr
  eip : Dword
  eflags : Dword
  seg : SegFile
  ldtr : SegReg
  tr : SegReg
  gdtr : TableReg
  idtr : TableReg
  cpl : BitVec 2
  cr0 : Dword
  cr2 : Dword
  cr3 : Dword
  cr4 : Dword
  dr0 : Dword
  dr1 : Dword
  dr2 : Dword
  dr3 : Dword
  dr6 : Dword
  dr7 : Dword
  fpu : Fpu
  activity : Activity
deriving DecidableEq, Repr, Inhabited

/-! ### Configuration registers (R40 to R66) -/

/-- CCR0 to CCR6 and the three bytes of ARR3 at indexes CDh, CEh, CFh (R41 to R64). -/
structure CfgRegs where
  ccr0 : Byte
  ccr1 : Byte
  ccr2 : Byte
  ccr3 : Byte
  ccr4 : Byte
  ccr5 : Byte
  ccr6 : Byte
  arrCD : Byte
  arrCE : Byte
  arrCF : Byte
deriving DecidableEq, Repr, Inhabited

/-! ### I/O accesses (R102, R118, R227) -/

/-- The size of an I/O access or of a base operand: 1, 2 or 4 bytes (R102). -/
inductive Width where
  | byte
  | word
  | dword
deriving DecidableEq, Repr

/-- The I/O instruction just executed, as the header describes it (R118, R273). -/
structure IoInfo where
  curIp : Dword
  rep : Bool
  write : Bool
  size : Width
  port : Word16
  data : Dword
  esiEdi : Dword
deriving DecidableEq, Repr

/-- An I/O access directed off chip (R102, R225). -/
structure IoCycle where
  write : Bool
  port : Word16
  size : Width
  data : Dword
deriving DecidableEq, Repr

/-! ### Inputs (R16, decision D19) -/

/-- The pins as sampled at one boundary: SMI# low, an NMI event, an INTR request with the vector the platform
supplies, RESET asserted, WM_RST asserted, A20M# asserted, FLUSH# asserted (no state of the spec changes with it: R125,
R126, log entry 10), SUSP# asserted (R50), KEN# making accesses non-cacheable (R78). -/
structure PinSample where
  smiLow : Bool
  nmi : Bool
  intr : Option Byte
  reset : Bool
  warmReset : Bool
  a20m : Bool
  flush : Bool
  susp : Bool
  nonCacheable : Bool
deriving DecidableEq, Repr

/-! ### Memory places -/

/-- Which of the two memories (R100, R101). -/
inductive StoreId where
  | normal
  | smm
deriving DecidableEq, Repr

/-- One byte cell of one of the two memories. -/
structure Loc where
  store : StoreId
  addr : Dword
deriving DecidableEq, Repr

/-- The byte a cell held before a store that no jump, SMM entry or RSM has followed yet (R127). -/
structure StaleByte where
  loc : Loc
  old : Byte
deriving DecidableEq, Repr

/-! ### The state -/

structure State where
  /-- The base registers (R20 to R33). -/
  base : BaseRegs
  /-- The configuration registers (R40 to R66). -/
  cfg : CfgRegs
  /-- SMHR (R67, R68). -/
  smhr : Dword
  /-- `cfg_index`: empty or an index (R70). -/
  cfgIndex : Option Byte
  /-- `in_smm` (R71). -/
  inSmm : Bool
  /-- `smi_latched` (R72). -/
  smiLatched : Bool
  /-- `nmi_latched` (R73). -/
  nmiLatched : Bool
  /-- Normal memory (R100, R101). -/
  normal : Memory
  /-- SMM memory (R100, R101). -/
  smm : Memory
  /-- The level of SMI# at the last boundary, true for low (R76, R264). -/
  smiLow : Bool
  /-- A20M# asserted (R78, R106). -/
  a20m : Bool
  /-- SUSP# asserted (R50, R78). -/
  susp : Bool
  /-- KEN# makes accesses non-cacheable (R78, R48). -/
  nonCacheable : Bool
  /-- The model's own: a debug-register breakpoint matched in the instruction just executed and is still to be delivered
  (R294, R303; log entry 48). -/
  debugTrap : Bool
  /-- The model's own: the pins' samples at the coming boundaries (R16, D19; log entry 30). -/
  inputs : List PinSample
  /-- The model's own: the I/O instruction just executed, if the last one was one (R271, R273). -/
  lastIo : Option IoInfo
  /-- The model's own: the off-chip I/O accesses so far, the latest first (R102). -/
  ioTrace : List IoCycle
  /-- The model's own: overwritten bytes an instruction fetch may still see (R127; log entry 26). -/
  staleCode : List StaleByte
  /-- The model's own: how many undetermined values have been drawn (R13 `draw`; log entry 20). -/
  draws : Nat
deriving DecidableEq, Repr, Inhabited

/-! ### Events of `Base` (R294) and reasons to stop -/

/-- An exception or interrupt handed to `Base` (R294). -/
inductive BaseEvent where
  /-- The invalid-opcode exception (R290, R291). -/
  | invalidOpcode
  /-- The INT 3 breakpoint (R236). -/
  | breakpoint
  /-- A debug-register breakpoint: a match of DR0 to DR3 enabled in DR7 (R294, R303). -/
  | debugBreakpoint
  /-- A pending unmasked FPU exception met by a waiting FPU instruction (R294, R234). -/
  | fpuException
  /-- NMI (R278). -/
  | nmi
  /-- INTR with the platform's vector (R277). -/
  | intr (vector : Byte)
  /-- The "protection error" of an access `Base` does not permit (R293). -/
  | protectionError
  /-- `Base`'s translation gives no physical address (R12, R122). -/
  | translationFault
  /-- SLDT or STR in real mode: "they raise an exception under `Base`" (R233). -/
  | notValidInRealMode
deriving DecidableEq, Repr

/-- What stops the machine for good. -/
inductive Fault where
  /-- Raised by `step` in the shutdown state when no input remains that could end it: stuck for every event but
  RESET and SMI (R293, 93_implementation_defined.md U16). Safe: the machine stops where the hardware waits. -/
  | shutdown
deriving DecidableEq, Repr

/-- Where the spec gives the situation no meaning (`refuse` of R13). Each is safe: nothing follows a refusal. -/
inductive Refusal where
  /-- No arm of `exec` gives the instruction a meaning. Raised by no arm of this model. -/
  | notModelled (mnemonic : String)
  /-- An encoding within the ten opcodes that R150 (a), (c) to (g) leaves without a meaning; raised by the meanings. -/
  | undefinedEncoding
  /-- RSM with SMHR's valid bit clear (R192, R197, decision D37); raised by RSM. -/
  | smhrInvalid
  /-- One access whose bytes do not all route to the same memory (R104, decision D20); raised by data accesses. -/
  | regionStraddle
  /-- The region test for an ARR3 base that is not a multiple of its size (U5); raised by memory accesses. -/
  | misalignedRegion
  /-- A write that WP_ARR3 or WPR1 protects against (R129, decision D32); raised by memory writes. -/
  | writeProtected
  /-- A port 23h access to an index the source does not define (R69, R222, R223); raised by I/O instructions. -/
  | undefinedConfigIndex
  /-- A port 23h access with MAPEN = 2h to Fh (R224, decision D28, U3); raised by I/O instructions. -/
  | undefinedMapen
  /-- A CCR6 write that changes SMM_MODE inside SMM (R222, decision D33); raised by I/O instructions. -/
  | smmModeChangeInSmm
  /-- An I/O access wider than a byte that touches port 22h or 23h (R221, decision D15); raised by I/O instructions. -/
  | widePortAccess
  /-- The whole address space holds prefix bytes, so no instruction ends (R140; log entry 12); raised by `step`. -/
  | instructionTooLong
deriving DecidableEq, Repr

/-- Why an operation gives no result: an event for `Base`, a situation without a meaning, or an instruction that is
left to `Base` as a whole (R2, decision D1). -/
inductive Stop where
  | event (e : BaseEvent)
  | refuse (r : Refusal)
  | leftToBase
deriving DecidableEq, Repr

/-- The outcome of one step of this machine. -/
abbrev Out := Host.Outcome State Fault Refusal

/-! ### Reset (R80, R320 to R324) -/

/-- A descriptor of base 0, limit FFFFh, rights 93h (PRESUMED, log entry 1). -/
def resetDataDesc : Qword := 0x000093000000FFFF

/-- The base registers after RESET. EFLAGS, CR0 and DR7 as R80 states; the others PRESUMED (log entry 1). -/
def BaseRegs.reset : BaseRegs where
  gpr := { eax := 0, ecx := 0, edx := 0x00000600, ebx := 0, esp := 0, ebp := 0, esi := 0, edi := 0 }
  eip := 0x0000FFF0
  eflags := Config.resetEflags
  seg :=
    { es := ⟨0, resetDataDesc⟩, cs := ⟨0xF000, 0xFF0093FF0000FFFF⟩, ss := ⟨0, resetDataDesc⟩,
      ds := ⟨0, resetDataDesc⟩, fs := ⟨0, resetDataDesc⟩, gs := ⟨0, resetDataDesc⟩ }
  ldtr := ⟨0, 0x000082000000FFFF⟩
  tr := ⟨0, 0x00008B000000FFFF⟩
  gdtr := ⟨0xFFFF, 0⟩
  idtr := ⟨0x03FF, 0⟩
  cpl := 0
  cr0 := Config.resetCr0
  cr2 := 0
  cr3 := 0
  cr4 := 0
  dr0 := 0
  dr1 := 0
  dr2 := 0
  dr3 := 0
  dr6 := 0xFFFF0FF0
  dr7 := Config.resetDr7
  fpu := ⟨[], false⟩
  activity := .running

/-- The configuration registers after RESET: the bits R80 states 0, CCR4.IORT 5h; the rest PRESUMED (log entry 1). -/
def CfgRegs.reset : CfgRegs where
  ccr0 := 0
  ccr1 := 0
  ccr2 := 0
  ccr3 := 0
  ccr4 := 0x85
  ccr5 := 0
  ccr6 := 0
  arrCD := 0
  arrCE := 0
  arrCF := 0

/-- The machine right after RESET (R80, R320, R321, R324). DESIGN CHOICE (log entry 30): it lists no pin samples, so a run
from it alone brings no event at a pin, although R16 leaves the pins free. -/
def State.reset : State where
  base := BaseRegs.reset
  cfg := CfgRegs.reset
  smhr := 0
  cfgIndex := none
  inSmm := false
  smiLatched := false
  nmiLatched := false
  normal := []
  smm := []
  smiLow := false
  a20m := false
  susp := false
  nonCacheable := false
  debugTrap := false
  inputs := []
  lastIo := none
  ioTrace := []
  staleCode := []
  draws := 0

end Sys2Proof.Machine
end

