-- ==== Sys2Proof/Machine/BaseParam.lean ====
section
/-!
DEFINITION. The abstract parameter `Base` (R2, decision D1) as opaque functions: what the base core does where the
spec gives no more than "`Base`'s". Each is handed the part of the state the base core can reach (`State.baseView`) and
answers an outcome that only base registers and memory writes make up; the writes are routed and checked like every
other (`State.applyBase`), so no state of this spec is out of the rules' control. Log entry 27.
-/
namespace Sys2Proof.Machine

/-- The three kinds of memory access (R104). -/
inductive AccessKind where
  | fetch
  | read
  | write
deriving DecidableEq, Repr

/-- What an instruction, or the delivery of an event, leaves of the base core: its registers, the memory reads it made
that are still to be routed (each one access: physical addresses), its memory writes in order (each one access: physical
addresses with their bytes), and whether it was a jump (R127). -/
structure BaseOutcome where
  regs : BaseRegs
  reads : List (List Dword)
  writes : List (List (Dword × Byte))
  jump : Bool
deriving DecidableEq, Repr, Inhabited

/-- What the debug registers make of the instruction at the instruction pointer: no match, one taken before it executes,
or one taken after it has executed (R294, R303). -/
inductive DebugMatch where
  | none
  | before
  | after
deriving DecidableEq, Repr, Inhabited

/-- Which form of the FPU image an instruction saves or restores (R234): by the mode and by the operand size. -/
structure FpuForm where
  protectedMode : Bool
  wide : Bool
deriving DecidableEq, Repr

/-- What WM_RST leaves open (R322, decision D40). -/
structure WarmResetOutcome where
  regs : BaseRegs
  cfgIndex : Option Byte
  inSmm : Bool
  smiLatched : Bool
  nmiLatched : Bool
deriving DecidableEq, Repr, Inhabited

end Sys2Proof.Machine

namespace Sys2Proof

open Machine

/-- What `Base` does with an instruction that is none of the ten and that no rule of 43_base_instructions_used.md
describes far enough to write down (R2, R220, decision D1). -/
opaque Config.baseExec : State → BaseOutcome

/-- The vector number of an event for which the spec gives none (R293, R294, 91_not_in_source.md N11). Log entry 28. -/
opaque Config.baseVector : BaseEvent → Byte

/-- How `Base` delivers an event where the spec does not say (R280, R290, R293, decision D23). -/
opaque Config.baseDeliver : BaseEvent → State → BaseOutcome

/-- `Base`'s address translation while paging is on (R12, R122); none where it gives no address. It answers an address and
no change of state: DESIGN CHOICE (log entry 57). -/
opaque Config.baseTranslate : State → AccessKind → Dword → Option Dword

/-- `Base`'s segment checks outside real mode, the limit apart (R12, R122, R171). -/
opaque Config.baseAccessAllowed : State → AccessKind → SegReg → Bool

/-- Whether a GDT "is set up", where GDTR's limit leaves room for one (R235, R293; the source says no more). Log entry 56. -/
opaque Config.gdtSetUp : State → Bool

/-- `Base`'s I/O privilege check outside real mode (R221, R261). -/
opaque Config.baseIoAllowed : State → Word16 → Width → Bool

/-- Whether DR0 to DR3, as DR7 enables them, match the instruction at the instruction pointer or an access it makes, and
when the breakpoint is taken; the source leaves it to `Base` (R30, R294, R303). Log entry 48. -/
opaque Config.baseBreakpoint : State → DebugMatch

/-- How many bytes an FPU save image has, one at the least (R234: "layout and size are not given"). Log entry 49. -/
opaque Config.fpuImageSize : FpuForm → Nat

/-- Which bit of the full FPU image says that an unmasked exception is pending, counted from bit 0 of its first byte
(R31, R234). Log entry 49. -/
opaque Config.fpuPendingPlace : Nat

/-- A byte of the FPU image at a place that State lists no byte for (R234). Log entry 49. -/
opaque Config.fpuByte : Nat → Byte

/-- Byte `i` of a reduced form of the FPU's state (R234). Log entry 49. -/
opaque Config.fpuReduced : FpuForm → Fpu → Nat → Byte

/-- The FPU after a restore from a reduced form, by the FPU before and the bytes (R234). Log entry 49. -/
opaque Config.fpuWidened : FpuForm → Fpu → List Byte → Fpu

/-- The FPU after FNSAVE (R234 says nothing of it). Log entry 49. -/
opaque Config.fpuAfterSave : Fpu → Fpu

/-- The FPU image after FNINIT (R234: "a valid state"). Log entry 49. -/
opaque Config.fpuInitImage : List Byte

/-- The two bytes above the selector that a far CALL with 32-bit operand size pushes (R239). Log entry 50. -/
opaque Config.farCallUpper : Word16 → Word16

/-- WM_RST, the configuration registers and SMHR apart (R322, decision D40). -/
opaque Config.baseWarmReset : State → WarmResetOutcome

end Sys2Proof
end

