-- ==== Sys2Proof/Machine/Descriptor.lean ====
section
/-!
DEFINITION. The descriptor format of R114 and the 80-bit image of a segment-type register (mem80, R113).
-/
namespace Sys2Proof.Machine

/-- `S.base` (R114): byte 7, byte 4, bytes 3-2. -/
def SegReg.base (r : SegReg) : Dword :=
  r.desc.extractLsb' 56 8 ++ r.desc.extractLsb' 16 24

/-- `limit20` (R114): byte 6 bits 3-0, bytes 1-0. -/
def SegReg.limit20 (r : SegReg) : BitVec 20 :=
  r.desc.extractLsb' 48 4 ++ r.desc.extractLsb' 0 16

/-- The granularity bit G (R114): byte 6 bit 7. -/
def SegReg.granular (r : SegReg) : Bool :=
  r.desc.getLsbD 55

/-- The D/B bit (R114): byte 6 bit 6. -/
def SegReg.big (r : SegReg) : Bool :=
  r.desc.getLsbD 54

/-- `S.limit` (R114): `limit20`, or `(limit20 << 12) + FFFh` when G = 1. -/
def SegReg.limit (r : SegReg) : Dword :=
  if r.granular then r.limit20 ++ 0xFFF#12 else r.limit20.setWidth 32

/-- `S.rights` (R114): byte 5 and byte 6 bits 7-4, byte 5 in the low part. -/
def SegReg.rights (r : SegReg) : BitVec 12 :=
  r.desc.extractLsb' 52 4 ++ r.desc.extractLsb' 40 8

/-- The descriptor with another base (R114). -/
def withBase (d : Qword) (base : Dword) : Qword :=
  base.extractLsb' 24 8 ++ d.extractLsb' 40 16 ++ base.extractLsb' 0 24 ++ d.extractLsb' 0 16

/-- A MOV to a segment register in real mode, and a real-mode load of CS: the base becomes 16 times the selector,
limit and rights stay (R24, R239). -/
def SegReg.loadReal (r : SegReg) (sel : Word16) : SegReg :=
  ⟨sel, withBase r.desc (sel.setWidth 32 <<< 4)⟩

/-- The ten bytes of a mem80 holding a segment-type register: descriptor, then selector (R113). -/
def SegReg.toBytes (r : SegReg) : List Byte :=
  toLE 8 r.desc.toNat ++ toLE 2 r.sel.toNat

/-- The segment-type register that a mem80's bytes hold, exactly as found (R113, R178). -/
def SegReg.ofBytes (bs : List Byte) : SegReg :=
  ⟨BitVec.ofNat 16 (ofLE (bs.drop 8)), BitVec.ofNat 64 (ofLE (bs.take 8))⟩

/-- A segment register by name (R24). -/
def SegFile.get (f : SegFile) : SegName → SegReg
  | .es => f.es | .cs => f.cs | .ss => f.ss | .ds => f.ds | .fs => f.fs | .gs => f.gs

/-- A segment register written (R24). -/
def SegFile.set (f : SegFile) (n : SegName) (r : SegReg) : SegFile :=
  match n with
  | .es => { f with es := r }
  | .cs => { f with cs := r }
  | .ss => { f with ss := r }
  | .ds => { f with ds := r }
  | .fs => { f with fs := r }
  | .gs => { f with gs := r }

/-- `x[i]` (R11, R20). -/
def Gpr.get (g : Gpr) : GReg → Dword
  | .eax => g.eax | .ecx => g.ecx | .edx => g.edx | .ebx => g.ebx
  | .esp => g.esp | .ebp => g.ebp | .esi => g.esi | .edi => g.edi

/-- `x[i] <- v` (R11, R20). -/
def Gpr.set (g : Gpr) (r : GReg) (v : Dword) : Gpr :=
  match r with
  | .eax => { g with eax := v }
  | .ecx => { g with ecx := v }
  | .edx => { g with edx := v }
  | .ebx => { g with ebx := v }
  | .esp => { g with esp := v }
  | .ebp => { g with ebp := v }
  | .esi => { g with esi := v }
  | .edi => { g with edi := v }

end Sys2Proof.Machine
end

