-- ==== Sys2Proof/Machine/Region.lean ====
section
/-!
DEFINITION. The fields of the configuration registers (R41 to R64), the SMM address region (R64 to R66), SMHR's
pointer (R67, R68), the validity conditions (R170, R190, R263) and the positions of the header's open fields (R117).
-/
namespace Sys2Proof.Machine

/-! ### Fields -/

/-- CCR0.NC1: read by no rule (R41). -/
def CfgRegs.nc1 (c : CfgRegs) : Bool := c.ccr0.getLsbD 1
/-- CCR1.USE_SMI (R43). -/
def CfgRegs.useSmi (c : CfgRegs) : Bool := c.ccr1.getLsbD 1
/-- CCR1.SMAC (R44). -/
def CfgRegs.smac (c : CfgRegs) : Bool := c.ccr1.getLsbD 2
/-- CCR1 bit 3, MMAC: reserved on the MII, read by no rule but the lock (R45, R222). -/
def CfgRegs.mmac (c : CfgRegs) : Bool := c.ccr1.getLsbD 3
/-- CCR1.SM3 (R47). -/
def CfgRegs.sm3 (c : CfgRegs) : Bool := c.ccr1.getLsbD 7
/-- CCR2.LOCK_NW (R49). -/
def CfgRegs.lockNw (c : CfgRegs) : Bool := c.ccr2.getLsbD 2
/-- CCR2.SUSP_HALT (R50). -/
def CfgRegs.suspHalt (c : CfgRegs) : Bool := c.ccr2.getLsbD 3
/-- CCR2.USE_SUSP (R50). -/
def CfgRegs.useSusp (c : CfgRegs) : Bool := c.ccr2.getLsbD 7
/-- CCR2.WPR1 (R48). -/
def CfgRegs.wpr1 (c : CfgRegs) : Bool := c.ccr2.getLsbD 4
/-- CCR3.SMI_LOCK (R52). -/
def CfgRegs.smiLock (c : CfgRegs) : Bool := c.ccr3.getLsbD 0
/-- CCR3.NMI_EN (R53). -/
def CfgRegs.nmiEn (c : CfgRegs) : Bool := c.ccr3.getLsbD 1
/-- CCR3.MAPEN (R56). -/
def CfgRegs.mapen (c : CfgRegs) : BitVec 4 := c.ccr3.extractLsb' 4 4
/-- CCR4.CUID (R58). -/
def CfgRegs.cuid (c : CfgRegs) : Bool := c.ccr4.getLsbD 7
/-- CCR5.ARREN (R59). -/
def CfgRegs.arren (c : CfgRegs) : Bool := c.ccr5.getLsbD 5
/-- CCR6.SMM_MODE (R61): true for Cyrix Enhanced mode, false for SL-compatible mode. -/
def CfgRegs.smmMode (c : CfgRegs) : Bool := c.ccr6.getLsbD 0
/-- CCR6.WP_ARR3 (R63). -/
def CfgRegs.wpArr3 (c : CfgRegs) : Bool := c.ccr6.getLsbD 1
/-- CCR6.N (R62). -/
def CfgRegs.nest (c : CfgRegs) : Bool := c.ccr6.getLsbD 6
/-- CCR6.N written (R62). -/
def CfgRegs.setNest (c : CfgRegs) (b : Bool) : CfgRegs :=
  { c with ccr6 := if b then c.ccr6 ||| 0x40 else c.ccr6 &&& 0xBF }

/-! ### The SMM address region -/

/-- ARR3.SIZE (R64). -/
def CfgRegs.arr3SizeCode (c : CfgRegs) : BitVec 4 := c.arrCF.extractLsb' 0 4

/-- `arr3_size` (R9, R65, decision D8): 0 means no region, 3 is 16 KBytes, Fh is 4 GBytes; the other codes select an
open power of two from 4 KBytes to 4 GBytes (log entry 21). -/
def arr3Size (code : BitVec 4) : Nat :=
  if code = 0 then 0
  else if code = 3 then 0x4000
  else if code = 15 then 2 ^ 32
  else 2 ^ (12 + (Config.arr3SizeExponent code).val)

/-- `SmarSize` (R65). -/
def CfgRegs.smarSize (c : CfgRegs) : Nat := arr3Size c.arr3SizeCode

/-- `SmarBase` (R64): CDh, CEh, CFh[7:4] and 12 zero bits. -/
def CfgRegs.smarBase (c : CfgRegs) : Dword :=
  c.arrCD ++ c.arrCE ++ c.arrCF.extractLsb' 4 4 ++ 0#12

/-- `SmarOn` (R66). -/
def CfgRegs.smarOn (c : CfgRegs) : Bool := c.sm3 && c.arr3SizeCode != 0

/-- The base is a multiple of the size (R65); the region test is claimed for such a base only (U5). -/
def CfgRegs.smarAligned (c : CfgRegs) : Bool := c.smarBase.toNat % c.smarSize = 0

/-- The address lies in the region ARR3 describes: unsigned, without wrap-around (R66). -/
def CfgRegs.inArr3 (c : CfgRegs) (pa : Dword) : Bool :=
  c.arr3SizeCode != 0 && (c.smarBase.toNat ≤ pa.toNat && pa.toNat - c.smarBase.toNat < c.smarSize)

/-- `InSmar` (R66). -/
def CfgRegs.inSmar (c : CfgRegs) (pa : Dword) : Bool := c.sm3 && c.inArr3 pa

/-- ARR3 is in force: "If SM3 is set, ARR3 is enabled regardless of the setting of ARREN" (R59). -/
def CfgRegs.arr3Enabled (c : CfgRegs) : Bool := c.sm3 || c.arren

/-! ### SMHR -/

/-- `HdrTop` (R67): SMHR[31:2] and two zero bits. -/
def hdrTop (smhr : Dword) : Dword := smhr.extractLsb' 2 30 ++ 0#2

/-- SMHR's valid bit (R68). -/
def smhrValid (smhr : Dword) : Bool := smhr.getLsbD 0

/-- SMHR as SMM entry leaves it (R68, R270): recomputed as base plus size modulo 2^32 when its valid bit is clear. -/
def smhrForEntry (c : CfgRegs) (smhr : Dword) : Dword :=
  if smhrValid smhr then smhr
  else (c.smarBase + BitVec.ofNat 32 c.smarSize).extractLsb' 2 30 ++ 0b01#2

/-- SMHR with its valid bit cleared (R68). -/
def smhrInvalidated (smhr : Dword) : Dword := smhr &&& 0xFFFFFFFE

/-! ### Open bit positions in the header's flags dword (R117, decision D7; log entry 22) -/

/-- `hdr_cpl_pos`: the low bit of the 2-bit CPL field, from 5 to 30. -/
def hdrCplPos : Nat := 5 + Config.hdrCplChoice.val

/-- Position `k` counted over the positions from 5 that are below `a` or at least `a + n`. -/
def skipField (a n k : Nat) : Nat := if k < a then k else k + n

/-- `hdr_n_pos`: any position from 5 to 31 outside the CPL field. -/
def hdrNPos : Nat := skipField hdrCplPos 2 (5 + Config.hdrNChoice.val)

/-- `hdr_is_pos`: any position from 5 to 31 outside the CPL field and other than `hdr_n_pos`. -/
def hdrIsPos : Nat :=
  if hdrNPos < hdrCplPos then skipField hdrCplPos 2 (skipField hdrNPos 1 (5 + Config.hdrIsChoice.val))
  else skipField hdrNPos 1 (skipField hdrCplPos 2 (5 + Config.hdrIsChoice.val))

/-! ### Validity conditions -/

/-- What R170, R190 and R263 have in common: USE_SMI, a size, SM3. -/
def CfgRegs.smmConfigured (c : CfgRegs) : Bool := c.useSmi && c.arr3SizeCode != 0 && c.sm3

/-- `SmmInstrValid` (R170). -/
def State.smmInstrValid (s : State) : Bool :=
  s.base.cpl = 0 && s.cfg.smmConfigured && (s.cfg.smac || s.inSmm)

/-- `SmintValid` (R190). -/
def State.smintValid (s : State) : Bool :=
  s.base.cpl = 0 && s.cfg.smmConfigured && s.cfg.smac

/-- The instruction with this opcode exists: SMINT under `SmintValid` (R190), the others under `SmmInstrValid` (R170). -/
def State.opExists (s : State) : SmmOp → Bool
  | .smint => s.smintValid
  | .svdc | .rsdc | .svldt | .rsldt | .svts | .rsts | .rsm | .rdshr | .wrshr => s.smmInstrValid

/-- `SmiPinEnabled` (R263). -/
def State.smiPinEnabled (s : State) : Bool := s.cfg.smmConfigured && !s.cfg.smac

end Sys2Proof.Machine
end

