-- ==== Sys2Proof/Machine/Flags.lean ====
section
/-!
DEFINITION. The flag and control bits the spec reads (R23, R28), the base mode they decide (R32, R146, R272), and the
flag results of the few base instructions the source's own code uses (R230; PRESUMED, log entry 37). None of the ten
SMM instructions reads or writes a flag other than by saving and loading EFLAGS whole (R23).
-/
namespace Sys2Proof.Machine

/-- The carry flag, EFLAGS bit 0 (R23). -/
def flagCf : Nat := 0
/-- The parity flag (PRESUMED position, log entry 37). -/
def flagPf : Nat := 2
/-- The auxiliary-carry flag (PRESUMED position, log entry 37). -/
def flagAf : Nat := 4
/-- The zero flag (PRESUMED position, log entry 37). -/
def flagZf : Nat := 6
/-- The sign flag (PRESUMED position, log entry 37). -/
def flagSf : Nat := 7
/-- The trap flag (PRESUMED position, log entry 28). -/
def flagTf : Nat := 8
/-- IF, EFLAGS bit 9 (R23). -/
def flagIf : Nat := 9
/-- The direction flag (PRESUMED position, log entry 35). -/
def flagDf : Nat := 10
/-- The overflow flag (PRESUMED position, log entry 37). -/
def flagOf : Nat := 11
/-- The V86 flag (PRESUMED position, log entry 29). -/
def flagVm : Nat := 17
/-- ID, EFLAGS bit 21 (R23). -/
def flagId : Nat := 21
/-- PE, CR0 bit 0 (R28). -/
def cr0Pe : Nat := 0
/-- EM, CR0 bit 2 (R28). -/
def cr0Em : Nat := 2
/-- TS, CR0 bit 3 (PRESUMED, log entry 49). -/
def cr0Ts : Nat := 3
/-- The Global Disable bit, DR7 bit 13 (R30). -/
def dr7Gd : Nat := 13
/-- NW, CR0 bit 29 (R28). -/
def cr0Nw : Nat := 29
/-- PG, CR0 bit 31 (R28). -/
def cr0Pg : Nat := 31

/-- Real mode (R32): CR0.PE = 0. -/
def BaseRegs.realMode (b : BaseRegs) : Bool := !b.cr0.getLsbD cr0Pe

/-- V86 mode (R32): CR0.PE = 1 and EFLAGS.VM = 1 (log entry 29). -/
def BaseRegs.v86Mode (b : BaseRegs) : Bool := b.cr0.getLsbD cr0Pe && b.eflags.getLsbD flagVm

/-- Protected mode (R32): CR0.PE = 1, V86 mode apart. -/
def BaseRegs.protectedMode (b : BaseRegs) : Bool := !b.realMode && !b.v86Mode

/-- Paging is on (R28, R122). -/
def BaseRegs.paging (b : BaseRegs) : Bool := b.cr0.getLsbD cr0Pg

/-- The default address and operand size is 32 bits (R146): never in real mode, else by the D bit of CS. -/
def BaseRegs.default32 (b : BaseRegs) : Bool := !b.realMode && b.seg.cs.big

/-- `CsWritable` (R272): code segments are writable in real and V86 mode and not in protected mode. -/
def BaseRegs.csWritable (b : BaseRegs) : Bool := b.realMode || b.v86Mode

/-- Some breakpoint of DR0 to DR3 is enabled in DR7 (R30, R294): one of bits 7 to 0, none in the reset value 0000 0400h
(PRESUMED positions, log entry 48). -/
def BaseRegs.breakpointsOn (b : BaseRegs) : Bool := b.dr7.extractLsb' 0 8 != 0

/-- A value for CR0 with NW kept as it is while CCR2.LOCK_NW = 1 (R28, R49). -/
def keepNw (c : CfgRegs) (old new : Dword) : Dword :=
  if c.lockNw then setBit new cr0Nw (old.getLsbD cr0Nw) else new

/-- A value for EFLAGS with ID kept as it is while CCR4.CUID = 0 (R23, R58). -/
def keepId (c : CfgRegs) (old new : Dword) : Dword :=
  if c.cuid then new else setBit new flagId (old.getLsbD flagId)

/-! ### Flag results of base instructions (R230; log entry 37) -/

/-- The number of bits of an operand. -/
def Width.bits : Width → Nat
  | .byte => 8
  | .word => 16
  | .dword => 32

/-- The number of bytes of an operand or I/O access (R102). -/
def Width.bytes : Width → Nat
  | .byte => 1
  | .word => 2
  | .dword => 4

/-- The low `w` of a value. -/
def Width.trunc (w : Width) (v : Dword) : Dword :=
  match w with
  | .byte => v &&& 0xFF
  | .word => v &&& 0xFFFF
  | .dword => v

/-- Parity of the low byte: set for an even number of ones. -/
def evenParity (v : Dword) : Bool :=
  !((List.range 8).foldl (fun p i => p ^^ v.getLsbD i) false)

/-- SF, ZF and PF from a result. -/
def resultFlags (w : Width) (f r : Dword) : Dword :=
  setBit (setBit (setBit f flagSf (r.getLsbD (w.bits - 1))) flagZf (w.trunc r = 0)) flagPf (evenParity r)

/-- Flags after OR, AND or TEST: CF and OF clear, AF open. -/
def logicFlags (w : Width) (f a b r : Dword) : Dword :=
  setBit (setBit (setBit (resultFlags w f r) flagCf false) flagOf false) flagAf (Config.logicAuxFlag a b)

/-- Flags after an addition of `a`, `b` and a carry giving `r`. -/
def addFlags (w : Width) (f a b r : Dword) (carryIn : Bool) : Dword :=
  let top := w.bits - 1
  let sum := (w.trunc a).toNat + (w.trunc b).toNat + carryIn.toNat
  setBit (setBit (setBit (resultFlags w f r) flagCf (2 ^ w.bits ≤ sum))
    flagOf ((a.getLsbD top == b.getLsbD top) && (a.getLsbD top != r.getLsbD top)))
    flagAf (16 ≤ (a &&& 0xF).toNat + (b &&& 0xF).toNat + carryIn.toNat)

/-- Flags after a decrement of `a` giving `r`: CF stays. -/
def decFlags (w : Width) (f a r : Dword) : Dword :=
  setBit (setBit (resultFlags w f r) flagOf (a.getLsbD (w.bits - 1) && !r.getLsbD (w.bits - 1)))
    flagAf ((a &&& 0xF) = 0)

/-- Flags after BT: CF is the bit (R230), OF, SF, AF and PF open, ZF stays. -/
def btFlags (f a : Dword) (n : BitVec 8) (bit : Bool) : Dword :=
  let o := Config.btOtherFlags a n
  setBit (setBit (setBit (setBit (setBit f flagCf bit) flagOf (o.getLsbD 0)) flagSf (o.getLsbD 1))
    flagAf (o.getLsbD 2)) flagPf (o.getLsbD 3)

end Sys2Proof.Machine
end

