-- ==== Sys2Proof/Machine/Ops.lean ====
section
/-!
DEFINITION. The named operations over memory and registers: routing (R104), accesses through physical addresses and
through segments (R12), what `Base` does (R2), delivering an event to it (R290, R236, R277, R278), and SMM entry
(R270) with the return from it (R192) beside it.
-/
namespace Sys2Proof.Machine

/-! ### Cells -/

/-- The byte in a cell. -/
def State.readLoc (s : State) (l : Loc) : Byte :=
  match l.store with
  | .normal => s.normal.read l.addr.toNat
  | .smm => s.smm.read l.addr.toNat

/-- One cell written; its old byte stays visible to instruction fetches until a jump, SMM entry or RSM (R127). -/
def State.writeLoc (s : State) (l : Loc) (b : Byte) : State :=
  match l.store with
  | .normal =>
    { s with normal := s.normal.write l.addr.toNat b, staleCode := ⟨l, s.readLoc l⟩ :: s.staleCode }
  | .smm =>
    { s with smm := s.smm.write l.addr.toNat b, staleCode := ⟨l, s.readLoc l⟩ :: s.staleCode }

/-- Cells written in order. -/
def State.writeLocs (s : State) : List (Loc × Byte) → State
  | [] => s
  | x :: xs => (s.writeLoc x.1 x.2).writeLocs xs

/-! ### Routing (R104) -/

/-- The conjuncts of R104 other than the region: SMM memory can be reached at all. -/
def State.smmReachable (s : State) : Bool :=
  s.cfg.useSmi && (s.inSmm || s.cfg.smac)

/-- The address after `Base`'s A20M# masking, which applies to normal memory only (R106). -/
def State.maskedAddr (s : State) (pa : Dword) : Dword :=
  if s.a20m then Config.a20Mask pa else pa

/-- The address the region test compares (R106: masked or not is open while A20M# is asserted). -/
def State.regionTestAddr (s : State) (pa : Dword) : Dword :=
  if s.a20m && Config.a20MasksRegionTest then Config.a20Mask pa else pa

/-- The cell an access at a physical address reaches (R104): SMM memory when USE_SMI = 1, the address lies in the
region, and the CPU is in SMM or SMAC = 1; normal memory otherwise. A region whose base is not a multiple of its size
is not evaluated (U5). -/
def State.locate (s : State) (pa : Dword) : Except Refusal Loc :=
  if s.smmReachable && s.cfg.smarOn then
    if s.cfg.smarAligned then
      if s.cfg.inSmar (s.regionTestAddr pa) then .ok ⟨.smm, pa⟩ else .ok ⟨.normal, s.maskedAddr pa⟩
    else .error .misalignedRegion
  else .ok ⟨.normal, s.maskedAddr pa⟩

/-- The cells of the bytes of one access. -/
def State.locateEach (s : State) : List Dword → Except Refusal (List Loc)
  | [] => .ok []
  | pa :: pas =>
    match s.locate pa, s.locateEach pas with
    | .ok l, .ok ls => .ok (l :: ls)
    | .error r, _ => .error r
    | .ok _, .error r => .error r

/-- All the cells lie in one memory. -/
def sameStore : List Loc → Bool
  | [] => true
  | l :: ls => ls.all fun k => k.store = l.store

/-- The cells of one access; bytes that do not all route to the same memory have no meaning (R104, decision D20). -/
def State.locateAccess (s : State) (pas : List Dword) : Except Refusal (List Loc) :=
  match s.locateEach pas with
  | .ok ls => if sameStore ls then .ok ls else .error .regionStraddle
  | .error r => .error r

/-- WP_ARR3 is in force: outside SMM, the bit set, ARR3 enabled and describing a region (R63, R129, R59). -/
def State.wpArr3Active (s : State) : Bool :=
  !s.inSmm && s.cfg.wpArr3 && s.cfg.arr3Enabled && s.cfg.arr3SizeCode != 0

/-- WPR1 protects a write at this address: cacheable accesses from 640 KByte to 1 MByte (R48); not while KEN# makes
accesses non-cacheable (R78), nor an access to SMM memory in SL-compatible mode, which is never cached (R125). CCR0.NC1
has no part in it (R41; log entry 6). DESIGN CHOICE (log entry 6): neither has CR0.CD. -/
def State.wpr1Protects (s : State) (pa : Dword) (l : Loc) : Bool :=
  s.cfg.wpr1 && !s.nonCacheable && (0xA0000 ≤ pa.toNat && pa.toNat < 0x100000)
    && !(l.store = .smm && !s.cfg.smmMode)

/-- A write at this address may be performed; a write to a protected region has no meaning (R129, decision D32). -/
def State.checkWrite (s : State) (pa : Dword) (l : Loc) : Except Refusal Unit :=
  if s.wpArr3Active && !s.cfg.smarAligned then .error .misalignedRegion
  else if s.wpArr3Active && s.cfg.inArr3 pa then .error .writeProtected
  else if s.wpr1Protects pa l then .error .writeProtected
  else .ok ()

/-- Every byte of one write may be performed. -/
def State.checkWrites (s : State) : List (Dword × Loc) → Except Refusal Unit
  | [] => .ok ()
  | x :: xs =>
    match s.checkWrite x.1 x.2 with
    | .ok () => s.checkWrites xs
    | .error r => .error r

/-- The cells one write goes to. -/
def State.writableLocs (s : State) (pas : List Dword) : Except Refusal (List Loc) :=
  match s.locateAccess pas with
  | .error r => .error r
  | .ok ls =>
    match s.checkWrites (pas.zip ls) with
    | .ok () => .ok ls
    | .error r => .error r

/-! ### Accesses by physical address (R12 `MemRead`, `MemWrite`) -/

/-- The addresses of `n` bytes from `pa`, modulo 2^32 (decision D21). -/
def physAddrs (pa : Dword) (n : Nat) : List Dword :=
  (List.range n).map fun i => pa + BitVec.ofNat 32 i

/-- One read access: the bytes at the addresses. -/
def State.readAccess (s : State) (pas : List Dword) : Except Refusal (List Byte) :=
  match s.locateAccess pas with
  | .ok ls => .ok (ls.map s.readLoc)
  | .error r => .error r

/-- One write access: each address gets its byte. -/
def State.writeAccess (s : State) (acc : List (Dword × Byte)) : Except Refusal State :=
  match s.writableLocs (acc.map Prod.fst) with
  | .ok ls => .ok (s.writeLocs (ls.zip (acc.map Prod.snd)))
  | .error r => .error r

/-- Write accesses in order (R123). -/
def State.writeAccesses (s : State) : List (List (Dword × Byte)) → Except Refusal State
  | [] => .ok s
  | a :: as =>
    match s.writeAccess a with
    | .ok t => t.writeAccesses as
    | .error r => .error r

/-- `MemRead(pa, n)` (R12), as a number. -/
def State.memRead (s : State) (pa : Dword) (n : Nat) : Except Refusal Nat :=
  match s.readAccess (physAddrs pa n) with
  | .ok bs => .ok (ofLE bs)
  | .error r => .error r

/-- The access that stores the low `n` bytes of `v` at `pa` (R12 `MemWrite`). -/
def memWriteAccess (pa : Dword) (n v : Nat) : List (Dword × Byte) :=
  (physAddrs pa n).zip (toLE n v)

/-! ### Accesses through a segment (R12 `SegRead`, `SegWrite`) -/

/-- Some physical address is routed to this cell of a memory (R104). -/
def State.routable (s : State) (st : StoreId) (c : Host.Cell) : Bool :=
  decide (∃ pa : Dword, s.locate pa = .ok ⟨st, BitVec.ofNat 32 c.1⟩)

/-- What the base core can reach of the state: not the pins' future, and of both memories only the cells that R104 routes
an access to (log entry 27). -/
def State.baseView (s : State) : State :=
  { s with
    inputs := []
    staleCode := []
    ioTrace := []
    normal := s.normal.filter (s.routable .normal)
    smm := s.smm.filter (s.routable .smm) }

/-- `Phys(lin)` (R12): the linear address while paging is off, else `Base`'s answer. DESIGN CHOICE (log entry 57): asking for
it changes no state, so `Base`'s paging marks no page-table entry and leaves no register for a translation. -/
def State.translate (s : State) (k : AccessKind) (lin : Dword) : Except Stop Dword :=
  if s.base.paging then
    match Config.baseTranslate s.baseView k lin with
    | some pa => .ok pa
    | none => .error (.event .translationFault)
  else .ok lin

/-- The physical addresses of bytes at these linear addresses. `left` bytes are still to come of the piece that the byte at
`lin'` and `pa'` belongs to: one of them lies next to the byte before it if its linear address does. Every other byte has
its own `Phys(lin)`, and the byte after the piece begins the next piece of eight. -/
def State.translateFrom (s : State) (k : AccessKind) (left : Nat) (lin' pa' : Dword) :
    List Dword → Except Stop (List Dword)
  | [] => .ok []
  | lin :: lins =>
    let next := 0 < left && lin = lin' + 1
    match if next then .ok (pa' + 1) else s.translate k lin with
    | .error e => .error e
    | .ok pa =>
      match s.translateFrom k (if left = 0 then 7 else left - 1) lin pa lins with
      | .ok pas => .ok (pa :: pas)
      | .error e => .error e

/-- The physical addresses of bytes at these linear addresses: `MemRead` and `MemWrite` take consecutive bytes from one
`Phys(Lin(S, off))` on (R12), in pieces of eight, so the bytes 0 to 7 of a mem80 are one access and its bytes 8 and 9 the
other, at their own `Phys(Lin(S, off + 8))` (R172 to R177). DESIGN CHOICE (log entry 45): inside a piece, a byte whose
offset has wrapped around (R171) is translated anew, and an FPU image goes in pieces of eight bytes. -/
def State.translateEach (s : State) (k : AccessKind) (lins : List Dword) : Except Stop (List Dword) :=
  s.translateFrom k 0 0 0 lins

/-- The segment permits an access at these offsets: none beyond its limit (R24), and outside real mode whatever else
`Base` requires (R12, R171). DESIGN CHOICE (log entry 46): in real mode every access within the limit is permitted,
whatever the rights RSDC has loaded (R178 and vector B2.7 leave that to `Base`). -/
def State.segPermits (s : State) (r : SegReg) (k : AccessKind) (offs : List Dword) : Bool :=
  offs.all (fun o => o.toNat ≤ r.limit.toNat) && (s.base.realMode || Config.baseAccessAllowed s.baseView k r)

/-- The physical addresses of the bytes at these offsets of a segment (R12: `Phys(Lin(S, off))`). DESIGN CHOICE (log entry
55): the checks of the segment are made for all the bytes before any is translated, and the bytes are translated in order
before any is routed, so of several reasons to stop the earlier check's wins (R112). -/
def State.segAddrs (s : State) (r : SegReg) (k : AccessKind) (offs : List Dword) : Except Stop (List Dword) :=
  if s.segPermits r k offs then s.translateEach k (offs.map fun o => r.base + o)
  else .error (.event .protectionError)

/-- One read through a segment. -/
def State.segRead (s : State) (r : SegReg) (offs : List Dword) : Except Stop (List Byte) :=
  match s.segAddrs r .read offs with
  | .error e => .error e
  | .ok pas =>
    match s.readAccess pas with
    | .ok bs => .ok bs
    | .error x => .error (.refuse x)

/-- The cells one write through a segment goes to. -/
def State.segWriteLocs (s : State) (r : SegReg) (offs : List Dword) : Except Stop (List Loc) :=
  match s.segAddrs r .write offs with
  | .error e => .error e
  | .ok pas =>
    match s.writableLocs pas with
    | .ok ls => .ok ls
    | .error x => .error (.refuse x)

/-- One write through a segment. -/
def State.segWrite (s : State) (r : SegReg) (offs : List Dword) (bs : List Byte) : Except Stop State :=
  match s.segWriteLocs r offs with
  | .ok ls => .ok (s.writeLocs (ls.zip bs))
  | .error e => .error e

/-! ### The instruction pointer -/

/-- `EIP <- EIP + n` modulo 2^32 (R140, decision D21), the instruction not being an I/O instruction (R271). DESIGN CHOICE
(log entry 54): in 16-bit code too EIP runs on past FFFFh (R22: wrap-around is not described, N1). -/
def State.advance (s : State) (n : Nat) : State :=
  { s with base := { s.base with eip := s.base.eip + BitVec.ofNat 32 n }, lastIo := none }

/-! ### What `Base` leaves (R2, decision D1) -/

/-- New base registers, NW and ID kept where the configuration says so (R49, R58). -/
def guardRegs (c : CfgRegs) (old new : BaseRegs) : BaseRegs :=
  { new with cr0 := keepNw c old.cr0 new.cr0, eflags := keepId c old.eflags new.eflags }

/-- Read accesses that `Base` makes, each routed as R104 says. -/
def State.checkReads (s : State) : List (List Dword) → Except Refusal Unit
  | [] => .ok ()
  | pas :: rest =>
    match s.locateAccess pas with
    | .ok _ => s.checkReads rest
    | .error r => .error r

/-- An outcome of `Base` applied: its memory reads routed and its memory writes routed and checked as R104 and R129 say,
then its registers. -/
def State.applyBase (s : State) (o : BaseOutcome) : Except Refusal State :=
  match s.checkReads o.reads, s.writeAccesses o.writes with
  | .error r, _ => .error r
  | .ok _, .error r => .error r
  | .ok _, .ok t =>
    .ok { t with
      base := guardRegs s.cfg s.base o.regs
      lastIo := none
      staleCode := if o.jump then [] else t.staleCode
      draws := t.draws + 1 }

/-! ### Delivering an event to `Base` (R236, R277, R278, R290) -/

/-- An event's vector number: those the spec gives (R290, R294) are 6, 3 and 2, INTR's comes from the platform, and the
others are open (log entry 28). -/
def BaseEvent.vector : BaseEvent → Byte
  | .invalidOpcode => 6
  | .breakpoint => 3
  | .nmi => 2
  | .intr v => v
  | .debugBreakpoint => Config.baseVector .debugBreakpoint
  | .fpuException => Config.baseVector .fpuException
  | .protectionError => Config.baseVector .protectionError
  | .translationFault => Config.baseVector .translationFault
  | .notValidInRealMode => Config.baseVector .notValidInRealMode

/-- The stack offset `k` bytes below the stack pointer: 16 bits wide unless SS has its B bit set (log entry 28). -/
def stackOffset (b : BaseRegs) (k : Nat) : Dword :=
  if b.seg.ss.big then b.gpr.esp - BitVec.ofNat 32 k
  else ((b.gpr.esp - BitVec.ofNat 32 k).setWidth 16).setWidth 32

/-- The stack pointer after `k` bytes are pushed. -/
def stackPointer (b : BaseRegs) (k : Nat) : Dword :=
  if b.seg.ss.big then b.gpr.esp - BitVec.ofNat 32 k
  else b.gpr.esp.extractLsb' 16 16 ++ (b.gpr.esp - BitVec.ofNat 32 k).setWidth 16

/-- The physical addresses of the word pushed `k` bytes below the stack pointer. -/
def State.pushAddrs (s : State) (k : Nat) : Except Stop (List Dword) :=
  s.segAddrs s.base.seg.ss .write [stackOffset s.base k, stackOffset s.base (k - 1)]

/-- The registers after a real-mode delivery: IF and TF clear, CS loaded as R239 says, EIP at the handler, the stack
pointer six lower, any halt ended. -/
def realDeliveryRegs (b : BaseRegs) (sel off : Word16) : BaseRegs :=
  { b with
    eip := off.setWidth 32
    eflags := setBit (setBit b.eflags flagIf false) flagTf false
    seg := b.seg.set .cs (b.seg.cs.loadReal sel)
    gpr := b.gpr.set .esp (stackPointer b 6)
    activity := .running }

/-- A real-mode delivery through the table IDTR designates (R279): the 4-byte entry of the vector holds offset and
selector; FLAGS, CS and the return offset go on the stack (R236, R239). PRESUMED in its details (log entry 28). -/
def State.realDelivery (s : State) (v : Byte) : Except Stop BaseOutcome :=
  if 4 * v.toNat + 3 ≤ s.base.idtr.limit.toNat then
    match s.readAccess (physAddrs (s.base.idtr.base + BitVec.ofNat 32 (4 * v.toNat)) 4),
        s.pushAddrs 2, s.pushAddrs 4, s.pushAddrs 6 with
    | .ok entry, .ok fl, .ok cs, .ok ip =>
      .ok {
        regs := realDeliveryRegs s.base (BitVec.ofNat 16 (ofLE (entry.drop 2))) (BitVec.ofNat 16 (ofLE (entry.take 2)))
        reads := []
        writes :=
          [fl.zip (toLE 2 s.base.eflags.toNat), cs.zip (toLE 2 s.base.seg.cs.sel.toNat),
            ip.zip (toLE 2 s.base.eip.toNat)]
        jump := true }
    | .error r, _, _, _ => .error (.refuse r)
    | .ok _, .error e, _, _ => .error e
    | .ok _, .ok _, .error e, _ => .error e
    | .ok _, .ok _, .ok _, .error e => .error e
  else .error (.event .protectionError)

/-- An event ends a halt: HLT halts "until an interrupt" (R228). -/
def Activity.awake : Activity → Activity
  | .halted _ => .running
  | a => a

/-- `Base`'s own delivery of an event, which is open (decision D23), but for the end of a halt (R228). -/
def State.baseDelivery (s : State) (e : BaseEvent) : BaseOutcome :=
  let o := Config.baseDeliver e s.baseView
  { o with regs := { o.regs with activity := o.regs.activity.awake } }

/-- Taking an event "through the table IDTR designates at that moment, in the base mode of that moment" (R277 to R280,
decision D23): in real mode with paging off the real-mode delivery; in another mode, or where a table or a stack ends
at its limit, `Base`'s own delivery. The return address is EIP as it stands: the faulting instruction's for a fault (R290). -/
def State.deliver (s : State) (e : BaseEvent) : Except Refusal State :=
  if s.base.realMode && !s.base.paging then
    match s.realDelivery e.vector with
    | .ok o => s.applyBase o
    | .error (.refuse r) => .error r
    | .error _ => s.applyBase (s.baseDelivery e)
  else s.applyBase (s.baseDelivery e)

/-- The step outcome of an operation that can only be refused. -/
def outcome : Except Refusal State → Out
  | .ok t => .next t
  | .error r => .refused r

/-- `raise InvalidOpcode` (R13, R290). -/
def raiseInvalidOpcode (s : State) : Out :=
  outcome (s.deliver .invalidOpcode)

/-- An instruction left to `Base` as a whole (R2, R220, decision D1). -/
def State.runBase (s : State) : Except Refusal State :=
  s.applyBase (Config.baseExec s.baseView)

/-- The step outcome of an instruction begun in `s`: its result, or the event it raises, delivered with nothing of the
instruction done (R290), or a refusal. -/
def finish (s : State) : Except Stop State → Out
  | .ok t => .next t
  | .error (.event e) => outcome (s.deliver e)
  | .error (.refuse r) => .refused r
  | .error .leftToBase => outcome s.runBase

/-- An operation that can only be refused, as one that may also raise an event. -/
def liftRefusal : Except Refusal State → Except Stop State
  | .ok t => .ok t
  | .error r => .error (.refuse r)

/-! ### SMM entry (R270) -/

/-- `cause` of `SMM_Enter`: the pin or SMINT (R270). -/
inductive EntryCause where
  | pin
  | smint
deriving DecidableEq, Repr

/-- The arguments of `SMM_Enter` (R270). `nextIp` is none where it is not determined (shutdown, decision D34); `io`
describes the I/O instruction just executed, if one was. -/
structure EntryArgs where
  cause : EntryCause
  nextIp : Option Dword
  io : Option IoInfo
  halted : Bool
deriving DecidableEq, Repr

/-- The size codes of the header (R118): a mask of the bytes moved. -/
def Width.code : Width → Nat
  | .byte => 0x01
  | .word => 0x03
  | .dword => 0x0F

/-- The bits of the header's data field that are valid: the low 1, 2 or 4 bytes of a write (R118, R273). -/
def IoInfo.validData (i : IoInfo) : Dword :=
  if i.write then
    match i.size with
    | .byte => 0x000000FF
    | .word => 0x0000FFFF
    | .dword => 0xFFFFFFFF
  else 0

/-- How many draws one entry takes (R270). -/
def entryDraws : Nat := 9

/-- The flags dword (R117, R270, R272): `f` drawn, then the determined bits set in it. -/
def entryFlags (s : State) (a : EntryArgs) (f : Dword) (isBit : Bool) : Dword :=
  let f := setBit f 0 s.base.csWritable
  let f := match a.io with
    | some i => setBit (setBit f 1 i.write) 2 i.rep
    | none => f
  let f := setBit (setBit f 3 (a.cause = .smint)) 4 a.halted
  let f := setBit f hdrIsPos (match a.cause with | .pin => false | .smint => isBit)
  let f := setBit f hdrNPos s.inSmm
  setBit (setBit f hdrCplPos (s.base.cpl.getLsbD 0)) (hdrCplPos + 1) (s.base.cpl.getLsbD 1)

/-- The `k`-th value drawn by an entry from `s`, `w` bits of it. -/
def State.drawn (s : State) (k w : Nat) : BitVec w :=
  (Config.freeBits (s.draws + k)).setWidth w

/-- The header's fields in the order R270 writes them: distance below `HdrTop`, size, value (R116, R118, R119). -/
def headerFields (s : State) (a : EntryArgs) : List (Nat × Nat × Nat) :=
  [ (0x04, 4, s.base.dr7.toNat),
    (0x08, 4, s.base.eflags.toNat),
    (0x0C, 4, s.base.cr0.toNat),
    (0x10, 4, (match a.io with | some i => i.curIp | none => s.drawn 0 32).toNat),
    (0x14, 4, (match a.nextIp with | some n => n | none => s.drawn 8 32).toNat),
    (0x16, 2, (s.drawn 1 16).toNat),
    (0x18, 2, s.base.seg.cs.sel.toNat),
    (0x20, 8, s.base.seg.cs.desc.toNat),
    (0x24, 4, (entryFlags s a (s.drawn 2 32) ((s.drawn 3 1).getLsbD 0)).toNat),
    (0x26, 2, match a.io with | some i => i.size.code | none => (s.drawn 4 16).toNat),
    (0x28, 2, (match a.io with | some i => i.port | none => s.drawn 5 16).toNat),
    (0x2C, 4, (match a.io with
      | some i => (i.data &&& i.validData) ||| (s.drawn 6 32 &&& ~~~i.validData)
      | none => s.drawn 6 32).toNat),
    (0x30, 4, (match a.io with | some i => i.esiEdi | none => s.drawn 7 32).toNat) ]

/-- The write accesses that store the header below `top`. -/
def headerWrites (s : State) (a : EntryArgs) (top : Dword) : List (List (Dword × Byte)) :=
  (headerFields s a).map fun f => memWriteAccess (top - BitVec.ofNat 32 f.1) f.2.1 f.2.2

/-- The CS descriptor after entry: base `SmarBase`, limit FFFFFh with G = 1, D = 0; rights and bits 5-4 of byte 6 open
(R270, R274, decision D12). -/
def entryCsDesc (c : CfgRegs) : Qword :=
  c.smarBase.extractLsb' 24 8 ++ 0b10#2 ++ Config.smmEntryCsAvl ++ Config.entryCsLimit20.extractLsb' 16 4
    ++ Config.smmEntryCsRights ++ c.smarBase.extractLsb' 0 24 ++ Config.entryCsLimit20.extractLsb' 0 16

/-- The base registers after entry (R270, R274): what is not named keeps its value (R275). -/
def entryRegs (c : CfgRegs) (b : BaseRegs) : BaseRegs :=
  { b with
    cr0 := keepNw c b.cr0 Config.resetCr0
    eflags := Config.resetEflags
    dr7 := Config.resetDr7
    seg := b.seg.set .cs ⟨Config.smmEntryCsSelector, entryCsDesc c⟩
    cpl := 0
    eip := 0
    activity := .running }

/-- The state in which an entry writes its header: SMHR loaded if it was invalid, `in_smm` already true (R270). -/
def State.entering (s : State) : State :=
  { s with smhr := smhrForEntry s.cfg s.smhr, inSmm := true, draws := s.draws + entryDraws }

/-- `SMM_Enter` (R270). The header's writes are unchecked by `Base` (decision D38) and checked by CCR2.WPR1 like every
other write: where WPR1 protects one of them the whole entry is refused (decision D32; DESIGN CHOICE, log entry 6). -/
def State.enterSmm (s : State) (a : EntryArgs) : Except Refusal State :=
  match s.entering.writeAccesses (headerWrites s a (hdrTop s.entering.smhr)) with
  | .error r => .error r
  | .ok t =>
    .ok { t with
      base := entryRegs s.cfg s.base
      cfg := s.cfg.setNest false
      staleCode := []
      lastIo := none }

/-! ### Return from SMM (R192) -/

/-- The seven header fields RSM reads (R192). -/
structure SavedHeader where
  dr7 : Dword
  eflags : Dword
  cr0 : Dword
  nextIp : Dword
  csSel : Word16
  csDesc : Qword
  flags : Dword
deriving DecidableEq, Repr

/-- The header below `top`, as it stands in memory (R192, R116). -/
def State.readHeader (s : State) (top : Dword) : Except Refusal SavedHeader := do
  let dr7 ← s.memRead (top - 0x04) 4
  let eflags ← s.memRead (top - 0x08) 4
  let cr0 ← s.memRead (top - 0x0C) 4
  let nextIp ← s.memRead (top - 0x14) 4
  let csSel ← s.memRead (top - 0x18) 2
  let csDesc ← s.memRead (top - 0x20) 8
  let flags ← s.memRead (top - 0x24) 4
  .ok ⟨BitVec.ofNat 32 dr7, BitVec.ofNat 32 eflags, BitVec.ofNat 32 cr0, BitVec.ofNat 32 nextIp,
    BitVec.ofNat 16 csSel, BitVec.ofNat 64 csDesc, BitVec.ofNat 32 flags⟩

/-- The CPL field of a flags dword (R117). -/
def headerCpl (f : Dword) : BitVec 2 :=
  (f >>> hdrCplPos).setWidth 2

/-- The N field of a flags dword (R117). -/
def headerN (f : Dword) : Bool :=
  f.getLsbD hdrNPos

/-- The base registers after RSM (R192): CS, EIP, EFLAGS, CR0, DR7 and CPL; the others stay (R194). -/
def resumeRegs (c : CfgRegs) (b : BaseRegs) (h : SavedHeader) : BaseRegs :=
  { b with
    dr7 := h.dr7
    eflags := h.eflags
    cr0 := keepNw c b.cr0 h.cr0
    eip := h.nextIp
    seg := b.seg.set .cs ⟨h.csSel, h.csDesc⟩
    cpl := headerCpl h.flags }

/-- The state after RSM has loaded a header (R192): `in_smm` from its N field, CCR6.N set, SMHR and all else kept. -/
def State.resumed (s : State) (h : SavedHeader) : State :=
  { s with
    base := resumeRegs s.cfg s.base h
    inSmm := headerN h.flags
    cfg := s.cfg.setNest true
    staleCode := []
    lastIo := none }

/-- RSM's effect once it is valid (R192): a valid SMHR is required (decision D37). -/
def State.resumeFromSmm (s : State) : Except Refusal State :=
  if smhrValid s.smhr then
    match s.readHeader (hdrTop s.smhr) with
    | .ok h => .ok (s.resumed h)
    | .error r => .error r
  else .error .smhrInvalid

end Sys2Proof.Machine
end

