-- ==== Sys2Proof/Machine/Operands.lean ====
section
/-!
DEFINITION. Every operand form: effective addresses (R144, R145), the segment in force (R141, R171), the places of a
memory operand's bytes, the mem80 and the 32-bit operand (R113, R147).
-/
namespace Sys2Proof.Machine

/-! ### Effective addresses -/

/-- The 16-bit part of a general register (R21). -/
def Gpr.get16 (g : Gpr) (r : GReg) : BitVec 16 := (g.get r).setWidth 16

end Sys2Proof.Machine

namespace Sys2Proof

open Machine

/-- The register sum of a 16-bit address (R144). -/
def Base16.value (g : Gpr) : Base16 → BitVec 16
  | .bxsi => g.get16 .ebx + g.get16 .esi
  | .bxdi => g.get16 .ebx + g.get16 .edi
  | .bpsi => g.get16 .ebp + g.get16 .esi
  | .bpdi => g.get16 .ebp + g.get16 .edi
  | .si => g.get16 .esi
  | .di => g.get16 .edi
  | .bp => g.get16 .ebp
  | .bx => g.get16 .ebx

/-- A 16-bit displacement: `disp8` is sign-extended (R144). -/
def Disp16.value : Disp16 → BitVec 16
  | .none => 0
  | .d8 d => d.signExtend 16
  | .d16 d => d

/-- A 32-bit displacement: `disp8` is sign-extended (R145). -/
def Disp32.value : Disp32 → Dword
  | .none => 0
  | .d8 d => d.signExtend 32
  | .d32 d => d

/-- A 16-bit effective address, modulo 2^16 (R144). -/
def Addr16.ea (g : Gpr) : Addr16 → BitVec 16
  | .ind b d => b.value g + d.value
  | .abs d => d

/-- The scaled index of a SIB form; ESP in the index place means none (R145). -/
def scaledIndex (g : Gpr) (scale : BitVec 2) (index : GReg) : Dword :=
  if index = .esp then 0 else g.get index <<< scale.toNat

/-- A 32-bit effective address, modulo 2^32 (R145). -/
def Addr32.ea (g : Gpr) : Addr32 → Dword
  | .ind r d => g.get r + d.value
  | .abs d => d
  | .sib scale index base d => g.get base + scaledIndex g scale index + d.value
  | .sibAbs scale index d => scaledIndex g scale index + d

/-- The offset of byte `i` of a memory operand: the effective address plus `i`, modulo 2^16 under 16-bit addressing and
2^32 under 32-bit addressing (R171, decision D21). -/
def MemArg.offset (g : Gpr) (m : MemArg) (i : Nat) : Dword :=
  match m with
  | .a16 a => (a.ea g + BitVec.ofNat 16 i).setWidth 32
  | .a32 a => a.ea g + BitVec.ofNat 32 i

/-- The offsets of the first `n` bytes of a memory operand. -/
def MemArg.offsets (g : Gpr) (m : MemArg) (n : Nat) : List Dword :=
  (List.range n).map (m.offset g)

/-! ### The segment in force -/

/-- The default segment: SS when BP takes part (R144) or when the base register is ESP or EBP (R145), else DS. -/
def MemArg.defaultSeg : MemArg → SegName
  | .a16 (.ind .bpsi _) | .a16 (.ind .bpdi _) | .a16 (.ind .bp _) => .ss
  | .a16 _ => .ds
  | .a32 (.ind .esp _) | .a32 (.ind .ebp _) => .ss
  | .a32 (.sib _ _ .esp _) | .a32 (.sib _ _ .ebp _) => .ss
  | .a32 _ => .ds

/-- The segment-override prefixes of an instruction, in order. -/
def overrides : List Pfx → List SegName
  | [] => []
  | .seg n :: ps => n :: overrides ps
  | _ :: ps => overrides ps

/-- The segment an override names, if there is one (R141, R171). Where different overrides stand together the source
does not say which counts: one of them, open (log entry 24). -/
def overrideSeg (pre : List Pfx) : Option SegName :=
  match overrides pre with
  | [] => none
  | n :: ns =>
    if ns.all (· = n) then some n
    else some ((n :: ns).getD (Config.segOverrideChoice (n :: ns) % (n :: ns).length) n)

/-- The segment a memory operand is accessed through (R171). -/
def MemArg.segment (pre : List Pfx) (m : MemArg) : SegName :=
  (overrideSeg pre).getD m.defaultSeg

end Sys2Proof

namespace Sys2Proof.Machine

/-- The segment register a memory operand is accessed through (R171). -/
def State.operandSeg (s : State) (pre : List Pfx) (m : MemArg) : SegReg :=
  s.base.seg.get (m.segment pre)

/-! ### Memory operands -/

/-- The cells a store of `n` bytes to a memory operand goes to. -/
def State.operandCells (s : State) (pre : List Pfx) (m : MemArg) (n : Nat) : Except Stop (List Loc) :=
  s.segWriteLocs (s.operandSeg pre m) (m.offsets s.base.gpr n)

/-- The `n` bytes of a memory operand. -/
def State.readOperand (s : State) (pre : List Pfx) (m : MemArg) (n : Nat) : Except Stop (List Byte) :=
  s.segRead (s.operandSeg pre m) (m.offsets s.base.gpr n)

/-- Bytes stored to a memory operand. -/
def State.writeOperand (s : State) (pre : List Pfx) (m : MemArg) (bs : List Byte) : Except Stop State :=
  match s.operandCells pre m bs.length with
  | .ok ls => .ok (s.writeLocs (ls.zip bs))
  | .error e => .error e

/-- SVDC, SVLDT, SVTS: a segment-type register stored to a mem80, then EIP advanced (R172, R174, R176). A register
operand has no meaning (R150 (d)). DESIGN CHOICE (log entry 55): where any of the ten bytes faults or is refused, nothing
is stored, the two only that the second `SegWrite` stores not excepted. -/
def State.saveSegReg (s : State) (pre : List Pfx) (rm : RmArg) (r : SegReg) (len : Nat) : Except Stop State :=
  match rm with
  | .reg _ => .error (.refuse .undefinedEncoding)
  | .mem m =>
    match s.writeOperand pre m r.toBytes with
    | .ok t => .ok (t.advance len)
    | .error e => .error e

/-- RSDC, RSLDT, RSTS: a segment-type register loaded from a mem80 exactly as found (R173, R175, R177, R178), `put`
saying which register it is, then EIP advanced. DESIGN CHOICE (log entry 55): where any of the ten bytes faults or is
refused, no part of the register is loaded. -/
def State.restoreSegReg (s : State) (pre : List Pfx) (rm : RmArg) (put : BaseRegs → SegReg → BaseRegs) (len : Nat) :
    Except Stop State :=
  match rm with
  | .reg _ => .error (.refuse .undefinedEncoding)
  | .mem m =>
    match s.readOperand pre m 10 with
    | .ok bs => .ok (State.advance { s with base := put s.base (SegReg.ofBytes bs) } len)
    | .error e => .error e

/-- The common frame of the SMM instructions: the validity check first, when it fails the instruction does not exist
(R170, R190); then a prefix or a field without a meaning (R141, R150); then the effect. -/
def whenValid (s : State) (valid defined : Bool) (effect : Except Stop State) : Out :=
  if valid then
    if defined then finish s effect else .refused .undefinedEncoding
  else raiseInvalidOpcode s

end Sys2Proof.Machine
end

