-- ==== Sys2Proof/Machine/BaseDecode.lean ====
section
/-!
DEFINITION. The base instructions whose effect the spec states or whose ordinary meaning its examples rely on
(43_base_instructions_used.md, R220), and their decoding. Their encodings are PRESUMED (GK22, log entry 36); whatever is
not decoded here is left to the abstract `Base` as a whole.
-/
namespace Sys2Proof.Machine

/-- The two-operand operations of R230. -/
inductive AluOp where
  | or
  | adc
  | and
  | test
deriving DecidableEq, Repr

/-- The port of an I/O instruction: an immediate byte, or DX (R273). -/
inductive PortArg where
  | imm (p : Byte)
  | dx
deriving DecidableEq, Repr

/-- IDTR or GDTR (R26, R232). -/
inductive TableName where
  | gdt
  | idt
deriving DecidableEq, Repr

/-- The debug registers (R30). -/
inductive DrName where
  | dr0 | dr1 | dr2 | dr3 | dr6 | dr7
deriving DecidableEq, Repr

/-- Where an instruction other than MOV and the far jumps, calls and returns finds the selector it loads (R235): POP to a
segment register; LDS, LES, LSS, LFS, LGS; LLDT and LTR. -/
inductive SelectorSource where
  | stack (w : Width)
  | far (w : Width) (m : MemArg) (pre : List Pfx)
  | table (rm : RmArg) (pre : List Pfx)
deriving DecidableEq, Repr

/-- The base instructions this model writes down. `a32` and `w` are the address and operand size in force. -/
inductive BaseInstr where
  /-- IN (R227). -/
  | inPort (w : Width) (p : PortArg)
  /-- OUT (R227). -/
  | outPort (w : Width) (p : PortArg)
  /-- INS, REP INS (R227). -/
  | insString (w : Width) (rep a32 : Bool)
  /-- OUTS, REP OUTS (R227). -/
  | outsString (w : Width) (rep a32 : Bool) (pre : List Pfx)
  /-- MOVS, REP MOVS (R231). -/
  | movsString (w : Width) (rep a32 : Bool) (pre : List Pfx)
  /-- HLT (R228). -/
  | hlt
  /-- WBINVD, INVD (R229). -/
  | cacheFlush
  /-- CUID (R237). -/
  | cuid
  /-- INT 3 (R236). -/
  | int3
  /-- MOV register or memory to register (R230). -/
  | load (w : Width) (reg : BitVec 3) (rm : RmArg) (pre : List Pfx)
  /-- MOV register to register or memory (R230). -/
  | store (w : Width) (reg : BitVec 3) (rm : RmArg) (pre : List Pfx)
  /-- MOV immediate to register (R230). -/
  | loadImm (w : Width) (reg : BitVec 3) (imm : Dword)
  /-- MOV to a segment register (R230, R24). -/
  | loadSeg (sreg : BitVec 3) (rm : RmArg) (pre : List Pfx)
  /-- The other loads of a selector register, written down where no GDT is set up (R235, R293). -/
  | loadSelector (src : SelectorSource)
  /-- OR, ADC, AND, TEST with an immediate (R230). -/
  | alu (op : AluOp) (w : Width) (rm : RmArg) (imm : Dword) (pre : List Pfx)
  /-- BT with an immediate bit number (R230). -/
  | bitTest (w : Width) (rm : RmArg) (n : Byte) (pre : List Pfx)
  /-- DEC (R230). -/
  | dec (w : Width) (rm : RmArg) (pre : List Pfx)
  /-- JMP short and near, the distance sign-extended (R127, R235, R239). -/
  | jmp (w : Width) (d : Dword)
  /-- JE (`zero`) and JNZ, short (R230). -/
  | jcc (zero : Bool) (w : Width) (d : Dword)
  /-- JMP near, the offset in a register or in memory (R239). -/
  | jmpRm (w : Width) (rm : RmArg) (pre : List Pfx)
  /-- CALL near, relative (R239). -/
  | callNear (w : Width) (d : Dword)
  /-- CALL near, the offset in a register or in memory (R239). -/
  | callRm (w : Width) (rm : RmArg) (pre : List Pfx)
  /-- RET near, `extra` bytes more taken off the stack (R239). -/
  | retNear (w : Width) (extra : Word16)
  /-- JMP far, direct (R235, R239). -/
  | jmpFar (w : Width) (sel : Word16) (off : Dword)
  /-- JMP far through memory (R235, R239). -/
  | jmpFarMem (w : Width) (m : MemArg) (pre : List Pfx)
  /-- CALL far, direct (R239). -/
  | callFar (w : Width) (sel : Word16) (off : Dword)
  /-- CALL far through memory (R239). -/
  | callFarMem (w : Width) (m : MemArg) (pre : List Pfx)
  /-- RET far, `extra` bytes more taken off the stack (R239). -/
  | retFar (w : Width) (extra : Word16)
  /-- IRET (R238, R239). -/
  | iret (w : Width)
  /-- MOV from a debug register (R30, R303). -/
  | readDr (n : DrName) (r : GReg)
  /-- MOV to a debug register (R30, R303). -/
  | writeDr (n : DrName) (r : GReg)
  /-- FNINIT (R234). -/
  | fnInit
  /-- FNSAVE; FSAVE is WAIT and FNSAVE (R234). -/
  | fnSave (w : Width) (m : MemArg) (pre : List Pfx)
  /-- FRSTOR (R234). -/
  | frStor (w : Width) (m : MemArg) (pre : List Pfx)
  /-- WAIT, the waiting part of FSAVE (R234). -/
  | wait
  /-- MOV from CR0 (R235). -/
  | readCr0 (r : GReg)
  /-- MOV to CR0 (R235). -/
  | writeCr0 (r : GReg)
  /-- SGDT, SIDT (R232); `full` with 32-bit operand size. -/
  | storeTable (t : TableName) (full : Bool) (m : MemArg) (pre : List Pfx)
  /-- LGDT, LIDT (R232). -/
  | loadTable (t : TableName) (full : Bool) (m : MemArg) (pre : List Pfx)
  /-- SLDT, STR (R233). -/
  | storeSelector
deriving DecidableEq, Repr

/-! ### Decoding -/

/-- R146: a `66h` prefix selects the other operand size. -/
def opSize (d32 : Bool) (pre : List Pfx) : Width :=
  if (if pre.contains .opSize then !d32 else d32) then .dword else .word

/-- An immediate of the operand size. -/
def takeImm (w : Width) (bs : List Byte) : Option (Dword × List Byte) :=
  match w, bs with
  | .byte, a :: r => some (a.setWidth 32, r)
  | .word, a :: b :: r => some ((b ++ a).setWidth 32, r)
  | .dword, a :: b :: c :: d :: r => some (d ++ c ++ b ++ a, r)
  | _, _ => none

/-- A byte immediate, sign-extended. -/
def takeSigned : List Byte → Option (Dword × List Byte)
  | a :: r => some (a.signExtend 32, r)
  | [] => none

/-- A mod r/m byte and what it calls for. -/
def takeModRm (a32 : Bool) (bs : List Byte) : Option (BitVec 3 × RmArg × List Byte) :=
  match decodeModRm a32 bs with
  | .ok x => some x
  | .error _ => none

/-- An operation of the immediate group by its reg field. -/
def AluOp.ofReg (reg : BitVec 3) : Option AluOp :=
  match reg.toNat with
  | 1 => some .or
  | 2 => some .adc
  | 4 => some .and
  | _ => none

/-- What a decoder of base instructions answers: the instruction and the bytes after it. -/
abbrev BaseRead := Option (BaseInstr × List Byte)

/-- The accumulator with an immediate. -/
def readAcc (op : AluOp) (w : Width) (pre : List Pfx) (bs : List Byte) : BaseRead :=
  (takeImm w bs).map fun x => (.alu op w (.reg .eax) x.1 pre, x.2)

/-- The immediate group: operand, then immediate. -/
def readGroup (w : Width) (signed a32 : Bool) (pre : List Pfx) (bs : List Byte) : BaseRead :=
  match takeModRm a32 bs with
  | none => none
  | some (reg, rm, r) =>
    match AluOp.ofReg reg, (if signed then takeSigned r else takeImm w r) with
    | some op, some (imm, r) => some (.alu op w rm imm pre, r)
    | _, _ => none

/-- The offset of a direct MOV between the accumulator and memory. -/
def readMoffs (a32 : Bool) (bs : List Byte) : Option (RmArg × List Byte) :=
  if a32 then (takeImm .dword bs).map fun x => (.mem (.a32 (.abs x.1)), x.2)
  else (takeImm .word bs).map fun x => (.mem (.a16 (.abs (x.1.setWidth 16))), x.2)

/-- A far pointer: the offset, then the selector. -/
def takeFar (w : Width) (bs : List Byte) : Option (Word16 × Dword × List Byte) :=
  match takeImm w bs with
  | none => none
  | some (off, r) => (takeImm .word r).map fun x => (x.1.setWidth 16, off, x.2)

/-- The debug register a reg field names; 4 and 5 name none (R30). -/
def DrName.ofNum (n : BitVec 3) : Option DrName :=
  match n.toNat with
  | 0 => some .dr0
  | 1 => some .dr1
  | 2 => some .dr2
  | 3 => some .dr3
  | 6 => some .dr6
  | 7 => some .dr7
  | _ => none

/-- A MOV between a debug register and a general register. -/
def readDebug (make : DrName → GReg → BaseInstr) (a32 : Bool) (bs : List Byte) : BaseRead :=
  match takeModRm a32 bs with
  | some (reg, .reg r, t) => (DrName.ofNum reg).map fun n => (make n r, t)
  | _ => none

/-- The group of DEC and the indirect jumps and calls, by its reg field. -/
def readIndirect (w : Width) (a32 : Bool) (pre : List Pfx) (bs : List Byte) : BaseRead :=
  match takeModRm a32 bs with
  | none => none
  | some (reg, rm, r) =>
    match reg.toNat, rm with
    | 1, rm => some (.dec w rm pre, r)
    | 2, rm => some (.callRm w rm pre, r)
    | 3, .mem m => some (.callFarMem w m pre, r)
    | 4, rm => some (.jmpRm w rm pre, r)
    | 5, .mem m => some (.jmpFarMem w m pre, r)
    | _, _ => none

/-- The FPU's state instructions of the opcode `DDh`, by the reg field (R234). -/
def readFpuState (w : Width) (a32 : Bool) (pre : List Pfx) (bs : List Byte) : BaseRead :=
  match takeModRm a32 bs with
  | some (reg, .mem m, r) =>
    if reg = 6 then some (.fnSave w m pre, r) else if reg = 4 then some (.frStor w m pre, r) else none
  | _ => none

/-- FNINIT, the one instruction of the opcode `DBh` written down (R234). -/
def readFnInit : List Byte → BaseRead
  | b :: r => if b = 0xE3 then some (.fnInit, r) else none
  | [] => none

/-- LDS, LES, LSS, LFS or LGS, which need a memory operand. -/
def readFarSelector (w : Width) (a32 : Bool) (pre : List Pfx) (bs : List Byte) : BaseRead :=
  match takeModRm a32 bs with
  | some (_, .mem m, r) => some (.loadSelector (.far w m pre), r)
  | _ => none

/-- SLDT, STR, LLDT and LTR, by the reg field. -/
def readSystemSelector (a32 : Bool) (pre : List Pfx) (bs : List Byte) : BaseRead :=
  match takeModRm a32 bs with
  | some (reg, rm, r) =>
    if reg = 0 || reg = 1 then some (.storeSelector, r)
    else if reg = 2 || reg = 3 then some (.loadSelector (.table rm pre), r)
    else none
  | none => none

/-- The two-byte opcodes. -/
def decodeBase0F (d32 : Bool) (pre : List Pfx) : List Byte → BaseRead
  | [] => none
  | op :: bs =>
    let a32 := addrSize32 d32 pre
    let w := opSize d32 pre
    match op.toNat with
    | 0x00 => readSystemSelector a32 pre bs
    | 0x01 =>
      match takeModRm a32 bs with
      | some (reg, .mem m, r) =>
        match reg.toNat with
        | 0 => some (.storeTable .gdt (w = .dword) m pre, r)
        | 1 => some (.storeTable .idt (w = .dword) m pre, r)
        | 2 => some (.loadTable .gdt (w = .dword) m pre, r)
        | 3 => some (.loadTable .idt (w = .dword) m pre, r)
        | _ => none
      | _ => none
    | 0x08 => some (.cacheFlush, bs)
    | 0x09 => some (.cacheFlush, bs)
    | 0x20 =>
      match takeModRm a32 bs with
      | some (reg, .reg r, t) => if reg = 0 then some (.readCr0 r, t) else none
      | _ => none
    | 0x21 => readDebug .readDr a32 bs
    | 0x23 => readDebug .writeDr a32 bs
    | 0x22 =>
      match takeModRm a32 bs with
      | some (reg, .reg r, t) => if reg = 0 then some (.writeCr0 r, t) else none
      | _ => none
    | 0xA1 => some (.loadSelector (.stack w), bs)
    | 0xA2 => some (.cuid, bs)
    | 0xA9 => some (.loadSelector (.stack w), bs)
    | 0xB2 => readFarSelector w a32 pre bs
    | 0xB4 => readFarSelector w a32 pre bs
    | 0xB5 => readFarSelector w a32 pre bs
    | 0xBA =>
      match takeModRm a32 bs with
      | some (reg, rm, n :: r) => if reg = 4 then some (.bitTest w rm n pre, r) else none
      | _ => none
    | _ => none

/-- The one-byte opcodes. -/
def decodeBaseOp (d32 : Bool) (pre : List Pfx) : List Byte → BaseRead
  | [] => none
  | op :: bs =>
    let a32 := addrSize32 d32 pre
    let w := opSize d32 pre
    match op.toNat with
    | 0x0F => decodeBase0F d32 pre bs
    | 0x07 => some (.loadSelector (.stack w), bs)
    | 0x17 => some (.loadSelector (.stack w), bs)
    | 0x1F => some (.loadSelector (.stack w), bs)
    | 0x0C => readAcc .or .byte pre bs
    | 0x0D => readAcc .or w pre bs
    | 0x24 => readAcc .and .byte pre bs
    | 0x25 => readAcc .and w pre bs
    | 0xA8 => readAcc .test .byte pre bs
    | 0xA9 => readAcc .test w pre bs
    | 0x74 => (takeSigned bs).map fun x => (.jcc true w x.1, x.2)
    | 0x75 => (takeSigned bs).map fun x => (.jcc false w x.1, x.2)
    | 0x9A => (takeFar w bs).map fun x => (.callFar w x.1 x.2.1, x.2.2)
    | 0x9B => some (.wait, bs)
    | 0xC2 => (takeImm .word bs).map fun x => (.retNear w (x.1.setWidth 16), x.2)
    | 0xC3 => some (.retNear w 0, bs)
    | 0xC4 => readFarSelector w a32 pre bs
    | 0xC5 => readFarSelector w a32 pre bs
    | 0xCA => (takeImm .word bs).map fun x => (.retFar w (x.1.setWidth 16), x.2)
    | 0xCB => some (.retFar w 0, bs)
    | 0xCF => some (.iret w, bs)
    | 0xDB => readFnInit bs
    | 0xDD => readFpuState w a32 pre bs
    | 0xE8 => (takeImm w bs).map fun x => (.callNear w x.1, x.2)
    | 0xE9 => (takeImm w bs).map fun x => (.jmp w x.1, x.2)
    | 0xEA => (takeFar w bs).map fun x => (.jmpFar w x.1 x.2.1, x.2.2)
    | 0xEB => (takeSigned bs).map fun x => (.jmp w x.1, x.2)
    | 0x80 => readGroup .byte false a32 pre bs
    | 0x81 => readGroup w false a32 pre bs
    | 0x83 => readGroup w true a32 pre bs
    | 0x88 => (takeModRm a32 bs).map fun x => (.store .byte x.1 x.2.1 pre, x.2.2)
    | 0x89 => (takeModRm a32 bs).map fun x => (.store w x.1 x.2.1 pre, x.2.2)
    | 0x8A => (takeModRm a32 bs).map fun x => (.load .byte x.1 x.2.1 pre, x.2.2)
    | 0x8B => (takeModRm a32 bs).map fun x => (.load w x.1 x.2.1 pre, x.2.2)
    | 0x8E => (takeModRm a32 bs).map fun x => (.loadSeg x.1 x.2.1 pre, x.2.2)
    | 0xA0 => (readMoffs a32 bs).map fun x => (.load .byte 0 x.1 pre, x.2)
    | 0xA1 => (readMoffs a32 bs).map fun x => (.load w 0 x.1 pre, x.2)
    | 0xA2 => (readMoffs a32 bs).map fun x => (.store .byte 0 x.1 pre, x.2)
    | 0xA3 => (readMoffs a32 bs).map fun x => (.store w 0 x.1 pre, x.2)
    | 0xCC => some (.int3, bs)
    | 0xE4 => (takeImm .byte bs).map fun x => (.inPort .byte (.imm (x.1.setWidth 8)), x.2)
    | 0xE5 => (takeImm .byte bs).map fun x => (.inPort w (.imm (x.1.setWidth 8)), x.2)
    | 0xE6 => (takeImm .byte bs).map fun x => (.outPort .byte (.imm (x.1.setWidth 8)), x.2)
    | 0xE7 => (takeImm .byte bs).map fun x => (.outPort w (.imm (x.1.setWidth 8)), x.2)
    | 0xEC => some (.inPort .byte .dx, bs)
    | 0xED => some (.inPort w .dx, bs)
    | 0xEE => some (.outPort .byte .dx, bs)
    | 0xEF => some (.outPort w .dx, bs)
    | 0xF4 => some (.hlt, bs)
    | 0xFE =>
      match takeModRm a32 bs with
      | some (reg, rm, r) => if reg = 1 then some (.dec .byte rm pre, r) else none
      | none => none
    | 0xFF => readIndirect w a32 pre bs
    | n =>
      if 0xB0 ≤ n && n ≤ 0xB7 then
        (takeImm .byte bs).map fun x => (.loadImm .byte (op.extractLsb' 0 3) x.1, x.2)
      else if 0xB8 ≤ n && n ≤ 0xBF then
        (takeImm w bs).map fun x => (.loadImm w (op.extractLsb' 0 3) x.1, x.2)
      else none

/-- The string instructions, the only ones a REP prefix is written down for (R141, R227, R231). -/
def decodeString (d32 : Bool) (pre : List Pfx) : List Byte → BaseRead
  | [] => none
  | op :: bs =>
    let a32 := addrSize32 d32 pre
    let w := opSize d32 pre
    let rep := pre.contains .rep
    match op.toNat with
    | 0x6C => some (.insString .byte rep a32, bs)
    | 0x6D => some (.insString w rep a32, bs)
    | 0x6E => some (.outsString .byte rep a32 pre, bs)
    | 0x6F => some (.outsString w rep a32 pre, bs)
    | 0xA4 => some (.movsString .byte rep a32 pre, bs)
    | 0xA5 => some (.movsString w rep a32 pre, bs)
    | _ => none

/-- The base instruction a byte string begins with and its length; none where it is left to `Base` as a whole. -/
def decodeBase (d32 : Bool) (bs : List Byte) : Option (BaseInstr × Nat) :=
  let pre := (scanPrefixes bs).1
  let rest := (scanPrefixes bs).2
  if pre.contains .lock || pre.contains .repne then none
  else
    match decodeString d32 pre rest with
    | some (i, r) => some (i, bs.length - r.length)
    | none =>
      if pre.contains .rep then none
      else
        match decodeBaseOp d32 pre rest with
        | some (i, r) => some (i, bs.length - r.length)
        | none => none

end Sys2Proof.Machine
end

