-- ==== Sys2Proof/Machine/BaseOutcomes.lean ====
section
/-!
DEFINITION. What the base instructions share: registers by operand size (R21), mod r/m operands, outcomes of the base
core, jumps.
-/
namespace Sys2Proof.Machine

/-! ### Registers by operand size (R21) -/

/-- The part of a general register an operand number names (R21; log entry 36). -/
def Gpr.part (g : Gpr) (w : Width) (n : BitVec 3) : Dword :=
  match w with
  | .byte =>
    if n.toNat < 4 then g.get (.ofNum n) &&& 0xFF else (g.get (.ofNum (n - 4)) >>> 8) &&& 0xFF
  | .word => g.get (.ofNum n) &&& 0xFFFF
  | .dword => g.get (.ofNum n)

/-- The part of a general register an operand number names, written; the rest of the register stays (R21). -/
def Gpr.setPart (g : Gpr) (w : Width) (n : BitVec 3) (v : Dword) : Gpr :=
  match w with
  | .byte =>
    if n.toNat < 4 then g.set (.ofNum n) ((g.get (.ofNum n) &&& 0xFFFFFF00) ||| (v &&& 0xFF))
    else g.set (.ofNum (n - 4)) ((g.get (.ofNum (n - 4)) &&& 0xFFFF00FF) ||| ((v &&& 0xFF) <<< 8))
  | .word => g.set (.ofNum n) ((g.get (.ofNum n) &&& 0xFFFF0000) ||| (v &&& 0xFFFF))
  | .dword => g.set (.ofNum n) v

/-- The count or index register's value at an address size. -/
def Gpr.sized (g : Gpr) (a32 : Bool) (r : GReg) : Dword :=
  if a32 then g.get r else g.get r &&& 0xFFFF

/-- The count or index register written at an address size. -/
def Gpr.setSized (g : Gpr) (a32 : Bool) (r : GReg) (v : Dword) : Gpr :=
  if a32 then g.set r v else g.set r ((g.get r &&& 0xFFFF0000) ||| (v &&& 0xFFFF))

/-! ### Operands -/

/-- A mod r/m operand's value. -/
def State.readRm (s : State) (w : Width) (rm : RmArg) (pre : List Pfx) : Except Stop Dword :=
  match rm with
  | .reg r => .ok (s.base.gpr.part w r.num)
  | .mem m =>
    match s.readOperand pre m w.bytes with
    | .ok bs => .ok (BitVec.ofNat 32 (ofLE bs))
    | .error e => .error e

/-- A mod r/m operand written: the general registers and the memory write it makes. -/
def State.writeRm (s : State) (w : Width) (rm : RmArg) (pre : List Pfx) (v : Dword) :
    Except Stop (Gpr × List (List (Dword × Byte))) :=
  match rm with
  | .reg r => .ok (s.base.gpr.setPart w r.num v, [])
  | .mem m =>
    match s.segAddrs (s.operandSeg pre m) .write (m.offsets s.base.gpr w.bytes) with
    | .ok pas => .ok (s.base.gpr, [pas.zip (toLE w.bytes v.toNat)])
    | .error e => .error e

/-! ### Outcomes -/

/-- The base registers after an instruction of `len` bytes that changes nothing else. DESIGN CHOICE (log entry 54): EIP
counts modulo 2^32 in 16-bit code too (R22, N1). -/
def BaseRegs.past (b : BaseRegs) (len : Nat) : BaseRegs :=
  { b with eip := b.eip + BitVec.ofNat 32 len }

/-- An outcome that changes registers only. -/
def regsOnly (b : BaseRegs) : BaseOutcome := ⟨b, [], [], false⟩

/-- An outcome that changes registers and stores to memory; the instruction's reads were routed as it made them. -/
def storing (b : BaseRegs) (ws : List (List (Dword × Byte))) : BaseOutcome := ⟨b, [], ws, false⟩

/-- A jump to an offset of CS taken: 16-bit operand size cuts EIP to 16 bits. DESIGN CHOICE (log entry 51): the offset is
not checked against CS's limit here, so a jump, call or return beyond it completes and the fetch of the target faults.
DESIGN CHOICE (log entry 26): CALL, RET, IRET and every other form built on this empty the prefetch queue as the jump of
R75 and R127 does. -/
def jumping (b : BaseRegs) (w : Width) (target : Dword) (ws : List (List (Dword × Byte))) : BaseOutcome :=
  ⟨{ b with eip := w.trunc target }, [], ws, true⟩

/-- A relative jump taken: the distance counts from the next instruction. -/
def jumpTo (b : BaseRegs) (w : Width) (len : Nat) (d : Dword) : BaseOutcome :=
  jumping b w (b.eip + BitVec.ofNat 32 len + d) []

/-- No GDT is set up (R235, R293). DESIGN CHOICE (log entry 56): so it is where GDTR's limit holds no descriptor, and
elsewhere it is open. -/
def State.noGdt (s : State) : Bool :=
  s.base.gdtr.limit.toNat < 7 || !Config.gdtSetUp s.baseView

/-- The core shut down by an instruction (R293). DESIGN CHOICE (log entry 56): EIP and every other register stay. -/
def BaseRegs.shutDown (b : BaseRegs) : BaseRegs := { b with activity := .shutdown }

/-- An instruction that loads a selector register: `o` in real mode; in protected mode with no GDT it shuts the CPU down
once its operands are read (R235, R293; log entry 56); with a GDT, and in V86 mode, it is `Base`'s. -/
def State.selectorLoad (s : State) (o : Except Stop BaseOutcome) : Except Stop BaseOutcome :=
  if s.base.realMode then o
  else if s.base.protectedMode && s.noGdt then o.map fun _ => regsOnly s.base.shutDown
  else .error .leftToBase

/-- An instruction that `Base` reserves to CPL 0; what it does elsewhere is `Base`'s. -/
def BaseRegs.atCpl0 (b : BaseRegs) (o : Except Stop BaseOutcome) : Except Stop BaseOutcome :=
  if b.cpl = 0 then o else .error .leftToBase

end Sys2Proof.Machine
end

