-- ==== Sys2Proof/Machine/Calls.lean ====
section
/-!
DEFINITION. Calls, jumps and returns of the base core (R238, R239): near forms in every mode; far forms and IRET in real
mode, where CS is pushed as its selector and loaded as 16 times it. In the other modes a far form is `Base`'s, but that in
protected mode with no GDT it shuts the CPU down (R235). What R239 does not state is PRESUMED (log entry 50).
-/
namespace Sys2Proof.Machine

/-! ### The stack -/

/-- The stack offset `k` bytes above the stack pointer: 16 bits wide unless SS has its B bit set. -/
def stackAbove (b : BaseRegs) (k : Nat) : Dword :=
  if b.seg.ss.big then b.gpr.esp + BitVec.ofNat 32 k
  else ((b.gpr.esp + BitVec.ofNat 32 k).setWidth 16).setWidth 32

/-- The registers after `k` bytes are taken off the stack. -/
def BaseRegs.popped (b : BaseRegs) (k : Nat) : BaseRegs :=
  let sp :=
    if b.seg.ss.big then b.gpr.esp + BitVec.ofNat 32 k
    else b.gpr.esp.extractLsb' 16 16 ++ (b.gpr.esp + BitVec.ofNat 32 k).setWidth 16
  { b with gpr := b.gpr.set .esp sp }

/-- The registers after `k` bytes are put on the stack. -/
def BaseRegs.pushed (b : BaseRegs) (k : Nat) : BaseRegs :=
  { b with gpr := b.gpr.set .esp (stackPointer b k) }

/-- The access that stores the `n` low bytes of a value from `k` bytes below the stack pointer on. -/
def State.pushAccess (s : State) (k n v : Nat) : Except Stop (List (Dword × Byte)) :=
  match s.segAddrs s.base.seg.ss .write ((List.range n).map fun i => stackOffset s.base (k - i)) with
  | .ok pas => .ok (pas.zip (toLE n v))
  | .error e => .error e

/-- The `n` bytes from `k` bytes above the stack pointer on, as a number. -/
def State.popValue (s : State) (k n : Nat) : Except Stop Dword :=
  match s.segRead s.base.seg.ss ((List.range n).map fun i => stackAbove s.base (k + i)) with
  | .ok bs => .ok (BitVec.ofNat 32 (ofLE bs))
  | .error e => .error e

/-! ### Near forms: CS stays (R239) -/

/-- CALL near: the offset of the next instruction is pushed. -/
def State.callNearEffect (s : State) (w : Width) (target : Dword) (len : Nat) : Except Stop BaseOutcome :=
  match s.pushAccess w.bytes w.bytes (s.base.past len).eip.toNat with
  | .ok a => .ok (jumping (s.base.pushed w.bytes) w target [a])
  | .error e => .error e

/-- CALL near through a register or memory. -/
def State.callRmEffect (s : State) (w : Width) (rm : RmArg) (pre : List Pfx) (len : Nat) : Except Stop BaseOutcome :=
  match s.readRm w rm pre with
  | .ok target => s.callNearEffect w target len
  | .error e => .error e

/-- JMP near through a register or memory. -/
def State.jmpRmEffect (s : State) (w : Width) (rm : RmArg) (pre : List Pfx) : Except Stop BaseOutcome :=
  match s.readRm w rm pre with
  | .ok target => .ok (jumping s.base w target [])
  | .error e => .error e

/-- RET near. -/
def State.retNearEffect (s : State) (w : Width) (extra : Word16) : Except Stop BaseOutcome :=
  match s.popValue 0 w.bytes with
  | .ok target => .ok (jumping (s.base.popped (w.bytes + extra.toNat)) w target [])
  | .error e => .error e

/-! ### Far forms: a selector load of CS (R239, R235) -/

/-- CS loaded in real mode: the selector, and 16 times it as the base (R239). -/
def BaseRegs.loadCs (b : BaseRegs) (sel : Word16) : BaseRegs :=
  { b with seg := b.seg.set .cs (b.seg.cs.loadReal sel) }

/-- CS as a far CALL pushes it: the selector; with 32-bit operand size the two bytes above it are open. -/
def pushedCs (w : Width) (sel : Word16) : Nat :=
  match w with
  | .dword => (Config.farCallUpper sel ++ sel).toNat
  | .byte | .word => sel.toNat

/-- A far pointer in memory: offset, then selector. -/
def State.readFar (s : State) (w : Width) (m : MemArg) (pre : List Pfx) : Except Stop (Word16 × Dword) :=
  match s.readOperand pre m (w.bytes + 2) with
  | .ok bs => .ok (BitVec.ofNat 16 (ofLE (bs.drop w.bytes)), BitVec.ofNat 32 (ofLE (bs.take w.bytes)))
  | .error e => .error e

/-- JMP far. -/
def State.jmpFarEffect (s : State) (w : Width) (sel : Word16) (off : Dword) : Except Stop BaseOutcome :=
  s.selectorLoad (.ok (jumping (s.base.loadCs sel) w off []))

/-- JMP far through memory. -/
def State.jmpFarMemEffect (s : State) (w : Width) (m : MemArg) (pre : List Pfx) : Except Stop BaseOutcome :=
  s.selectorLoad
    (match s.readFar w m pre with
      | .ok (sel, off) => s.jmpFarEffect w sel off
      | .error e => .error e)

/-- CALL far: CS, then the offset of the next instruction pushed. -/
def State.callFarEffect (s : State) (w : Width) (sel : Word16) (off : Dword) (len : Nat) : Except Stop BaseOutcome :=
  s.selectorLoad
    (match s.pushAccess w.bytes w.bytes (pushedCs w s.base.seg.cs.sel),
        s.pushAccess (2 * w.bytes) w.bytes (s.base.past len).eip.toNat with
      | .ok cs, .ok ip => .ok (jumping ((s.base.pushed (2 * w.bytes)).loadCs sel) w off [cs, ip])
      | .error e, _ => .error e
      | .ok _, .error e => .error e)

/-- CALL far through memory. -/
def State.callFarMemEffect (s : State) (w : Width) (m : MemArg) (pre : List Pfx) (len : Nat) : Except Stop BaseOutcome :=
  s.selectorLoad
    (match s.readFar w m pre with
      | .ok (sel, off) => s.callFarEffect w sel off len
      | .error e => .error e)

/-- RET far: the return reloads the base as 16 times the selector popped (R239). -/
def State.retFarEffect (s : State) (w : Width) (extra : Word16) : Except Stop BaseOutcome :=
  s.selectorLoad
    (match s.popValue 0 w.bytes, s.popValue w.bytes w.bytes with
      | .ok off, .ok sel =>
        .ok (jumping ((s.base.popped (2 * w.bytes + extra.toNat)).loadCs (sel.setWidth 16)) w off [])
      | .error e, _ => .error e
      | .ok _, .error e => .error e)

/-- EFLAGS after IRET in real mode: a word replaces the lower half; a dword leaves VM and bits 19 and 20. -/
def flagsPopped (w : Width) (old v : Dword) : Dword :=
  match w with
  | .dword => (v &&& 0x00257FD5) ||| (old &&& 0x001A0000) ||| 2
  | .byte | .word => (old &&& 0xFFFF0000) ||| (v &&& 0x00007FD5) ||| 2

/-- IRET: offset, CS and flags popped; it does not leave SMM (R238). -/
def State.iretEffect (s : State) (w : Width) : Except Stop BaseOutcome :=
  s.selectorLoad
    (match s.popValue 0 w.bytes, s.popValue w.bytes w.bytes, s.popValue (2 * w.bytes) w.bytes with
      | .ok off, .ok sel, .ok fl =>
        let b := (s.base.popped (3 * w.bytes)).loadCs (sel.setWidth 16)
        .ok (jumping { b with eflags := flagsPopped w b.eflags fl } w off [])
      | .error e, _, _ => .error e
      | .ok _, .error e, _ => .error e
      | .ok _, .ok _, .error e => .error e)

end Sys2Proof.Machine
end

