-- ==== Sys2Proof/Machine/ConfigPorts.lean ====
section
/-!
DEFINITION. The configuration registers behind I/O ports 22h and 23h (R221 to R226) and the I/O space off chip (R102).
-/
namespace Sys2Proof.Machine

/-! ### Registers by index (R103) -/

/-- R224: the indexes that MAPEN = 0h leaves accessible. -/
def lowIndex (idx : Byte) : Bool :=
  (0xC0 ≤ idx.toNat && idx.toNat ≤ 0xCF) || idx = 0xFE || idx = 0xFF

/-- `Accessible` (R224); MAPEN = 2h to Fh has no meaning (U3, log entry 39). -/
def accessible (c : CfgRegs) (idx : Byte) : Except Refusal Bool :=
  if c.mapen = 0 then .ok (lowIndex idx)
  else if c.mapen = 1 then .ok true
  else .error .undefinedMapen

/-- `CfgRead` (R223); an index the source does not define is refused (R69). -/
def cfgRead (c : CfgRegs) (idx : Byte) : Except Refusal Byte :=
  match idx.toNat with
  | 0xC0 => .ok c.ccr0
  | 0xC1 => .ok c.ccr1
  | 0xC2 => .ok c.ccr2
  | 0xC3 => .ok c.ccr3
  | 0xCD => .ok c.arrCD
  | 0xCE => .ok c.arrCE
  | 0xCF => .ok c.arrCF
  | 0xE8 => .ok c.ccr4
  | 0xE9 => .ok c.ccr5
  | 0xEA => .ok c.ccr6
  | _ => .error .undefinedConfigIndex

/-- `locked` of R222: SMI_LOCK is set and the CPU is not in SMM (R52). -/
def State.configLocked (s : State) : Bool := s.cfg.smiLock && !s.inSmm

/-- CCR1 after a write (R222): under the lock bits 7, 3, 2 and 1 are kept. -/
def ccr1Written (locked : Bool) (old v : Byte) : Byte :=
  if locked then (v &&& 0x71) ||| (old &&& 0x8E) else v

/-- CCR3 after a write (R222): under the lock NMI_EN is kept; SMI_LOCK can be set and never cleared. -/
def ccr3Written (locked : Bool) (old v : Byte) : Byte :=
  (if locked then setBit v 1 (old.getLsbD 1) else v) ||| (old &&& 0x01)

/-- A byte of ARR3 written (R222): under the lock nothing happens, otherwise SMHR's valid bit is cleared (R68). -/
def State.arr3Written (s : State) (c : CfgRegs) : State :=
  if s.configLocked then s else { s with cfg := c, smhr := smhrInvalidated s.smhr }

/-- `CfgWrite` (R222). -/
def State.cfgWrite (s : State) (idx v : Byte) : Except Refusal State :=
  match idx.toNat with
  | 0xC0 => .ok { s with cfg := { s.cfg with ccr0 := v } }
  | 0xC1 => .ok { s with cfg := { s.cfg with ccr1 := ccr1Written s.configLocked s.cfg.ccr1 v } }
  | 0xC2 => .ok { s with cfg := { s.cfg with ccr2 := v } }
  | 0xC3 => .ok { s with cfg := { s.cfg with ccr3 := ccr3Written s.configLocked s.cfg.ccr3 v } }
  | 0xCD => .ok (s.arr3Written { s.cfg with arrCD := v })
  | 0xCE => .ok (s.arr3Written { s.cfg with arrCE := v })
  | 0xCF => .ok (s.arr3Written { s.cfg with arrCF := v })
  | 0xE8 => .ok { s with cfg := { s.cfg with ccr4 := v } }
  | 0xE9 => .ok { s with cfg := { s.cfg with ccr5 := v } }
  | 0xEA =>
    if s.inSmm && v.getLsbD 0 != s.cfg.smmMode then .error .smmModeChangeInSmm
    else .ok { s with cfg := { s.cfg with ccr6 := v } }
  | _ => .error .undefinedConfigIndex

/-! ### The I/O space (R102) -/

/-- The port of the index. -/
def indexPort : Word16 := 0x22
/-- The port of the data. -/
def dataPort : Word16 := 0x23

/-- An access of more than one byte that touches port 22h or 23h (R221, decision D15). -/
def widePort (port : Word16) (w : Width) : Bool :=
  w != .byte && (port.toNat ≤ 0x23 && 0x22 < port.toNat + w.bytes)

/-- A write directed off chip: nothing this spec names changes (R102, R225, U11); the platform sees the cycle. -/
def State.offChipWrite (s : State) (port : Word16) (w : Width) (v : Dword) : State :=
  { s with ioTrace := ⟨true, port, w, w.trunc v⟩ :: s.ioTrace }

/-- A read directed off chip: a value that is not determined (R102, R225). -/
def State.offChipRead (s : State) (port : Word16) (w : Width) : Dword × State :=
  let v := w.trunc (s.drawn 0 32)
  (v, { s with ioTrace := ⟨false, port, w, v⟩ :: s.ioTrace, draws := s.draws + 1 })

/-- `cfg_index` emptied (R222 to R224). -/
def State.closeWindow (s : State) : State := { s with cfgIndex := none }

/-- A byte written to port 23h (R222, R224, R225). -/
def State.dataPortWrite (s : State) (v : Dword) : Except Refusal State :=
  match s.cfgIndex with
  | none => .ok (s.offChipWrite dataPort .byte v)
  | some idx =>
    match accessible s.cfg idx with
    | .error r => .error r
    | .ok false => .ok (s.closeWindow.offChipWrite dataPort .byte v)
    | .ok true =>
      match s.cfgWrite idx (v.setWidth 8) with
      | .ok t => .ok t.closeWindow
      | .error r => .error r

/-- A byte read from port 23h (R223, R224, R225). -/
def State.dataPortRead (s : State) : Except Refusal (Dword × State) :=
  match s.cfgIndex with
  | none => .ok (s.offChipRead dataPort .byte)
  | some idx =>
    match accessible s.cfg idx with
    | .error r => .error r
    | .ok false => .ok (s.closeWindow.offChipRead dataPort .byte)
    | .ok true =>
      match cfgRead s.cfg idx with
      | .ok b => .ok (b.setWidth 32, s.closeWindow)
      | .error r => .error r

/-- `IoWrite` (R12, R221, R222, R225). -/
def State.ioWrite (s : State) (port : Word16) (w : Width) (v : Dword) : Except Refusal State :=
  if widePort port w then .error .widePortAccess
  else if port = indexPort && w = .byte then .ok { s with cfgIndex := some (v.setWidth 8) }
  else if port = dataPort && w = .byte then s.dataPortWrite v
  else .ok (s.offChipWrite port w v)

/-- `IoRead` (R12, R223, R225); a read of port 22h goes off chip (R221). -/
def State.ioRead (s : State) (port : Word16) (w : Width) : Except Refusal (Dword × State) :=
  if widePort port w then .error .widePortAccess
  else if port = dataPort && w = .byte then s.dataPortRead
  else .ok (s.offChipRead port w)

end Sys2Proof.Machine
end

