-- ==== Sys2Proof/Machine/FpuState.lean ====
section
/-!
DEFINITION. Saving, restoring and initialising the FPU (R234): FNSAVE, FRSTOR, FNINIT, and WAIT, which with FNSAVE makes
FSAVE. The image's size, its reduced forms, where it says that an exception is pending, and what an initialised FPU holds
are open (log entry 49).
-/
namespace Sys2Proof.Machine

/-- The form of the image that an operand size gives in the mode of the moment (R234). -/
def BaseRegs.fpuForm (b : BaseRegs) (w : Width) : FpuForm :=
  ⟨b.protectedMode, w = .dword⟩

/-- The form that holds all of the FPU: "the 32-bit protected mode version" (R234). -/
def FpuForm.full (f : FpuForm) : Bool := f.protectedMode && f.wide

/-- The number of bytes of an image in this form. -/
def FpuForm.imageSize (f : FpuForm) : Nat := max 1 (Config.fpuImageSize f)

/-- The place in the full image of the bit that says whether an unmasked exception is pending: byte, then bit. -/
def FpuForm.pendingPlace (f : FpuForm) : Nat × Nat :=
  (Config.fpuPendingPlace % (8 * f.imageSize) / 8, Config.fpuPendingPlace % 8)

/-- Byte `i` of the full image: the pending exception, "part of" the FPU state (R31), at its place in it. -/
def Fpu.fullByte (f : Fpu) (form : FpuForm) (i : Nat) : Byte :=
  let b := f.image.getD i (Config.fpuByte i)
  if i = form.pendingPlace.1 then setBit b form.pendingPlace.2 f.pendingUnmasked else b

/-- The bytes that a save in this form stores: all of the FPU's state, or the reduced form of it (R234). -/
def Fpu.saved (f : Fpu) (form : FpuForm) : List Byte :=
  (List.range form.imageSize).map fun i =>
    if form.full then f.fullByte form i else Config.fpuReduced form f i

/-- The FPU after a restore from these bytes: all of it, a pending exception included, from the full form (R234). -/
def Fpu.restored (f : Fpu) (form : FpuForm) (bs : List Byte) : Fpu :=
  if form.full then ⟨bs, (bs.getD form.pendingPlace.1 0).getLsbD form.pendingPlace.2⟩
  else Config.fpuWidened form f bs

/-- An FPU instruction where CR0 lets the FPU be used: EM and TS clear; else it is `Base`'s. -/
def BaseRegs.withFpu (b : BaseRegs) (o : Except Stop BaseOutcome) : Except Stop BaseOutcome :=
  if b.cr0.getLsbD cr0Em || b.cr0.getLsbD cr0Ts then .error .leftToBase else o

/-- FNSAVE: the image stored, no pending exception waited for (R234); what the FPU then holds is open. -/
def State.fnSaveEffect (s : State) (w : Width) (m : MemArg) (pre : List Pfx) (len : Nat) : Except Stop BaseOutcome :=
  let bs := s.base.fpu.saved (s.base.fpuForm w)
  s.base.withFpu
    (match s.segAddrs (s.operandSeg pre m) .write (m.offsets s.base.gpr bs.length) with
      | .ok pas => .ok (storing { s.base.past len with fpu := Config.fpuAfterSave s.base.fpu } [pas.zip bs])
      | .error e => .error e)

/-- FRSTOR: the image loaded (R234), whatever exception was pending before ("the source also writes FNRSTOR"). -/
def State.frStorEffect (s : State) (w : Width) (m : MemArg) (pre : List Pfx) (len : Nat) : Except Stop BaseOutcome :=
  let form := s.base.fpuForm w
  s.base.withFpu
    (match s.readOperand pre m form.imageSize with
      | .ok bs => .ok (regsOnly { s.base.past len with fpu := s.base.fpu.restored form bs })
      | .error e => .error e)

/-- FNINIT: the FPU in "a valid state" (R234): an open image, no exception pending. -/
def State.fnInitEffect (s : State) (len : Nat) : Except Stop BaseOutcome :=
  s.base.withFpu (.ok (regsOnly { s.base.past len with fpu := ⟨Config.fpuInitImage, false⟩ }))

/-- WAIT: "If there is an unmasked FPU exception condition pending, the FSAVE instruction will wait until the exception
condition is serviced" (R234): the exception goes to `Base` (R294), the return address being WAIT's. -/
def State.waitEffect (s : State) (len : Nat) : Except Stop BaseOutcome :=
  s.base.withFpu (if s.base.fpu.pendingUnmasked then .error (.event .fpuException) else .ok (regsOnly (s.base.past len)))

end Sys2Proof.Machine
end

