-- ==== Sys2Proof/Machine/BaseExec.lean ====
section
/-!
DEFINITION. What the base instructions of Machine/BaseDecode.lean do (R227 to R239, R303), each as an outcome of the base core
or, for the I/O instructions, as a change of the whole state through the ports. Ordinary meanings that the source
relies on and does not state are PRESUMED (R230; log entry 36); a case the spec leaves to `Base` answers `leftToBase`.
-/
namespace Sys2Proof.Machine

/-- An operation's result and flags. -/
def AluOp.apply (op : AluOp) (w : Width) (f a b : Dword) : Dword × Dword :=
  match op with
  | .or => (a ||| b, logicFlags w f a b (a ||| b))
  | .and | .test => (a &&& b, logicFlags w f a b (a &&& b))
  | .adc =>
    let c := f.getLsbD flagCf
    let r := w.trunc (a + b + (if c then 1 else 0))
    (r, addFlags w f a b r c)

/-- An operation on a mod r/m operand with an immediate (R230); TEST stores no result. -/
def State.aluEffect (s : State) (op : AluOp) (w : Width) (rm : RmArg) (imm : Dword) (pre : List Pfx) (len : Nat) :
    Except Stop BaseOutcome :=
  match s.readRm w rm pre with
  | .error e => .error e
  | .ok a =>
    let r := op.apply w s.base.eflags a (w.trunc imm)
    if op = .test then .ok (regsOnly { s.base.past len with eflags := r.2 })
    else
      match s.writeRm w rm pre r.1 with
      | .ok (g, ws) => .ok (storing { s.base.past len with eflags := r.2, gpr := g } ws)
      | .error e => .error e

/-- DEC on a mod r/m operand (R230). -/
def State.decEffect (s : State) (w : Width) (rm : RmArg) (pre : List Pfx) (len : Nat) : Except Stop BaseOutcome :=
  match s.readRm w rm pre with
  | .error e => .error e
  | .ok a =>
    let r := w.trunc (a - 1)
    match s.writeRm w rm pre r with
    | .ok (g, ws) =>
      .ok (storing { s.base.past len with eflags := decFlags w s.base.eflags a r, gpr := g } ws)
    | .error e => .error e

/-- MOV to a segment register: in real mode as R24 says; in protected mode with no GDT it shuts the CPU down (R235, R293);
in another case, or naming CS or no register, it is `Base`'s. DESIGN CHOICE (log entry 47): a MOV to SS holds off no
interrupt at the boundary after it, although the base instruction has such a shadow (91_not_in_source.md N35 speaks of
it). -/
def State.loadSegEffect (s : State) (sreg : BitVec 3) (rm : RmArg) (pre : List Pfx) (len : Nat) :
    Except Stop BaseOutcome :=
  match sregDefined sreg, SegName.ofNum sreg with
  | true, some n =>
    s.selectorLoad
      (match s.readRm .word rm pre with
        | .ok v =>
          .ok (regsOnly { s.base.past len with seg := s.base.seg.set n ((s.base.seg.get n).loadReal (v.setWidth 16)) })
        | .error e => .error e)
  | _, _ => .error .leftToBase

/-- The selector that one of the other instructions loads; LLDT and LTR are `Base`'s outside CPL 0. -/
def State.readSelector (s : State) : SelectorSource → Except Stop Dword
  | .stack w => s.popValue 0 w.bytes
  | .far w m pre =>
    match s.readFar w m pre with
    | .ok x => .ok (x.1.setWidth 32)
    | .error e => .error e
  | .table rm pre => if s.base.cpl = 0 then s.readRm .word rm pre else .error .leftToBase

/-- POP to a segment register, LDS, LES, LSS, LFS, LGS, LLDT, LTR: in protected mode with no GDT they shut the CPU down
("any attempt to load a selector register", R235, R293); else they are `Base`'s as a whole. -/
def State.loadSelectorEffect (s : State) (src : SelectorSource) : Except Stop BaseOutcome :=
  if s.base.realMode then .error .leftToBase
  else s.selectorLoad ((s.readSelector src).map fun _ => regsOnly s.base)

/-- A descriptor table register by name. -/
def BaseRegs.table (b : BaseRegs) : TableName → TableReg
  | .gdt => b.gdtr
  | .idt => b.idtr

/-- A descriptor table register written. -/
def BaseRegs.setTable (b : BaseRegs) (t : TableName) (v : TableReg) : BaseRegs :=
  match t with
  | .gdt => { b with gdtr := v }
  | .idt => { b with idtr := v }

/-- SGDT and SIDT: limit, then base (R26, R232); without 32-bit operand size the top byte of the base is lost. -/
def State.storeTableEffect (s : State) (t : TableName) (full : Bool) (m : MemArg) (pre : List Pfx) (len : Nat) :
    Except Stop BaseOutcome :=
  let r := s.base.table t
  let top := if full then r.base.extractLsb' 24 8 else Config.lostTableByte r.base
  match s.segAddrs (s.operandSeg pre m) .write (m.offsets s.base.gpr 6) with
  | .ok pas =>
    .ok (storing (s.base.past len) [pas.zip (toLE 2 r.limit.toNat ++ toLE 3 r.base.toNat ++ [top])])
  | .error e => .error e

/-- LGDT and LIDT (R232). -/
def State.loadTableEffect (s : State) (t : TableName) (full : Bool) (m : MemArg) (pre : List Pfx) (len : Nat) :
    Except Stop BaseOutcome :=
  match s.readOperand pre m 6 with
  | .ok bs =>
    let base := BitVec.ofNat 32 (ofLE ((bs.drop 2).take (if full then 4 else 3)))
    .ok (regsOnly ((s.base.past len).setTable t ⟨BitVec.ofNat 16 (ofLE (bs.take 2)), base⟩))
  | .error e => .error e

/-! ### Debug registers (R30, R303) -/

/-- A debug register by name. -/
def BaseRegs.dr (b : BaseRegs) : DrName → Dword
  | .dr0 => b.dr0 | .dr1 => b.dr1 | .dr2 => b.dr2 | .dr3 => b.dr3 | .dr6 => b.dr6 | .dr7 => b.dr7

/-- A debug register written. DESIGN CHOICE (log entry 58): all 32 bits as they are, DR6's and DR7's reserved ones included,
the layouts not being in the source (R30, N1). -/
def BaseRegs.setDr (b : BaseRegs) (n : DrName) (v : Dword) : BaseRegs :=
  match n with
  | .dr0 => { b with dr0 := v }
  | .dr1 => { b with dr1 := v }
  | .dr2 => { b with dr2 := v }
  | .dr3 => { b with dr3 := v }
  | .dr6 => { b with dr6 := v }
  | .dr7 => { b with dr7 := v }

/-! ### String instructions -/

/-- The offsets of a string element at an address size. -/
def stringOffsets (a32 : Bool) (start : Dword) (n : Nat) : List Dword :=
  (List.range n).map fun i =>
    let off := start + BitVec.ofNat 32 i
    if a32 then off else off &&& 0xFFFF

/-- The step of an index register: down when the direction flag is set (log entry 35). -/
def stringStep (f : Dword) (w : Width) : Dword :=
  if f.getLsbD flagDf then -(BitVec.ofNat 32 w.bytes) else BitVec.ofNat 32 w.bytes

/-- A REP prefix with a count of zero: no iteration (decision D36). -/
def BaseRegs.repDone (b : BaseRegs) (rep a32 : Bool) : Bool :=
  rep && b.gpr.sized a32 .ecx = 0

/-- EIP after an iteration: a REP instruction stays where it is until its count is zero (R268, R271). -/
def BaseRegs.pastIteration (b : BaseRegs) (rep : Bool) (len : Nat) : BaseRegs :=
  if rep then b else b.past len

/-- The count register after an iteration. -/
def countDown (g : Gpr) (rep a32 : Bool) : Gpr :=
  if rep then g.setSized a32 .ecx (g.sized a32 .ecx - 1) else g

/-- An index register moved past one element. -/
def moveIndex (g : Gpr) (a32 : Bool) (r : GReg) (d : Dword) : Gpr :=
  g.setSized a32 r (g.sized a32 r + d)

/-- One iteration of MOVS (R231): DS:ESI, or the overriding segment, to ES:EDI. -/
def State.movsEffect (s : State) (w : Width) (rep a32 : Bool) (pre : List Pfx) (len : Nat) :
    Except Stop BaseOutcome :=
  let b := s.base
  if b.repDone rep a32 then .ok (regsOnly (b.past len))
  else
    let src := b.seg.get ((overrideSeg pre).getD .ds)
    match s.segRead src (stringOffsets a32 (b.gpr.sized a32 .esi) w.bytes),
        s.segAddrs b.seg.es .write (stringOffsets a32 (b.gpr.sized a32 .edi) w.bytes) with
    | .ok bs, .ok pas =>
      let d := stringStep b.eflags w
      let g := countDown (moveIndex (moveIndex b.gpr a32 .esi d) a32 .edi d) rep a32
      .ok (storing { b.pastIteration rep len with gpr := g } [pas.zip bs])
    | .error e, _ => .error e
    | .ok _, .error e => .error e

/-! ### The base instructions that stay within the base core -/

/-- MOV from a debug register: at CPL 0 with DR7's Global Disable bit clear (R30, R303); else it is `Base`'s. -/
def State.readDrEffect (s : State) (n : DrName) (r : GReg) (len : Nat) : Except Stop BaseOutcome :=
  if s.base.dr7.getLsbD dr7Gd then .error .leftToBase
  else s.base.atCpl0 (.ok (regsOnly { s.base.past len with gpr := s.base.gpr.set r (s.base.dr n) }))

/-- MOV to a debug register, under the same conditions (R30, R303). -/
def State.writeDrEffect (s : State) (n : DrName) (r : GReg) (len : Nat) : Except Stop BaseOutcome :=
  if s.base.dr7.getLsbD dr7Gd then .error .leftToBase
  else s.base.atCpl0 (.ok (regsOnly ((s.base.past len).setDr n (s.base.gpr.get r))))

/-- MOV to CR0 (R235), a locked NW kept by `guardRegs`. DESIGN CHOICE (log entry 52): every other bit is stored as written,
and no combination of bits raises an exception, PG = 1 with PE = 0 included. -/
def State.writeCr0Effect (s : State) (r : GReg) (len : Nat) : Except Stop BaseOutcome :=
  s.base.atCpl0 (.ok (regsOnly { s.base.past len with cr0 := s.base.gpr.get r }))

/-- What a base instruction other than the I/O instructions does (R228 to R237, R239, R303). -/
def State.baseEffect (s : State) (i : BaseInstr) (len : Nat) : Except Stop BaseOutcome :=
  let b := s.base
  let next := b.past len
  match i with
  | .hlt => b.atCpl0 (.ok (regsOnly { next with activity := .halted s.cfg.suspHalt }))
  | .cacheFlush => b.atCpl0 (.ok (regsOnly next))
  | .cuid => .error (if s.cfg.cuid then .leftToBase else .event .invalidOpcode)
  | .load w reg rm pre =>
    match s.readRm w rm pre with
    | .ok v => .ok (regsOnly { next with gpr := b.gpr.setPart w reg v })
    | .error e => .error e
  | .store w reg rm pre =>
    match s.writeRm w rm pre (b.gpr.part w reg) with
    | .ok (g, ws) => .ok (storing { next with gpr := g } ws)
    | .error e => .error e
  | .loadImm w reg imm => .ok (regsOnly { next with gpr := b.gpr.setPart w reg imm })
  | .loadSeg sreg rm pre => s.loadSegEffect sreg rm pre len
  | .loadSelector src => s.loadSelectorEffect src
  | .alu op w rm imm pre => s.aluEffect op w rm imm pre len
  | .bitTest w rm n pre =>
    match s.readRm w rm pre with
    | .ok a =>
      .ok (regsOnly { next with eflags := btFlags b.eflags a n (a.getLsbD (n.toNat % w.bits)) })
    | .error e => .error e
  | .dec w rm pre => s.decEffect w rm pre len
  | .jmp w d => .ok (jumpTo b w len d)
  | .jcc zero w d =>
    if b.eflags.getLsbD flagZf = zero then .ok (jumpTo b w len d) else .ok (regsOnly next)
  | .jmpRm w rm pre => s.jmpRmEffect w rm pre
  | .callNear w d => s.callNearEffect w (next.eip + d) len
  | .callRm w rm pre => s.callRmEffect w rm pre len
  | .retNear w extra => s.retNearEffect w extra
  | .jmpFar w sel off => s.jmpFarEffect w sel off
  | .jmpFarMem w m pre => s.jmpFarMemEffect w m pre
  | .callFar w sel off => s.callFarEffect w sel off len
  | .callFarMem w m pre => s.callFarMemEffect w m pre len
  | .retFar w extra => s.retFarEffect w extra
  | .iret w => s.iretEffect w
  | .readDr n r => s.readDrEffect n r len
  | .writeDr n r => s.writeDrEffect n r len
  | .fnInit => s.fnInitEffect len
  | .fnSave w m pre => s.fnSaveEffect w m pre len
  | .frStor w m pre => s.frStorEffect w m pre len
  | .wait => s.waitEffect len
  | .readCr0 r => b.atCpl0 (.ok (regsOnly { next with gpr := b.gpr.set r b.cr0 }))
  | .writeCr0 r => s.writeCr0Effect r len
  | .storeTable t full m pre => s.storeTableEffect t full m pre len
  | .loadTable t full m pre => b.atCpl0 (s.loadTableEffect t full m pre len)
  | .storeSelector => .error (if b.realMode then .event .notValidInRealMode else .leftToBase)
  | .movsString w rep a32 pre => s.movsEffect w rep a32 pre len
  | .inPort _ _ | .outPort _ _ | .insString _ _ _ | .outsString _ _ _ _ | .int3 => .error .leftToBase

/-! ### The I/O instructions (R227, R273) -/

/-- The port an I/O instruction names (R273). -/
def PortArg.value (g : Gpr) : PortArg → Word16
  | .imm p => p.setWidth 16
  | .dx => g.get16 .edx

/-- `Base` permits the access (R221, R261): always in real mode, else its own check. -/
def State.ioPermitted (s : State) (port : Word16) (w : Width) : Bool :=
  s.base.realMode || Config.baseIoAllowed s.baseView port w

/-- A port write, permission checked first. -/
def State.portOut (s : State) (port : Word16) (w : Width) (v : Dword) : Except Stop State :=
  if s.ioPermitted port w then
    match s.ioWrite port w v with
    | .ok t => .ok t
    | .error r => .error (.refuse r)
  else .error (.event .protectionError)

/-- A port read, permission checked first. -/
def State.portIn (s : State) (port : Word16) (w : Width) : Except Stop (Dword × State) :=
  if s.ioPermitted port w then
    match s.ioRead port w with
    | .ok x => .ok x
    | .error r => .error (.refuse r)
  else .error (.event .protectionError)

/-- IN (R227). -/
def State.execIn (s : State) (w : Width) (p : PortArg) (len : Nat) : Except Stop State :=
  let port := p.value s.base.gpr
  match s.portIn port w with
  | .ok (v, t) =>
    .ok { t with
      base := { s.base.past len with gpr := s.base.gpr.setPart w 0 v }
      lastIo := some ⟨s.base.eip, false, false, w, port, v, s.base.gpr.edi⟩ }
  | .error e => .error e

/-- OUT (R227). -/
def State.execOut (s : State) (w : Width) (p : PortArg) (len : Nat) : Except Stop State :=
  let port := p.value s.base.gpr
  let v := s.base.gpr.part w 0
  match s.portOut port w v with
  | .ok t =>
    .ok { t with
      base := s.base.past len
      lastIo := some ⟨s.base.eip, false, true, w, port, v, s.base.gpr.esi⟩ }
  | .error e => .error e

/-- One iteration of INS (R227): the destination is checked before the port is read. -/
def State.execIns (s : State) (w : Width) (rep a32 : Bool) (len : Nat) : Except Stop State :=
  let b := s.base
  let port := b.gpr.get16 .edx
  if b.repDone rep a32 then .ok (s.advance len)
  else
    match s.segWriteLocs b.seg.es (stringOffsets a32 (b.gpr.sized a32 .edi) w.bytes) with
    | .error e => .error e
    | .ok ls =>
      match s.portIn port w with
      | .ok (v, t) =>
        let g := countDown (moveIndex b.gpr a32 .edi (stringStep b.eflags w)) rep a32
        .ok { t.writeLocs (ls.zip (toLE w.bytes v.toNat)) with
          base := { b.pastIteration rep len with gpr := g }
          lastIo := some ⟨b.eip, rep, false, w, port, v, b.gpr.edi⟩ }
      | .error e => .error e

/-- One iteration of OUTS (R227): the source is read before the port is written. -/
def State.execOuts (s : State) (w : Width) (rep a32 : Bool) (pre : List Pfx) (len : Nat) : Except Stop State :=
  let b := s.base
  let port := b.gpr.get16 .edx
  if b.repDone rep a32 then .ok (s.advance len)
  else
    let src := b.seg.get ((overrideSeg pre).getD .ds)
    match s.segRead src (stringOffsets a32 (b.gpr.sized a32 .esi) w.bytes) with
    | .error e => .error e
    | .ok bs =>
      let v := BitVec.ofNat 32 (ofLE bs)
      match s.portOut port w v with
      | .ok t =>
        let g := countDown (moveIndex b.gpr a32 .esi (stringStep b.eflags w)) rep a32
        .ok { t with
          base := { b.pastIteration rep len with gpr := g }
          lastIo := some ⟨b.eip, rep, true, w, port, v, b.gpr.esi⟩ }
      | .error e => .error e

/-! ### The step of a base instruction -/

/-- An effect within the base core, applied to the state. -/
def State.baseStep (s : State) (o : Except Stop BaseOutcome) : Except Stop State :=
  match o with
  | .ok o => liftRefusal (s.applyBase o)
  | .error e => .error e

/-- A base instruction executed. INT 3 is a trap: its return address is that of the next instruction (R236). -/
def State.execBase (s : State) (i : BaseInstr) (len : Nat) : Out :=
  match i with
  | .inPort w p => finish s (s.execIn w p len)
  | .outPort w p => finish s (s.execOut w p len)
  | .insString w rep a32 => finish s (s.execIns w rep a32 len)
  | .outsString w rep a32 pre => finish s (s.execOuts w rep a32 pre len)
  | .int3 => outcome ((s.advance len).deliver .breakpoint)
  | i => finish s (s.baseStep (s.baseEffect i len))

end Sys2Proof.Machine
end

