-- ==== Sys2Proof/Machine/SegmentSave.lean ====
section
/-!
DEFINITION. The six save and restore instructions SVDC, RSDC, SVLDT, RSLDT, SVTS, RSTS (40_segment_save_restore.md).
-/
namespace Sys2Proof.Machine

/-- SVDC mem80, sreg3 (R172). -/
def execSvdc (pre : List Pfx) (sreg : BitVec 3) (rm : RmArg) (s : State) : Out :=
  whenValid s s.smmInstrValid (prefixesDefined pre && sregDefined sreg && rm.isMem)
    (match SegName.ofNum sreg with
      | some n => s.saveSegReg pre rm (s.base.seg.get n) (Instr.svdc pre sreg rm).length
      | none => .error (.refuse .undefinedEncoding))

/-- RSDC sreg3, mem80 (R173): naming CS raises the invalid-opcode exception before memory is read (decision D16). -/
def execRsdc (pre : List Pfx) (sreg : BitVec 3) (rm : RmArg) (s : State) : Out :=
  if s.smmInstrValid && prefixesDefined pre && sreg = 1 then raiseInvalidOpcode s
  else
    whenValid s s.smmInstrValid (prefixesDefined pre && sregDefined sreg && rm.isMem)
      (match SegName.ofNum sreg with
        | some n =>
          s.restoreSegReg pre rm (fun b r => { b with seg := b.seg.set n r }) (Instr.rsdc pre sreg rm).length
        | none => .error (.refuse .undefinedEncoding))

/-- SVLDT mem80 (R174). -/
def execSvldt (pre : List Pfx) (reg : BitVec 3) (rm : RmArg) (s : State) : Out :=
  whenValid s s.smmInstrValid (prefixesDefined pre && reg = 0 && rm.isMem)
    (s.saveSegReg pre rm s.base.ldtr (Instr.svldt pre reg rm).length)

/-- RSLDT mem80 (R175). -/
def execRsldt (pre : List Pfx) (reg : BitVec 3) (rm : RmArg) (s : State) : Out :=
  whenValid s s.smmInstrValid (prefixesDefined pre && reg = 0 && rm.isMem)
    (s.restoreSegReg pre rm (fun b r => { b with ldtr := r }) (Instr.rsldt pre reg rm).length)

/-- SVTS mem80 (R176). -/
def execSvts (pre : List Pfx) (reg : BitVec 3) (rm : RmArg) (s : State) : Out :=
  whenValid s s.smmInstrValid (prefixesDefined pre && reg = 0 && rm.isMem)
    (s.saveSegReg pre rm s.base.tr (Instr.svts pre reg rm).length)

/-- RSTS mem80 (R177). -/
def execRsts (pre : List Pfx) (reg : BitVec 3) (rm : RmArg) (s : State) : Out :=
  whenValid s s.smmInstrValid (prefixesDefined pre && reg = 0 && rm.isMem)
    (s.restoreSegReg pre rm (fun b r => { b with tr := r }) (Instr.rsts pre reg rm).length)

end Sys2Proof.Machine
end

