-- ==== Sys2Proof/Machine/SmhrAccess.lean ====
section
/-!
DEFINITION. The two instructions that read and write SMHR (42_smhr_access.md): RDSHR and WRSHR. The operand is 32 bits
whatever the default size (R210, R211).
-/
namespace Sys2Proof.Machine

/-- RDSHR ereg/mem32 (R210): all 32 bits of SMHR as they stand. -/
def execRdshr (pre : List Pfx) (reg : BitVec 3) (rm : RmArg) (s : State) : Out :=
  whenValid s s.smmInstrValid (prefixesDefined pre && reg = 0)
    (match rm with
      | .reg r =>
        .ok (State.advance { s with base := { s.base with gpr := s.base.gpr.set r s.smhr } }
          (Instr.rdshr pre reg rm).length)
      | .mem m =>
        match s.writeOperand pre m (toLE 4 s.smhr.toNat) with
        | .ok t => .ok (t.advance (Instr.rdshr pre reg rm).length)
        | .error e => .error e)

/-- WRSHR ereg/mem32 (R211): all 32 bits loaded, the valid bit included. -/
def execWrshr (pre : List Pfx) (reg : BitVec 3) (rm : RmArg) (s : State) : Out :=
  whenValid s s.smmInstrValid (prefixesDefined pre && reg = 0)
    (match rm with
      | .reg r =>
        .ok (State.advance { s with smhr := s.base.gpr.get r } (Instr.wrshr pre reg rm).length)
      | .mem m =>
        match s.readOperand pre m 4 with
        | .ok bs => .ok (State.advance { s with smhr := BitVec.ofNat 32 (ofLE bs) } (Instr.wrshr pre reg rm).length)
        | .error e => .error e)

end Sys2Proof.Machine
end

