-- ==== Sys2Proof/Machine/SmmEntryExit.lean ====
section
/-!
DEFINITION. The software SMI and the resume instruction (41_smm_entry_exit.md): SMINT and RSM.
-/
namespace Sys2Proof.Machine

/-- The arguments of the entry SMINT makes (R191): Next IP after the instruction, no I/O instruction, not halted. -/
def smintArgs (s : State) (len : Nat) : EntryArgs where
  cause := .smint
  nextIp := some (s.base.eip + BitVec.ofNat 32 len)
  io := none
  halted := false

/-- SMINT (R190, R191). -/
def execSmint (pre : List Pfx) (s : State) : Out :=
  whenValid s s.smintValid (prefixesDefined pre) (liftRefusal (s.enterSmm (smintArgs s (Instr.smint pre).length)))

/-- RSM (R192 to R197). -/
def execRsm (pre : List Pfx) (s : State) : Out :=
  whenValid s s.smmInstrValid (prefixesDefined pre) (liftRefusal s.resumeFromSmm)

end Sys2Proof.Machine
end

