-- ==== Sys2Proof/Machine/Dispatch.lean ====
section
/-! DEFINITION. One arm per instruction of spec/opcode_table.json, each one direct call of its meaning. -/
namespace Sys2Proof.Machine

def exec (i : Instr) (s : State) : Host.Outcome State Fault Refusal :=
  match i with
  | .svdc pre sreg rm => Sys2Proof.Machine.execSvdc pre sreg rm s
  | .rsdc pre sreg rm => Sys2Proof.Machine.execRsdc pre sreg rm s
  | .svldt pre reg rm => Sys2Proof.Machine.execSvldt pre reg rm s
  | .rsldt pre reg rm => Sys2Proof.Machine.execRsldt pre reg rm s
  | .svts pre reg rm => Sys2Proof.Machine.execSvts pre reg rm s
  | .rsts pre reg rm => Sys2Proof.Machine.execRsts pre reg rm s
  | .smint pre => Sys2Proof.Machine.execSmint pre s
  | .rsm pre => Sys2Proof.Machine.execRsm pre s
  | .rdshr pre reg rm => Sys2Proof.Machine.execRdshr pre reg rm s
  | .wrshr pre reg rm => Sys2Proof.Machine.execWrshr pre reg rm s

end Sys2Proof.Machine
end

