-- ==== Sys2Proof/Machine/Fetch.lean ====
section
/-!
DEFINITION. Fetching an instruction's bytes (R22, R127, R140): byte by byte from `Lin(CS, EIP)` upward, each byte routed
by R104; prefixes as many as there are, then at most `Config.tailWindow` bytes (log entry 12).
-/
namespace Sys2Proof.Machine

/-- The byte a fetch sees in a cell: the cell's, or, while a store to it is not yet followed by a jump, SMM entry or
RSM, one of the values it had since (R127, log entry 26). -/
def State.codeByte (s : State) (l : Loc) : Byte :=
  match (s.staleCode.filter fun b => b.loc = l).map (·.old) with
  | [] => s.readLoc l
  | o :: os =>
    let seen := s.readLoc l :: o :: os
    seen.getD (Config.prefetchChoice s.draws (l.store = .smm) l.addr % seen.length) o

/-- The cell an instruction byte at an offset of CS comes from (R22, R104). DESIGN CHOICE (log entry 26): it is found anew for
each instruction, under the CR0 and CS of that moment, so after a MOV to CR0 that changes PE or PG the very next
instruction is translated under the new CR0, whatever a prefetch queue held (R75, R127). -/
def State.codeCell (s : State) (off : Dword) : Except Stop Loc :=
  if s.segPermits s.base.seg.cs .fetch [off] then
    match s.translate .fetch (s.base.seg.cs.base + off) with
    | .error e => .error e
    | .ok pa =>
      match s.locate pa with
      | .ok l => .ok l
      | .error r => .error (.refuse r)
  else .error (.event .protectionError)

/-- The instruction byte at an offset of CS. -/
def State.fetchByte (s : State) (off : Dword) : Except Stop Byte :=
  match s.codeCell off with
  | .ok l => .ok (s.codeByte l)
  | .error e => .error e

/-- What a fetch gives: the bytes read, and why it stopped, if it was stopped. -/
structure Fetched where
  bytes : List Byte
  stop : Option Stop
deriving DecidableEq, Repr

/-- At most `n` bytes. DESIGN CHOICE (log entry 54): the offsets run on past FFFFh in 16-bit code too (R22, N1), and a byte
beyond CS's limit stops the fetch. -/
def State.fetchTail (s : State) : Nat → Dword → Fetched
  | 0, _ => ⟨[], none⟩
  | n + 1, off =>
    match s.fetchByte off with
    | .error e => ⟨[], some e⟩
    | .ok b => let r := s.fetchTail n (off + 1); ⟨b :: r.bytes, r.stop⟩

/-- Prefix bytes, at most `n`, and the bytes after them. -/
def State.fetchFrom (s : State) : Nat → Dword → Fetched
  | 0, _ => ⟨[], none⟩
  | n + 1, off =>
    match s.fetchByte off with
    | .error e => ⟨[], some e⟩
    | .ok b =>
      match Pfx.ofByte b with
      | some _ => let r := s.fetchFrom n (off + 1); ⟨b :: r.bytes, r.stop⟩
      | none => let r := s.fetchTail Config.tailWindow (off + 1); ⟨b :: r.bytes, r.stop⟩

/-- The bytes at the instruction pointer. -/
def State.fetch (s : State) : Fetched :=
  s.fetchFrom Config.prefixLimit s.base.eip

/-- The state after a fetch: the choice a prefetch made is not made again (log entry 26). -/
def State.afterFetch (s : State) : State :=
  if s.staleCode = [] then s else { s with draws := s.draws + 1 }

/-- Bytes stored where the fetch finds them, from an offset of CS on (for `State.withFetchWord`). -/
def State.storeCode (s : State) : Dword → List Byte → State
  | _, [] => s
  | off, b :: bs =>
    match s.codeCell off with
    | .ok l => (s.writeLoc l b).storeCode (off + 1) bs
    | .error _ => s.storeCode (off + 1) bs

end Sys2Proof.Machine
end

