-- ==== Sys2Proof/Machine/Pins.lean ====
section
/-!
DEFINITION. What happens at an instruction boundary (R16, R262 to R268, R277, R278, R285, R320, R322): the pins are
sampled, and RESET, WM_RST, a debug-register breakpoint still pending, an SMI, an NMI or an INTR is served, in this
order; else the instruction stream goes on.
-/
namespace Sys2Proof.Machine

/-! ### Sampling (R16, decision D19) -/

/-- The sample of a boundary for which no input is listed: every level as it was, no event (log entry 30). -/
def State.quietSample (s : State) : PinSample where
  smiLow := s.smiLow
  nmi := false
  intr := none
  reset := false
  warmReset := false
  a20m := s.a20m
  flush := false
  susp := s.susp
  nonCacheable := s.nonCacheable

/-- The pins at this boundary. -/
def State.pins (s : State) : PinSample :=
  match s.inputs with
  | [] => s.quietSample
  | p :: _ => p

/-- The state with this boundary's sample taken: the levels held, the sample consumed. -/
def State.sampled (s : State) : State :=
  { s with
    smiLow := s.pins.smiLow
    a20m := s.pins.a20m
    susp := s.pins.susp
    nonCacheable := s.pins.nonCacheable
    inputs := s.inputs.tail }

/-! ### A breakpoint still pending (R294, R303) -/

/-- A debug-register breakpoint of the instruction just executed is delivered, before any interrupt and before an SMI, as
a fault of that instruction would be (decision D19; log entry 48); never in the shutdown state (U16). -/
def State.debugServed (s : State) : Bool :=
  s.debugTrap && s.base.activity != .shutdown

/-! ### SMI recognition (R263 to R266) -/

/-- A falling edge of SMI# (R264). -/
def State.smiEdge (s : State) : Bool :=
  s.pins.smiLow && !s.smiLow

/-- An SMI is taken at this boundary (R264, R265, R266), a breakpoint still pending going first (log entry 48). -/
def State.smiTaken (s : State) : Bool :=
  !s.debugServed && s.smiPinEnabled && s.cfgIndex.isNone &&
    (if s.cfg.smmMode then s.pins.smiLow && (!s.inSmm || s.cfg.nest)
    else !s.inSmm && (s.smiEdge || s.smiLatched))

/-- `smi_latched` after this boundary (R72, R264): consumed when the SMI is taken in SL-compatible mode; set by an edge
that cannot be served while the pin is enabled; in Cyrix Enhanced mode there is no latch (log entry 41). -/
def State.smiLatchAfter (s : State) : Bool :=
  if s.cfg.smmMode then s.smiLatched
  else !s.smiTaken && (s.smiLatched || (s.smiEdge && s.smiPinEnabled))

/-- The entry that the SMI# pin makes (R270, R271, decision D34): Next IP is EIP (after HLT: the instruction after it),
and is not determined after a shutdown. -/
def State.pinArgs (s : State) : EntryArgs where
  cause := .pin
  nextIp := if s.base.activity = .shutdown then none else some s.base.eip
  io := s.lastIo
  halted := s.base.activity != .running

/-! ### NMI and INTR (R277, R278) -/

/-- An NMI has arrived at this boundary or is latched (R278). -/
def State.nmiArrived (s : State) : Bool :=
  s.pins.nmi || s.nmiLatched

/-- NMI is delivered: outside SMM always, inside SMM while NMI_EN = 1; never in the shutdown state (R278, U16); not while
a breakpoint goes first. -/
def State.nmiServed (s : State) : Bool :=
  !s.debugServed && s.nmiArrived && (!s.inSmm || s.cfg.nmiEn) && s.base.activity != .shutdown

/-- INTR is delivered: with IF = 1, not in the shutdown state (R277, R23, U16). DESIGN CHOICE (log entry 53): at the first
boundary with IF = 1, so an instruction that sets IF, such as STI, holds off no INTR for one instruction more. -/
def State.intrServed (s : State) : Option Byte :=
  if s.base.eflags.getLsbD flagIf && s.base.activity != .shutdown then s.pins.intr else none

/-! ### RESET and WM_RST (R320 to R322) -/

/-- RESET asserted: the state of R80; the memories, the pins and the model's own fields go on (log entry 42). -/
def State.hardReset (s : State) : State :=
  { State.reset with
    normal := s.normal
    smm := s.smm
    smiLow := s.smiLow
    a20m := s.a20m
    susp := s.susp
    nonCacheable := s.nonCacheable
    inputs := s.inputs
    ioTrace := s.ioTrace
    draws := s.draws }

/-- WM_RST asserted: the configuration registers and SMHR unchanged, the rest open (R322, decision D40). -/
def State.warmReset (s : State) : State :=
  let w := Config.baseWarmReset s.baseView
  { s with
    base := w.regs
    cfgIndex := w.cfgIndex
    inSmm := w.inSmm
    smiLatched := w.smiLatched
    nmiLatched := w.nmiLatched
    lastIo := none
    debugTrap := false
    draws := s.draws + 1 }

/-! ### The boundary -/

/-- The state after the sample and the latches are settled, before anything is served. -/
def State.settled (s : State) : State :=
  { s.sampled with
    debugTrap := false
    smiLatched := s.smiLatchAfter
    nmiLatched := s.nmiArrived && !(s.nmiServed && !s.smiTaken) }

/-- What the pins do at this boundary, in the order of R267; none when the instruction stream goes on. -/
def State.boundary (s : State) : Option Out :=
  if s.pins.reset then some (.next s.sampled.hardReset)
  else if s.pins.warmReset then some (.next s.sampled.warmReset)
  else if s.debugServed then some (outcome (s.settled.deliver .debugBreakpoint))
  else if s.smiTaken then some (outcome (s.settled.enterSmm s.pinArgs))
  else if s.nmiServed then some (outcome (s.settled.deliver .nmi))
  else
    match s.intrServed with
    | some v => some (outcome (s.settled.deliver (.intr v)))
    | none => none

/-! ### The SMIACT# output (R77, R276) -/

/-- SMIACT# is active for a bus cycle that R104 routes to SMM memory or not: never while USE_SMI = 0; in SL-compatible
mode for the whole routine and for SMM memory cycles outside it; in Cyrix Enhanced mode for SMM memory cycles only. -/
def State.smiact (s : State) (cycle : StoreId) : Bool :=
  s.cfg.useSmi && (cycle = .smm || (!s.cfg.smmMode && s.inSmm))

end Sys2Proof.Machine
end

