-- ==== Sys2Proof/Machine/Run.lean ====
section
/-!
DEFINITION. Running the instruction at the instruction pointer (R140, R150, R170, R220), under the debug registers (R303)
and SUSP# (R50); and what a core does at a boundary that brings nothing (R33, R228, R293).
-/
namespace Sys2Proof.Machine

/-- The instruction that the fetched bytes begin with, run: one of the ten, a base instruction written down in
Machine/BaseExec.lean, or one left to `Base`. What stopped a fetch is raised where the bytes read are not enough to say
that this is none of the ten, or end inside one of the ten that exists; where the opcode is one of the ten and does not
exist "no operand byte is examined" (R170, R150). DESIGN CHOICE (log entry 59): a base instruction that the stop cuts off
is left to `Base` as a whole (R220). DESIGN CHOICE (log entry 26): the default size is that of the state at this step,
after a MOV to CR0 too. -/
def State.runCode (s : State) (c : Fetched) : Out :=
  match decode s.base.default32 c.bytes with
  | .ok (i, _) => exec i s
  | .error .notSmm =>
    match decodeBase s.base.default32 c.bytes with
    | some (b, len) => s.execBase b len
    | none => finish s (.error .leftToBase)
  | .error .truncated =>
    if (opcodeRead c.bytes).any fun op => !s.opExists op then raiseInvalidOpcode s
    else
      match c.stop with
      | some e => finish s (.error e)
      | none => .refused .instructionTooLong

/-- What the debug registers make of the instruction at the instruction pointer: nothing while DR7 enables none (R30). -/
def State.debugMatch (s : State) : DebugMatch :=
  if s.base.breakpointsOn then Config.baseBreakpoint s.baseView else .none

/-- A step of the instruction stream under the debug registers (R294, R303): a breakpoint before the instruction is
delivered in its place; one after it is pending in the next state, if DR7 still enables one. DESIGN CHOICE (log entry
48): so it is too where the instruction has not completed but raised an exception, which is delivered first. -/
def State.underBreakpoints (s : State) (o : Out) : Out :=
  match s.debugMatch with
  | .none => o
  | .before => outcome (s.deliver .debugBreakpoint)
  | .after =>
    match o with
    | .next t => .next { t with debugTrap := t.base.breakpointsOn }
    | .fault f => .fault f
    | .refused r => .refused r

/-- The instruction at the instruction pointer, run. -/
def State.runInstruction (s : State) : Out :=
  s.underBreakpoints (s.afterFetch.runCode s.fetch)

/-- SUSP# holds the instruction stream: never while the input is ignored (USE_SUSP = 0, R50) or not asserted; else what
suspend mode does is open (R304; log entry 10). -/
def State.suspended (s : State) : Bool :=
  s.cfg.useSusp && s.susp && Config.suspendHolds s.draws

/-- The step of a machine whose boundary brings nothing: the halted core waits (R33, R228); the shut down core waits while
inputs are left and is stuck when none is (U16); a suspended core waits; else an instruction runs. -/
def State.proceed (s : State) : Out :=
  match s.base.activity with
  | .running => if s.suspended then .next { s with draws := s.draws + 1 } else s.runInstruction
  | .halted _ => .next s
  | .shutdown => if s.inputs = [] then .fault .shutdown else .next s

end Sys2Proof.Machine
end

