-- ==== Sys2Proof/Machine/Step.lean ====
section
/-!
DEFINITION. One step (R16, R268): what the pins do at the boundary, else the next instruction. And the placing of one
instruction where the next step runs it.
-/
namespace Sys2Proof.Machine

/-- One step. -/
def step (s : State) : Host.Outcome State Fault Refusal :=
  match s.boundary with
  | some o => o
  | none => s.settled.proceed

/-- `s` with a word of spec/opcode_table.json stored where `step` fetches its next instruction, and nothing at the
boundary before it: no input, no latched event, SMI# high, SUSP# not asserted, no breakpoint, the core running, no byte
still in the prefetch queue. -/
def State.withFetchWord (s : State) (nbits w : Nat) : State :=
  let t : State :=
    { s with
      base := { s.base with activity := .running, dr7 := s.base.dr7 &&& 0xFFFFFF00 }
      inputs := []
      smiLow := false
      smiLatched := false
      nmiLatched := false
      susp := false
      debugTrap := false
      staleCode := [] }
  { t.storeCode t.base.eip (tableWordBytes nbits w) with staleCode := [] }

end Sys2Proof.Machine
end

