-- ==== Sys2Proof/Safety.lean ====
section
/-!
DEFINITION. The terms the statements use: the invariant of the memories, what a state holds at an address, what an
instruction leaves alone, the settings SMI_LOCK protects, where a header can be kept.
-/
namespace Sys2Proof.Machine

/-- The invariant: both memories are in canonical form. -/
abbrev State.memoriesWf (s : State) : Prop := s.normal.wf ∧ s.smm.wf

/-- One of the two memories holds the `n` low bytes of `v`, least significant first, at an address (R110). -/
def State.fieldIs (s : State) (st : StoreId) (a : Dword) (n v : Nat) : Prop :=
  ∀ k, k < n → s.readLoc ⟨st, a + BitVec.ofNat 32 k⟩ = BitVec.ofNat 8 (v / 256 ^ k)

/-- Every byte of both memories outside these cells reads the same in both states. -/
def State.sameMemoryOutside (s t : State) (cells : List Loc) : Prop :=
  ∀ l, l ∉ cells → t.readLoc l = s.readLoc l

/-- Everything but the base registers, the memories, SMHR and the model's record of I/O and of fetches is the same:
configuration, configuration window, mode, latches, pins, a pending breakpoint, inputs, off-chip accesses. -/
def State.sameControl (s t : State) : Prop :=
  t.cfg = s.cfg ∧ t.cfgIndex = s.cfgIndex ∧ t.inSmm = s.inSmm ∧ t.smiLatched = s.smiLatched ∧
    t.nmiLatched = s.nmiLatched ∧ t.smiLow = s.smiLow ∧ t.a20m = s.a20m ∧ t.susp = s.susp ∧
    t.nonCacheable = s.nonCacheable ∧ t.debugTrap = s.debugTrap ∧ t.inputs = s.inputs ∧ t.ioTrace = s.ioTrace

/-- The bytes `k` below `top`, for `k` from 1 to `n`, all lie at their own addresses in one memory (R104, D20). -/
def State.placedBelow (s : State) (st : StoreId) (top : Dword) (n : Nat) : Prop :=
  ∀ k, 1 ≤ k → k ≤ n → s.locate (top - BitVec.ofNat 32 k) = .ok ⟨st, top - BitVec.ofNat 32 k⟩

/-- Those bytes may also be written (R129). -/
def State.writableBelow (s : State) (st : StoreId) (top : Dword) (n : Nat) : Prop :=
  ∀ k, 1 ≤ k → k ≤ n →
    s.checkWrite (top - BitVec.ofNat 32 k) ⟨st, top - BitVec.ofNat 32 k⟩ = .ok ()

/-- The cells of the `n` bytes below `top`. -/
def cellsBelow (st : StoreId) (top : Dword) (n : Nat) : List Loc :=
  (List.range n).map fun k => ⟨st, top - BitVec.ofNat 32 (k + 1)⟩

/-- Byte `k` of a mem80 that holds a register (R113): the descriptor in bytes 0 to 7, the selector in bytes 8 and 9. -/
def mem80Byte (r : SegReg) (k : Nat) : Byte :=
  if k < 8 then r.desc.extractLsb' (8 * k) 8 else r.sel.extractLsb' (8 * (k - 8)) 8

/-- The state after bytes were stored in these cells by an instruction of `len` bytes: EIP past it, every cell with
its byte (where no two cells are the same), all else as before. -/
def State.storedAt (s t : State) (cells : List Loc) (byte : Nat → Byte) (len : Nat) : Prop :=
  t.base = { s.base with eip := s.base.eip + BitVec.ofNat 32 len } ∧ t.smhr = s.smhr ∧ s.sameControl t ∧
    s.sameMemoryOutside t cells ∧
    (cells.Nodup → ∀ k l, cells[k]? = some l → t.readLoc l = byte k)

/-- The cells an operand of `n` bytes is read from. -/
def State.readsFrom (s : State) (pre : List Pfx) (m : MemArg) (n : Nat) (cells : List Loc) : Prop :=
  ∃ pas, s.segAddrs (s.operandSeg pre m) .read (m.offsets s.base.gpr n) = .ok pas ∧ s.locateAccess pas = .ok cells

/-- The state after base registers were changed by an instruction, and nothing else. -/
def State.onlyBase (s t : State) (b : BaseRegs) : Prop :=
  t.base = b ∧ t.smhr = s.smhr ∧ s.sameControl t ∧ s.sameMemoryOutside t []

/-- The pointer under which an entry from `s` writes its header (R68, R115). -/
def State.entryTop (s : State) : Dword := hdrTop (smhrForEntry s.cfg s.smhr)

/-- A header can be written by an entry from `s`: its 48 bytes lie in one memory at their own addresses and are
writable, routed as SMM accesses. -/
def State.headerFits (s : State) (st : StoreId) : Prop :=
  s.entering.placedBelow st s.entryTop 48 ∧ s.entering.writableBelow st s.entryTop 48

/-- The registers after an entry (R270, R274): CS with base `SmarBase`, limit FFFF FFFFh and 16-bit default size. -/
def State.entryRegisters (s t : State) : Prop :=
  (∃ cs : SegReg, cs.base = s.cfg.smarBase ∧ cs.limit = 0xFFFFFFFF ∧ cs.big = false ∧
    t.base = { s.base with
      seg := s.base.seg.set .cs cs
      eip := 0
      eflags := 0x00000002
      cr0 := if s.cfg.lockNw then setBit 0x60000010 29 (s.base.cr0.getLsbD 29) else 0x60000010
      dr7 := 0x00000400
      cpl := 0
      activity := .running })

/-- The flags dword of a header (R117, R272), as far as its bits are determined. -/
def State.entryFlagsAre (s : State) (a : EntryArgs) (f : Dword) : Prop :=
  f.getLsbD 0 = s.base.csWritable ∧ f.getLsbD 3 = decide (a.cause = .smint) ∧ f.getLsbD 4 = a.halted ∧
    f.getLsbD hdrNPos = s.inSmm ∧ (f >>> hdrCplPos).setWidth 2 = s.base.cpl ∧
    (a.cause = .pin → f.getLsbD hdrIsPos = false) ∧
    ∀ i, a.io = some i → f.getLsbD 1 = i.write ∧ f.getLsbD 2 = i.rep

/-- The I/O fields of a header (R118, R273): size mask, port, the valid low bytes of written data, ESI or EDI, Current
IP. -/
def State.ioFieldsAre (t : State) (st : StoreId) (top : Dword) (i : IoInfo) : Prop :=
  t.fieldIs st (top - 0x10) 4 i.curIp.toNat ∧
    t.fieldIs st (top - 0x26) 2 (match i.size with | .byte => 0x01 | .word => 0x03 | .dword => 0x0F) ∧
    t.fieldIs st (top - 0x28) 2 i.port.toNat ∧
    (i.write = true → t.fieldIs st (top - 0x2C) i.size.bytes i.data.toNat) ∧
    t.fieldIs st (top - 0x30) 4 i.esiEdi.toNat

/-- The header an entry from `s` leaves in `t` (R116, R270). -/
def State.headerIs (s t : State) (a : EntryArgs) (st : StoreId) : Prop :=
  t.fieldIs st (s.entryTop - 0x04) 4 s.base.dr7.toNat ∧
    t.fieldIs st (s.entryTop - 0x08) 4 s.base.eflags.toNat ∧
    t.fieldIs st (s.entryTop - 0x0C) 4 s.base.cr0.toNat ∧
    (∀ n, a.nextIp = some n → t.fieldIs st (s.entryTop - 0x14) 4 n.toNat) ∧
    t.fieldIs st (s.entryTop - 0x18) 2 s.base.seg.cs.sel.toNat ∧
    t.fieldIs st (s.entryTop - 0x20) 8 s.base.seg.cs.desc.toNat ∧
    (∃ f : Dword, t.fieldIs st (s.entryTop - 0x24) 4 f.toNat ∧ s.entryFlagsAre a f) ∧
    ∀ i, a.io = some i → t.ioFieldsAre st s.entryTop i

/-- The state an entry from `s` leaves (R270): SMM, SMHR valid, N clear, the registers, the header, all else kept. -/
def State.entered (s t : State) (a : EntryArgs) (st : StoreId) : Prop :=
  t.inSmm = true ∧ t.smhr = smhrForEntry s.cfg s.smhr ∧
    t.cfg = { s.cfg with ccr6 := s.cfg.ccr6 &&& 0xBF } ∧ s.entryRegisters t ∧ s.headerIs t a st ∧
    s.sameMemoryOutside t (cellsBelow st s.entryTop 48) ∧ t.cfgIndex = s.cfgIndex ∧ t.smiLatched = s.smiLatched ∧
    t.nmiLatched = s.nmiLatched ∧ t.smiLow = s.smiLow ∧ t.a20m = s.a20m ∧ t.susp = s.susp ∧
    t.nonCacheable = s.nonCacheable ∧ t.debugTrap = s.debugTrap ∧ t.inputs = s.inputs ∧ t.ioTrace = s.ioTrace

/-- The settings that SMI_LOCK protects (R52): USE_SMI, SMAC, MMAC, SM3, NMI_EN and the three bytes of ARR3. -/
structure LockedSettings where
  useSmi : Bool
  smac : Bool
  mmac : Bool
  sm3 : Bool
  nmiEn : Bool
  arrCD : Byte
  arrCE : Byte
  arrCF : Byte
deriving DecidableEq, Repr

/-- The protected settings as the configuration registers hold them. -/
def CfgRegs.lockedSettings (c : CfgRegs) : LockedSettings :=
  ⟨c.useSmi, c.smac, c.mmac, c.sm3, c.nmiEn, c.arrCD, c.arrCE, c.arrCF⟩

/-- The instruction the next step would run, if it is one of the ten. -/
def State.nextSmmInstr (s : State) : Option Instr :=
  match decode s.base.default32 s.fetch.bytes with
  | .ok (i, _) => some i
  | .error _ => none

/-- The instruction stream goes on at this boundary: it brings nothing, the core is running, and SUSP# does not hold it. -/
def State.goesOn (s : State) : Prop :=
  s.boundary = none ∧ s.base.activity = .running ∧ s.settled.suspended = false

/-- The step from `s` runs this instruction of the ten: the instruction stream goes on, and no breakpoint takes the
instruction's place. -/
def State.runs (s : State) (i : Instr) : Prop :=
  s.goesOn ∧ s.settled.debugMatch ≠ .before ∧ s.settled.nextSmmInstr = some i

/-- Between these states a byte was written to port 23h with an index of ARR3 selected and ARR3 not locked: SMHR has lost
its valid bit, the window is closed, and the access is the I/O instruction just executed (R68, R222). -/
def State.wroteArr3 (s t : State) : Prop :=
  ∃ idx i, s.cfgIndex = some idx ∧ (idx = 0xCD ∨ idx = 0xCE ∨ idx = 0xCF) ∧ s.configLocked = false ∧
    t.smhr = s.smhr &&& 0xFFFFFFFE ∧ t.cfgIndex = none ∧ t.lastIo = some i ∧ i.write = true ∧ i.port = 0x23 ∧
    i.size = .byte

end Sys2Proof.Machine
end

