-- ==== Sys2Proof/Certificates/Slice0/Obligations.lean ====
section
/-!
DEFINITION. The statements for the provers. Each docstring names what of the spec the statement formalises, or says that
it is the model's choice and which log entry declares it.
-/

open Sys2Proof Sys2Proof.Machine

/-! ### Encoding (30_encoding.md) -/

/-- R140 to R149: decoding an encoding gives the instruction back and leaves what follows it. -/
def Obligations.DecodeOfEncode : Prop :=
  ∀ (d32 : Bool) (i : Instr) (rest : List Byte), i.encodable d32 = true →
    decode d32 (encode i ++ rest) = .ok (i, rest)

/-- R140 to R149: whatever is decoded is an encodable instruction, read from its own encoding. -/
def Obligations.EncodeOfDecode : Prop :=
  ∀ (d32 : Bool) (bs rest : List Byte) (i : Instr), decode d32 bs = .ok (i, rest) →
    i.encodable d32 = true ∧ bs = encode i ++ rest

/-- The TEST.ASM listing (95_test_vectors.md A1): words written out byte by byte decode to their instructions. -/
def Obligations.ListingDecodes : Prop :=
  decode false [0x2E, 0x0F, 0x78, 0x1E, 0x4E, 0x00] = .ok (.svdc [.seg .cs] 3 (.mem (.a16 (.abs 0x004E))), []) ∧
  decode false [0x2E, 0x0F, 0x79, 0x2E, 0x4E, 0x00] = .ok (.rsdc [.seg .cs] 5 (.mem (.a16 (.abs 0x004E))), []) ∧
  decode false [0x2E, 0x67, 0x2E, 0x0F, 0x7C, 0x84, 0x58, 0x4E, 0x00, 0x00, 0x00] =
    .ok (.svts [.seg .cs, .addrSize, .seg .cs] 0 (.mem (.a32 (.sib 1 .ebx .eax (.d32 0x4E)))), []) ∧
  decode false [0x67, 0x0F, 0x7A, 0x03] = .ok (.svldt [.addrSize] 0 (.mem (.a32 (.ind .ebx .none))), []) ∧
  decode false [0x0F, 0xAA] = .ok (.rsm [], []) ∧
  decode false [0x0F, 0x38] = .ok (.smint [], []) ∧
  decode false [0x0F, 0x37, 0xC3] = .ok (.wrshr [] 0 (.reg .ebx), [])

/-- A step runs the decoded instruction: where the boundary brings nothing, the core is running, SUSP# does not hold it
and the bytes from EIP upward are an instruction's encoding, the step is that instruction's meaning at the state after
the fetch (R140, R268), under the debug registers (R303, log entry 48), which change nothing while DR7 enables none. -/
def Obligations.StepRunsDecoded : Prop :=
  ∀ (s : State) (i : Instr), s.goesOn → i.encodable s.base.default32 = true → i.pre.length < 2 ^ 32 →
    (∀ k, (h : k < (encode i).length) →
      s.settled.fetchByte (s.base.eip + BitVec.ofNat 32 k) = .ok ((encode i)[k])) →
    step s = s.settled.underBreakpoints (exec i s.settled.afterFetch) ∧
    (s.base.dr7.extractLsb' 0 8 = 0 → step s = exec i s.settled.afterFetch)

/-- A step runs a base instruction that the model writes down (R220; log entry 36), at the state after the fetch, under
the debug registers as above. -/
def Obligations.StepRunsBaseInstr : Prop :=
  ∀ (s : State) (b : BaseInstr) (len : Nat), s.goesOn →
    decode s.base.default32 s.settled.fetch.bytes = .error .notSmm →
    decodeBase s.base.default32 s.settled.fetch.bytes = some (b, len) →
    step s = s.settled.underBreakpoints (s.settled.afterFetch.execBase b len) ∧
    (s.base.dr7.extractLsb' 0 8 = 0 → step s = s.settled.afterFetch.execBase b len)

/-! ### Operands (30_encoding.md section 2, 40_segment_save_restore.md R171) -/

/-- R144, R145: the effective addresses: the sixteen-bit forms modulo 2^16, the 32-bit forms with and without SIB modulo
2^32, ESP as an index meaning none, and an eight-bit displacement sign-extended. -/
def Obligations.EffectiveAddresses : Prop :=
  ∀ g : Gpr,
    (∀ d : Disp16,
    (Addr16.ind .bxsi d).ea g = g.ebx.setWidth 16 + g.esi.setWidth 16 + d.value ∧
    (Addr16.ind .bxdi d).ea g = g.ebx.setWidth 16 + g.edi.setWidth 16 + d.value ∧
    (Addr16.ind .bpsi d).ea g = g.ebp.setWidth 16 + g.esi.setWidth 16 + d.value ∧
    (Addr16.ind .bpdi d).ea g = g.ebp.setWidth 16 + g.edi.setWidth 16 + d.value ∧
    (Addr16.ind .si d).ea g = g.esi.setWidth 16 + d.value ∧
    (Addr16.ind .di d).ea g = g.edi.setWidth 16 + d.value ∧
    (Addr16.ind .bp d).ea g = g.ebp.setWidth 16 + d.value ∧
    (Addr16.ind .bx d).ea g = g.ebx.setWidth 16 + d.value) ∧
    (∀ d : BitVec 16, (Addr16.abs d).ea g = d) ∧
    Disp16.none.value = 0 ∧ (∀ d : BitVec 8, (Disp16.d8 d).value.toInt = d.toInt) ∧
    (∀ d : BitVec 16, (Disp16.d16 d).value = d) ∧
    (∀ (r : GReg) (d : Disp32), (Addr32.ind r d).ea g = g.get r + d.value) ∧
    (∀ d : BitVec 32, (Addr32.abs d).ea g = d) ∧
    (∀ (scale : BitVec 2) (index base : GReg) (d : Disp32), index ≠ .esp →
      (Addr32.sib scale index base d).ea g = g.get base + g.get index * BitVec.ofNat 32 (2 ^ scale.toNat) + d.value) ∧
    (∀ (scale : BitVec 2) (base : GReg) (d : Disp32),
      (Addr32.sib scale .esp base d).ea g = g.get base + d.value) ∧
    (∀ (scale : BitVec 2) (index : GReg) (d : BitVec 32), index ≠ .esp →
      (Addr32.sibAbs scale index d).ea g = g.get index * BitVec.ofNat 32 (2 ^ scale.toNat) + d) ∧
    (∀ (scale : BitVec 2) (d : BitVec 32), (Addr32.sibAbs scale .esp d).ea g = d) ∧
    Disp32.none.value = 0 ∧ (∀ d : BitVec 8, (Disp32.d8 d).value.toInt = d.toInt) ∧
    (∀ d : BitVec 32, (Disp32.d32 d).value = d)

/-- R171: in real mode with A20M# not asserted, the cells that a store of `n` bytes goes to, or that a read of `n` bytes
comes from, lie at the segment's base plus the effective address plus `k`, the offset being cut to 16 or to 32 bits.
R144, R145, R171: the segment is one that an override prefix names, if there is one; else SS when BP takes part in a
16-bit address or the base of a 32-bit one is ESP or EBP, and DS otherwise. -/
def Obligations.OperandAddresses : Prop :=
  (∀ (s : State) (pre : List Pfx) (m : MemArg) (n k : Nat) (cells : List Loc) (l : Loc),
    s.base.realMode = true → s.base.paging = false → s.a20m = false →
    s.operandCells pre m n = .ok cells ∨ s.readsFrom pre m n cells → cells[k]? = some l →
      k < n ∧ l.addr = (s.base.seg.get (m.segment pre)).base + (match m with
        | .a16 a => (a.ea s.base.gpr + BitVec.ofNat 16 k).setWidth 32
        | .a32 a => a.ea s.base.gpr + BitVec.ofNat 32 k)) ∧
  ∀ (pre : List Pfx) (m : MemArg),
    ((∃ n, .seg n ∈ pre) → .seg (m.segment pre) ∈ pre) ∧
    ((∀ n, .seg n ∉ pre) → m.segment pre = match m with
      | .a16 (.ind b _) => if b = .bp ∨ b = .bpsi ∨ b = .bpdi then .ss else .ds
      | .a32 (.ind r _) | .a32 (.sib _ _ r _) => if r = .esp ∨ r = .ebp then .ss else .ds
      | .a16 (.abs _) | .a32 (.abs _) | .a32 (.sibAbs _ _ _) => .ds)

/-- R171, decision D21: in real mode with A20M# not asserted no two of the ten cells of a mem80 are the same. -/
def Obligations.Mem80CellsDistinct : Prop :=
  ∀ (s : State) (pre : List Pfx) (m : MemArg) (cells : List Loc),
    s.base.realMode = true → s.base.paging = false → s.a20m = false → s.operandCells pre m 10 = .ok cells →
      cells.Nodup ∧ cells.length = 10

/-! ### When the ten instructions exist (R170, R190, R150) -/

/-- R170: what `SmmInstrValid` is, and that outside it the nine instructions other than SMINT raise the invalid-opcode
exception, whatever their operands; and so does every fetch that shows one of the ten opcodes where its instruction does
not exist, however many of its operand bytes could be fetched (R150, R170). -/
def Obligations.InvalidOpcodeOutsideSmmInstrValid : Prop :=
  ∀ s : State,
    (s.smmInstrValid = true ↔ s.base.cpl = 0 ∧ s.cfg.ccr1.getLsbD 1 = true ∧ s.cfg.arrCF.extractLsb' 0 4 ≠ 0 ∧
      s.cfg.ccr1.getLsbD 7 = true ∧ (s.cfg.ccr1.getLsbD 2 = true ∨ s.inSmm = true)) ∧
    (∀ i : Instr, s.smmInstrValid = false → i.op ≠ .smint → exec i s = raiseInvalidOpcode s) ∧
    ∀ (c : Fetched) (op : SmmOp), opcodeRead c.bytes = some op →
      (if op = .smint then s.smintValid else s.smmInstrValid) = false → s.runCode c = raiseInvalidOpcode s

/-- R190: SMINT exists exactly when CPL = 0, USE_SMI, a region size, SM3 and SMAC hold, being in SMM not standing in for
SMAC; otherwise it raises the invalid-opcode exception; and then the SMI# pin is ignored. -/
def Obligations.SmintValidity : Prop :=
  ∀ (s : State) (pre : List Pfx),
    (s.smintValid = true ↔ s.base.cpl = 0 ∧ s.cfg.ccr1.getLsbD 1 = true ∧ s.cfg.arrCF.extractLsb' 0 4 ≠ 0 ∧
      s.cfg.ccr1.getLsbD 7 = true ∧ s.cfg.ccr1.getLsbD 2 = true) ∧
    (s.smintValid = false → exec (.smint pre) s = raiseInvalidOpcode s) ∧
    (s.smintValid = true → s.smiPinEnabled = false)

/-- R290: raising the invalid-opcode exception changes no state of the SMM mechanism: configuration, SMHR, window, mode,
latches, pins, inputs and off-chip accesses stay. -/
def Obligations.InvalidOpcodeKeepsSmmState : Prop :=
  ∀ s t : State, raiseInvalidOpcode s = .next t → s.sameControl t ∧ t.smhr = s.smhr

/-- R277, R279, R280 (D23): in real mode with paging off every event is delivered through the table IDTR designates, by
its vector (6 for invalid opcode, 2 for NMI, 3 for INT 3, the platform's for INTR, an open one else), IDTR and the mode
kept. The model's choice (log entry 28): the vector's entry has four bytes; FLAGS, CS and EIP are pushed as words below
SP, IF and TF are cleared, CS is loaded as R239 says. -/
def Obligations.RealModeDelivery : Prop :=
  (raiseInvalidOpcode = fun s => outcome (s.deliver .invalidOpcode)) ∧ BaseEvent.vector .invalidOpcode = 6 ∧
  BaseEvent.vector .nmi = 2 ∧ BaseEvent.vector .breakpoint = 3 ∧ (∀ v, BaseEvent.vector (.intr v) = v) ∧
  ∀ (s : State) (e : BaseEvent) (entry : List Byte) (fl cs ip : List Dword) (lf lc li : List Loc),
    s.base.realMode = true → s.base.paging = false → 4 * e.vector.toNat + 3 ≤ s.base.idtr.limit.toNat →
    s.readAccess (physAddrs (s.base.idtr.base + BitVec.ofNat 32 (4 * e.vector.toNat)) 4) = .ok entry →
    s.pushAddrs 2 = .ok fl → s.pushAddrs 4 = .ok cs → s.pushAddrs 6 = .ok ip →
    s.writableLocs fl = .ok lf → s.writableLocs cs = .ok lc → s.writableLocs ip = .ok li →
    ∃ t, s.deliver e = .ok t ∧ t.base.idtr = s.base.idtr ∧ t.inSmm = s.inSmm ∧
      t.base.eip = (BitVec.ofNat 16 (ofLE (entry.take 2))).setWidth 32 ∧
      t.base.seg.cs.sel = BitVec.ofNat 16 (ofLE (entry.drop 2)) ∧
      t.base.seg.cs.base = (BitVec.ofNat 16 (ofLE (entry.drop 2))).setWidth 32 <<< 4 ∧
      t.base.eflags.getLsbD 9 = false ∧ t.base.eflags.getLsbD 8 = false ∧
      ((lf ++ lc ++ li).Nodup →
        (lf ++ lc ++ li).map t.readLoc =
          toLE 2 s.base.eflags.toNat ++ toLE 2 s.base.seg.cs.sel.toNat ++ toLE 2 s.base.eip.toNat)

/-- R173, R292: RSDC naming CS raises the invalid-opcode exception before memory is read. -/
def Obligations.RsdcCsRaises : Prop :=
  ∀ (s : State) (pre : List Pfx) (rm : RmArg), prefixesDefined pre = true →
    exec (.rsdc pre 1 rm) s = raiseInvalidOpcode s

/-- R150 (a), (c) to (g): where the instructions exist, an encoding the source leaves without a meaning is refused. -/
def Obligations.UndefinedEncodingsRefused : Prop :=
  ∀ (s : State) (i : Instr), s.smmInstrValid = true → (i.op = .smint → s.smintValid = true) →
    (prefixesDefined i.pre = false ∨ i.fieldsDefined = false) → exec i s = .refused .undefinedEncoding

/-! ### The save and restore instructions (40_segment_save_restore.md) -/

/-- R172: SVDC stores the descriptor, then the selector, of the segment register its field names, and advances. -/
def Obligations.SvdcStores : Prop :=
  ∀ (s : State) (pre : List Pfx) (sreg : BitVec 3) (n : SegName) (m : MemArg) (cells : List Loc),
    s.smmInstrValid = true → prefixesDefined pre = true → SegName.ofNum sreg = some n → n ≠ .cs →
    s.operandCells pre m 10 = .ok cells →
    ∃ t, exec (.svdc pre sreg (.mem m)) s = .next t ∧
      s.storedAt t cells (mem80Byte (s.base.seg.get n)) (Instr.svdc pre sreg (.mem m)).length

/-- R173: RSDC loads the segment register its field names from the ten bytes, as found, and advances. R114: what the ten
bytes say of the register: base, limit with its granularity, default size, rights and selector. -/
def Obligations.RsdcLoads : Prop :=
  ∀ (s : State) (pre : List Pfx) (sreg : BitVec 3) (n : SegName) (m : MemArg) (cells : List Loc),
    s.smmInstrValid = true → prefixesDefined pre = true → SegName.ofNum sreg = some n → n ≠ .cs →
    s.readsFrom pre m 10 cells →
    ∃ t r, exec (.rsdc pre sreg (.mem m)) s = .next t ∧
      (∀ k l, cells[k]? = some l → mem80Byte r k = s.readLoc l) ∧ r.sel = mem80Byte r 9 ++ mem80Byte r 8 ∧
      r.base = mem80Byte r 7 ++ mem80Byte r 4 ++ mem80Byte r 3 ++ mem80Byte r 2 ∧
      (∀ limit20 : BitVec 20, limit20 = (mem80Byte r 6).extractLsb' 0 4 ++ mem80Byte r 1 ++ mem80Byte r 0 →
        r.limit.toNat = if (mem80Byte r 6).getLsbD 7 then limit20.toNat * 2 ^ 12 + 0xFFF else limit20.toNat) ∧
      r.big = (mem80Byte r 6).getLsbD 6 ∧ r.rights = (mem80Byte r 6).extractLsb' 4 4 ++ mem80Byte r 5 ∧
      s.onlyBase t { s.base with
        seg := s.base.seg.set n r
        eip := s.base.eip + BitVec.ofNat 32 (Instr.rsdc pre sreg (.mem m)).length }

/-- R174: SVLDT stores LDTR's descriptor and selector, and advances. -/
def Obligations.SvldtStores : Prop :=
  ∀ (s : State) (pre : List Pfx) (m : MemArg) (cells : List Loc),
    s.smmInstrValid = true → prefixesDefined pre = true → s.operandCells pre m 10 = .ok cells →
    ∃ t, exec (.svldt pre 0 (.mem m)) s = .next t ∧
      s.storedAt t cells (mem80Byte s.base.ldtr) (Instr.svldt pre 0 (.mem m)).length

/-- R175: RSLDT loads LDTR from the ten bytes, as found, and advances. -/
def Obligations.RsldtLoads : Prop :=
  ∀ (s : State) (pre : List Pfx) (m : MemArg) (cells : List Loc),
    s.smmInstrValid = true → prefixesDefined pre = true → s.readsFrom pre m 10 cells →
    ∃ t r, exec (.rsldt pre 0 (.mem m)) s = .next t ∧
      (∀ k l, cells[k]? = some l → mem80Byte r k = s.readLoc l) ∧
      s.onlyBase t { s.base with
        ldtr := r
        eip := s.base.eip + BitVec.ofNat 32 (Instr.rsldt pre 0 (.mem m)).length }

/-- R176: SVTS stores TR's descriptor and selector, and advances. -/
def Obligations.SvtsStores : Prop :=
  ∀ (s : State) (pre : List Pfx) (m : MemArg) (cells : List Loc),
    s.smmInstrValid = true → prefixesDefined pre = true → s.operandCells pre m 10 = .ok cells →
    ∃ t, exec (.svts pre 0 (.mem m)) s = .next t ∧
      s.storedAt t cells (mem80Byte s.base.tr) (Instr.svts pre 0 (.mem m)).length

/-- R177: RSTS loads TR from the ten bytes, as found, and advances. -/
def Obligations.RstsLoads : Prop :=
  ∀ (s : State) (pre : List Pfx) (m : MemArg) (cells : List Loc),
    s.smmInstrValid = true → prefixesDefined pre = true → s.readsFrom pre m 10 cells →
    ∃ t r, exec (.rsts pre 0 (.mem m)) s = .next t ∧
      (∀ k l, cells[k]? = some l → mem80Byte r k = s.readLoc l) ∧
      s.onlyBase t { s.base with
        tr := r
        eip := s.base.eip + BitVec.ofNat 32 (Instr.rsts pre 0 (.mem m)).length }

/-- R178, R180: in real mode, SVDC followed by RSDC of the same register and operand leaves the register as it was, the
base registers but EIP and all memory outside the operand too. -/
def Obligations.SvdcRsdcRoundTrip : Prop :=
  ∀ (s : State) (pre : List Pfx) (sreg : BitVec 3) (n : SegName) (m : MemArg) (cells : List Loc),
    s.smmInstrValid = true → prefixesDefined pre = true → SegName.ofNum sreg = some n → n ≠ .cs →
    s.base.realMode = true → s.base.paging = false → s.a20m = false → s.operandCells pre m 10 = .ok cells →
    ∃ t u, exec (.svdc pre sreg (.mem m)) s = .next t ∧ exec (.rsdc pre sreg (.mem m)) t = .next u ∧
      u.base = { s.base with
        eip := s.base.eip + BitVec.ofNat 32 (2 * (Instr.svdc pre sreg (.mem m)).length) } ∧
      s.sameMemoryOutside u cells ∧ s.sameControl u ∧ u.smhr = s.smhr

/-! ### SMHR access (42_smhr_access.md) -/

/-- R210: RDSHR gives a general register all 32 bits of SMHR, or stores them, least significant byte first. -/
def Obligations.RdshrGivesSmhr : Prop :=
  ∀ (s : State) (pre : List Pfx), s.smmInstrValid = true → prefixesDefined pre = true →
    (∀ r : GReg, ∃ t, exec (.rdshr pre 0 (.reg r)) s = .next t ∧
      s.onlyBase t { s.base with
        gpr := s.base.gpr.set r s.smhr
        eip := s.base.eip + BitVec.ofNat 32 (pre.length + 3) }) ∧
    ∀ (m : MemArg) (cells : List Loc), s.operandCells pre m 4 = .ok cells →
      ∃ t, exec (.rdshr pre 0 (.mem m)) s = .next t ∧
        s.storedAt t cells (fun k => s.smhr.extractLsb' (8 * k) 8) (Instr.rdshr pre 0 (.mem m)).length

/-- R211: WRSHR loads all 32 bits of SMHR, the valid bit included, from a general register or from the four bytes of a
memory operand. -/
def Obligations.WrshrLoadsSmhr : Prop :=
  ∀ (s : State) (pre : List Pfx), s.smmInstrValid = true → prefixesDefined pre = true →
    (∀ r : GReg, ∃ t, exec (.wrshr pre 0 (.reg r)) s = .next t ∧ t.smhr = s.base.gpr.get r ∧
      t.base = { s.base with eip := s.base.eip + BitVec.ofNat 32 (pre.length + 3) } ∧
      s.sameControl t ∧ s.sameMemoryOutside t []) ∧
    ∀ (m : MemArg) (cells : List Loc), s.readsFrom pre m 4 cells →
      ∃ t, exec (.wrshr pre 0 (.mem m)) s = .next t ∧
        (∀ k l, cells[k]? = some l → t.smhr.extractLsb' (8 * k) 8 = s.readLoc l) ∧
        t.base = { s.base with eip := s.base.eip + BitVec.ofNat 32 (Instr.wrshr pre 0 (.mem m)).length } ∧
        s.sameControl t ∧ s.sameMemoryOutside t []

/-! ### SMM entry and return (41_smm_entry_exit.md, 60_exceptions.md) -/

/-- R191, R270: SMINT enters SMM: S = 1, H = 0, Next IP after the instruction, the header written below `HdrTop`. -/
def Obligations.SmintEnters : Prop :=
  ∀ (s : State) (pre : List Pfx) (st : StoreId),
    s.smintValid = true → prefixesDefined pre = true → s.headerFits st →
    ∃ t, exec (.smint pre) s = .next t ∧
      s.entered t ⟨.smint, some (s.base.eip + BitVec.ofNat 32 (pre.length + 2)), none, false⟩ st

/-- R270 to R273: an SMI taken from the pin enters SMM in the step at that boundary: S = 0, IS = 0, H = 1 exactly if the
core was halted or shut down, Next IP the interrupted EIP, the I/O fields those of the I/O instruction just executed. -/
def Obligations.PinEnters : Prop :=
  ∀ (s : State) (st : StoreId),
    s.pins.reset = false → s.pins.warmReset = false → s.smiTaken = true → s.settled.headerFits st →
    ∃ t, step s = .next t ∧
      s.settled.entered t
        ⟨.pin, if s.base.activity = .shutdown then none else some s.base.eip, s.lastIo,
          decide (s.base.activity ≠ .running)⟩ st ∧
      (s.cfg.smmMode = false → t.smiLatched = false) ∧ t.nmiLatched = s.nmiArrived

/-- R68, R270: the pointer an entry uses is SMHR's when its valid bit is set, else the region's top, modulo 2^32. -/
def Obligations.EntryPointer : Prop :=
  ∀ s : State,
    (s.smhr.getLsbD 0 = true → smhrForEntry s.cfg s.smhr = s.smhr) ∧
    (s.smhr.getLsbD 0 = false →
      (smhrForEntry s.cfg s.smhr).getLsbD 0 = true ∧ (smhrForEntry s.cfg s.smhr).getLsbD 1 = false ∧
      s.entryTop.getLsbD 0 = false ∧ s.entryTop.getLsbD 1 = false ∧
      s.entryTop = s.cfg.smarBase + BitVec.ofNat 32 s.cfg.smarSize)

/-- R192: RSM loads CS, EIP, EFLAGS, CR0 (NW kept under LOCK_NW), DR7 and CPL from the header as it stands in memory, sets
`in_smm` to the N field and CCR6.N to 1; all else stays (R194). -/
def Obligations.RsmResumes : Prop :=
  ∀ (s : State) (pre : List Pfx) (st : StoreId) (dr7 eflags cr0 nextIp flags : Dword) (sel : Word16) (desc : Qword),
    s.smmInstrValid = true → prefixesDefined pre = true → s.smhr.getLsbD 0 = true →
    s.placedBelow st (hdrTop s.smhr) 0x24 →
    s.fieldIs st (hdrTop s.smhr - 0x04) 4 dr7.toNat → s.fieldIs st (hdrTop s.smhr - 0x08) 4 eflags.toNat →
    s.fieldIs st (hdrTop s.smhr - 0x0C) 4 cr0.toNat → s.fieldIs st (hdrTop s.smhr - 0x14) 4 nextIp.toNat →
    s.fieldIs st (hdrTop s.smhr - 0x18) 2 sel.toNat → s.fieldIs st (hdrTop s.smhr - 0x20) 8 desc.toNat →
    s.fieldIs st (hdrTop s.smhr - 0x24) 4 flags.toNat →
    exec (.rsm pre) s = .next { s with
      base := { s.base with
        dr7 := dr7
        eflags := eflags
        cr0 := if s.cfg.lockNw then setBit cr0 29 (s.base.cr0.getLsbD 29) else cr0
        eip := nextIp
        seg := s.base.seg.set .cs ⟨sel, desc⟩
        cpl := (flags >>> hdrCplPos).setWidth 2 }
      inSmm := flags.getLsbD hdrNPos
      cfg := { s.cfg with ccr6 := s.cfg.ccr6 ||| 0x40 }
      staleCode := []
      lastIo := none }

/-- R192, R197: RSM with SMHR's valid bit clear has no meaning and is refused (decision D37). -/
def Obligations.RsmNeedsValidSmhr : Prop :=
  ∀ (s : State) (pre : List Pfx), s.smmInstrValid = true → prefixesDefined pre = true → s.smhr.getLsbD 0 = false →
    exec (.rsm pre) s = .refused .smhrInvalid

/-- R281, R286: an entry followed at once by RSM resumes the interrupted program: every base register as before, EIP at
Next IP, the mode as before, memory outside the header as before, SMHR kept, CCR6.N set. -/
def Obligations.EntryThenResume : Prop :=
  ∀ (s : State) (a : EntryArgs) (n : Dword) (st : StoreId),
    s.cfg.smmConfigured = true → a.nextIp = some n → s.headerFits st →
    ∃ t u, s.enterSmm a = .ok t ∧ exec (.rsm []) t = .next u ∧
      u.base = { s.base with eip := n, activity := .running } ∧ u.inSmm = s.inSmm ∧
      u.cfg = { s.cfg with ccr6 := s.cfg.ccr6 ||| 0x40 } ∧ u.smhr = smhrForEntry s.cfg s.smhr ∧
      s.sameMemoryOutside u (cellsBelow st s.entryTop 48) ∧ u.cfgIndex = s.cfgIndex ∧
      u.smiLatched = s.smiLatched ∧ u.nmiLatched = s.nmiLatched

/-! ### Recognition at the boundary (60_exceptions.md sections 2 and 4) -/

/-- R263: while `SmiPinEnabled` is false the pin is ignored: no SMI is taken and no edge is remembered (the latch is set
afterwards only if it was before). -/
def Obligations.PinIgnored : Prop :=
  ∀ s : State,
    (s.smiPinEnabled = true ↔ s.cfg.ccr1.getLsbD 1 = true ∧ s.cfg.ccr1.getLsbD 2 = false ∧
      s.cfg.arrCF.extractLsb' 0 4 ≠ 0 ∧ s.cfg.ccr1.getLsbD 7 = true) ∧
    (s.smiPinEnabled = false → s.smiTaken = false ∧ (s.smiLatchAfter = true → s.smiLatched = true))

/-- R264: SL-compatible mode: an edge or a set latch makes an SMI taken outside SMM with the configuration window closed;
an edge that finds SMM or the window open sets the latch, and a set latch stays set (R72) until an SMI is taken. A
debug-register breakpoint still to be delivered goes first, and an edge that finds it sets the latch (the model's choice:
log entry 48). -/
def Obligations.SlRecognition : Prop :=
  ∀ s : State, s.cfg.smmMode = false → s.smiPinEnabled = true →
    (s.smiTaken = true ↔ s.debugServed = false ∧ s.inSmm = false ∧ s.cfgIndex = none ∧
      ((s.pins.smiLow = true ∧ s.smiLow = false) ∨ s.smiLatched = true)) ∧
    (s.pins.smiLow = true → s.smiLow = false → (s.inSmm = true ∨ s.cfgIndex ≠ none ∨ s.debugServed = true) →
      s.smiLatchAfter = true) ∧
    (s.smiLatched = true → s.smiTaken = false → s.smiLatchAfter = true) ∧
    (s.smiTaken = true → s.smiLatchAfter = false)

/-- R265: Cyrix Enhanced mode: a low level is taken with the window closed, outside SMM or with N = 1; a debug-register
breakpoint still to be delivered goes first (the model's choice: log entry 48). -/
def Obligations.EnhancedRecognition : Prop :=
  ∀ s : State, s.cfg.smmMode = true →
    (s.smiTaken = true ↔ s.debugServed = false ∧ s.pins.smiLow = true ∧ s.smiPinEnabled = true ∧ s.cfgIndex = none ∧
      (s.inSmm = false ∨ s.cfg.ccr6.getLsbD 6 = true))

/-- R278: inside SMM with NMI_EN = 0 an NMI that arrives or is latched is latched after the step, whatever the step does
short of a reset. -/
def Obligations.NmiHeldInSmm : Prop :=
  ∀ s t : State, s.inSmm = true → s.cfg.ccr3.getLsbD 1 = false → s.pins.reset = false → s.pins.warmReset = false →
    (s.pins.nmi = true ∨ s.nmiLatched = true) → step s = .next t → t.nmiLatched = true

/-- Where no SMI is taken, an NMI that arrives or is latched is delivered in that step outside SMM, or inside it with
NMI_EN = 1, and the latch is cleared. R267, R278, R285: inside SMM with NMI_EN = 1 it is served, and after an SMI. The
model's choice (log entry 8): outside SMM R278 leaves NMI to `Base`, and that one is always delivered there, `Base`'s own
masking of a second NMI until IRET not being modelled, is unsafe; and none is delivered in the shutdown state. The model's
choice (log entry 48): a debug-register breakpoint still to be delivered goes first, and the NMI is latched. Either
delivery ends a halt (R228). -/
def Obligations.NmiDelivered : Prop :=
  ∀ s : State, s.pins.reset = false → s.pins.warmReset = false → s.smiTaken = false →
    (s.inSmm = false ∨ s.cfg.ccr3.getLsbD 1 = true) → (s.pins.nmi = true ∨ s.nmiLatched = true) →
    s.base.activity ≠ .shutdown →
    (s.debugTrap = false → step s = outcome (s.settled.deliver .nmi) ∧ s.settled.nmiLatched = false) ∧
    (s.debugTrap = true → step s = outcome (s.settled.deliver .debugBreakpoint) ∧ s.settled.nmiLatched = true) ∧
    ∀ t b, step s = .next t → t.base.activity ≠ .halted b

/-- R277, R274, R303: after an entry no INTR is served at the boundary, IF being clear, and no debug-register breakpoint
is taken, DR7 enabling none. -/
def Obligations.EntryMasksIntrAndBreakpoints : Prop :=
  ∀ (s t : State) (a : EntryArgs), s.enterSmm a = .ok t →
    t.intrServed = none ∧ t.base.dr7 = 0x00000400 ∧ t.debugMatch = .none

/-! ### Memory (20_memory.md) -/

/-- R104: an access reaches SMM memory when USE_SMI = 1, its address lies in the region, and the CPU is in SMM or SMAC = 1,
and normal memory otherwise; an access whose bytes do not all route to the same memory has no meaning. (With A20M#
asserted the compared address is the one of R106.) -/
def Obligations.Routing : Prop :=
  ∀ s : State, (s.cfg.smarOn = true → s.cfg.smarAligned = true) →
    (∀ pa, s.cfg.useSmi = true ∧ s.cfg.inSmar (s.regionTestAddr pa) = true ∧ (s.inSmm = true ∨ s.cfg.smac = true) →
      s.locate pa = .ok ⟨.smm, pa⟩) ∧
    (∀ pa, ¬ (s.cfg.useSmi = true ∧ s.cfg.inSmar (s.regionTestAddr pa) = true ∧ (s.inSmm = true ∨ s.cfg.smac = true)) →
      s.locate pa = .ok ⟨.normal, s.maskedAddr pa⟩) ∧
    (s.a20m = false → ∀ pa, s.regionTestAddr pa = pa ∧ s.maskedAddr pa = pa) ∧
    (∀ pa pb l k, s.locate pa = .ok l → s.locate pb = .ok k → l.store ≠ k.store →
      s.locateAccess [pa, pb] = .error .regionStraddle)

/-- R64, R65, R66: the base CDh : CEh : CFh[7:4] : 000h, the sizes the source states (SIZE 0 is no region, 3 is 16 KBytes,
Fh is 4 GBytes) and the range of the others, `SmarOn`, and the region predicate, compared as unsigned integers without
wrap-around. -/
def Obligations.RegionTest : Prop :=
  ∀ c : CfgRegs,
    c.smarBase.toNat = c.arrCD.toNat * 2 ^ 24 + c.arrCE.toNat * 2 ^ 16 + c.arrCF.toNat / 16 * 2 ^ 12 ∧
    (c.arrCF.toNat % 16 = 0 → c.smarOn = false) ∧
    (c.arrCF.toNat % 16 = 3 → c.smarSize = 16 * 1024) ∧
    (c.arrCF.toNat % 16 = 15 → c.smarSize = 2 ^ 32) ∧
    (c.arrCF.toNat % 16 ≠ 0 → ∃ e, 12 ≤ e ∧ e ≤ 32 ∧ c.smarSize = 2 ^ e) ∧
    (c.smarOn = true ↔ c.ccr1.getLsbD 7 = true ∧ c.arrCF.extractLsb' 0 4 ≠ 0) ∧
    ∀ pa : Dword, c.inSmar pa = true ↔
      c.smarOn = true ∧ c.smarBase.toNat ≤ pa.toNat ∧ pa.toNat - c.smarBase.toNat < c.smarSize

/-- R123: what one write access stored is what a read of the same addresses gives, and no other byte changes. -/
def Obligations.WriteThenRead : Prop :=
  ∀ (s t : State) (acc : List (Dword × Byte)) (cells : List Loc),
    s.writableLocs (acc.map Prod.fst) = .ok cells → cells.Nodup → s.writeAccess acc = .ok t →
    t.readAccess (acc.map Prod.fst) = .ok (acc.map Prod.snd) ∧ s.sameMemoryOutside t cells

/-- R129: outside SMM a write that has a byte at an address of the ARR3 region is refused while WP_ARR3 = 1 and ARR3 is
in force (by SM3 or ARREN: log entry 6), as protected where its bytes are routed to one memory. -/
def Obligations.WriteProtection : Prop :=
  ∀ (s : State) (acc : List (Dword × Byte)) (pa : Dword), s.inSmm = false → s.cfg.ccr6.getLsbD 1 = true →
    (s.cfg.ccr1.getLsbD 7 = true ∨ s.cfg.ccr5.getLsbD 5 = true) → s.cfg.smarAligned = true →
    pa ∈ acc.map Prod.fst → s.cfg.inArr3 pa = true →
    (∃ r, s.writeAccess acc = .error r) ∧
    ∀ ls, s.locateAccess (acc.map Prod.fst) = .ok ls →
      s.writableLocs (acc.map Prod.fst) = .error .writeProtected ∧ s.writeAccess acc = .error .writeProtected

/-- The invariant holds at reset: both memories are in canonical form. -/
def Obligations.ResetMemoriesWf : Prop :=
  State.reset.memoriesWf

/-- Every step keeps the invariant: both memories stay in canonical form. -/
def Obligations.StepKeepsMemoriesWf : Prop :=
  ∀ s t : State, s.memoriesWf → step s = .next t → t.memoriesWf

/-! ### Configuration ports (43_base_instructions_used.md section 1) -/

/-- R221: a one-byte write to port 22h fills the window, replacing an earlier index; a read of 22h goes off chip and leaves
it; an access wider than one byte that touches 22h or 23h is refused. -/
def Obligations.IndexPort : Prop :=
  ∀ (s : State) (v : Dword),
    s.ioWrite 0x22 .byte v = .ok { s with cfgIndex := some (v.setWidth 8) } ∧
    s.ioRead 0x22 .byte = .ok (s.offChipRead 0x22 .byte) ∧
    (s.offChipRead 0x22 .byte).2.cfgIndex = s.cfgIndex ∧ (s.offChipRead 0x22 .byte).2.cfg = s.cfg ∧
    (∀ (p : Word16) (w : Width), w ≠ .byte → p.toNat ≤ 0x23 → 0x22 < p.toNat + w.bytes →
      s.ioWrite p w v = .error .widePortAccess ∧ s.ioRead p w = .error .widePortAccess)

/-- R222: what a write of a configuration register does, by index, under the lock and without it; any other index is
refused. -/
def Obligations.ConfigWrite : Prop :=
  ∀ (s : State) (v : Byte),
    let locked := s.cfg.ccr3.getLsbD 0 && !s.inSmm
    s.cfgWrite 0xC0 v = .ok { s with cfg := { s.cfg with ccr0 := v } } ∧
    s.cfgWrite 0xC1 v = .ok { s with cfg := { s.cfg with
      ccr1 := if locked then (v &&& 0x71) ||| (s.cfg.ccr1 &&& 0x8E) else v } } ∧
    s.cfgWrite 0xC2 v = .ok { s with cfg := { s.cfg with ccr2 := v } } ∧
    (∃ n : Byte, s.cfgWrite 0xC3 v = .ok { s with cfg := { s.cfg with ccr3 := n } } ∧
      n.getLsbD 0 = (s.cfg.ccr3.getLsbD 0 || v.getLsbD 0) ∧
      n.getLsbD 1 = (if locked then s.cfg.ccr3.getLsbD 1 else v.getLsbD 1) ∧
      ∀ k, 2 ≤ k → n.getLsbD k = v.getLsbD k) ∧
    (∀ (idx : Byte) (c : CfgRegs), (idx = 0xCD ∧ c = { s.cfg with arrCD := v } ∨
        idx = 0xCE ∧ c = { s.cfg with arrCE := v } ∨ idx = 0xCF ∧ c = { s.cfg with arrCF := v }) →
      s.cfgWrite idx v = .ok (if locked then s else { s with cfg := c, smhr := s.smhr &&& 0xFFFFFFFE })) ∧
    s.cfgWrite 0xE8 v = .ok { s with cfg := { s.cfg with ccr4 := v } } ∧
    s.cfgWrite 0xE9 v = .ok { s with cfg := { s.cfg with ccr5 := v } } ∧
    (v.getLsbD 0 = s.cfg.ccr6.getLsbD 0 ∨ s.inSmm = false →
      s.cfgWrite 0xEA v = .ok { s with cfg := { s.cfg with ccr6 := v } }) ∧
    (v.getLsbD 0 ≠ s.cfg.ccr6.getLsbD 0 → s.inSmm = true → s.cfgWrite 0xEA v = .error .smmModeChangeInSmm) ∧
    ∀ idx : Byte, idx ∉ [0xC0, 0xC1, 0xC2, 0xC3, 0xCD, 0xCE, 0xCF, 0xE8, 0xE9, 0xEA] →
      s.cfgWrite idx v = .error .undefinedConfigIndex

/-- R222, R223, R225: a byte access to port 23h with an accessible index reaches that register and closes the window, each
index that the source defines reading as its register and any other being refused; with no index the access goes off
chip, which changes no configuration register, SMHR or window. -/
def Obligations.DataPort : Prop :=
  ∀ (s : State) (v : Dword),
    (∀ idx u, s.cfgIndex = some idx → accessible s.cfg idx = .ok true → s.cfgWrite idx (v.setWidth 8) = .ok u →
      s.ioWrite 0x23 .byte v = .ok { u with cfgIndex := none }) ∧
    (∀ idx b, s.cfgIndex = some idx → accessible s.cfg idx = .ok true → cfgRead s.cfg idx = .ok b →
      s.ioRead 0x23 .byte = .ok (b.setWidth 32, { s with cfgIndex := none })) ∧
    (∀ idx, s.cfgIndex = some idx → accessible s.cfg idx = .ok true → cfgRead s.cfg idx = .error .undefinedConfigIndex →
      s.ioRead 0x23 .byte = .error .undefinedConfigIndex) ∧
    (cfgRead s.cfg 0xC0 = .ok s.cfg.ccr0 ∧ cfgRead s.cfg 0xC1 = .ok s.cfg.ccr1 ∧ cfgRead s.cfg 0xC2 = .ok s.cfg.ccr2 ∧
      cfgRead s.cfg 0xC3 = .ok s.cfg.ccr3 ∧ cfgRead s.cfg 0xCD = .ok s.cfg.arrCD ∧
      cfgRead s.cfg 0xCE = .ok s.cfg.arrCE ∧ cfgRead s.cfg 0xCF = .ok s.cfg.arrCF ∧
      cfgRead s.cfg 0xE8 = .ok s.cfg.ccr4 ∧ cfgRead s.cfg 0xE9 = .ok s.cfg.ccr5 ∧ cfgRead s.cfg 0xEA = .ok s.cfg.ccr6 ∧
      ∀ idx : Byte, idx ∉ [0xC0, 0xC1, 0xC2, 0xC3, 0xCD, 0xCE, 0xCF, 0xE8, 0xE9, 0xEA] →
        cfgRead s.cfg idx = .error .undefinedConfigIndex) ∧
    (s.cfgIndex = none →
      s.ioWrite 0x23 .byte v = .ok (s.offChipWrite 0x23 .byte v) ∧ s.ioRead 0x23 .byte = .ok (s.offChipRead 0x23 .byte)) ∧
    (s.offChipWrite 0x23 .byte v).ioTrace = ⟨true, 0x23, .byte, v &&& 0xFF⟩ :: s.ioTrace ∧
    (s.offChipRead 0x23 .byte).2.ioTrace = ⟨false, 0x23, .byte, (s.offChipRead 0x23 .byte).1⟩ :: s.ioTrace ∧
    ∀ u, u = s.offChipWrite 0x23 .byte v ∨ u = (s.offChipRead 0x23 .byte).2 →
      u.cfg = s.cfg ∧ u.smhr = s.smhr ∧ u.cfgIndex = s.cfgIndex

/-- R224: the indexes accessible with MAPEN = 0h and 1h, an access to port 23h refused with the other values (log entry
39), and an access to an index that is not accessible directed off chip, the window emptied. -/
def Obligations.AccessibleIndexes : Prop :=
  ∀ (s : State) (idx : Byte) (v : Dword),
    (s.cfg.mapen = 0 → accessible s.cfg idx =
      .ok (decide (0xC0 ≤ idx.toNat ∧ idx.toNat ≤ 0xCF ∨ idx = 0xFE ∨ idx = 0xFF))) ∧
    (s.cfg.mapen = 1 → accessible s.cfg idx = .ok true) ∧
    (s.cfg.mapen ≠ 0 → s.cfg.mapen ≠ 1 → accessible s.cfg idx = .error .undefinedMapen ∧
      (s.cfgIndex = some idx →
        s.ioWrite 0x23 .byte v = .error .undefinedMapen ∧ s.ioRead 0x23 .byte = .error .undefinedMapen)) ∧
    (s.cfgIndex = some idx → accessible s.cfg idx = .ok false →
      s.ioWrite 0x23 .byte v = .ok (({ s with cfgIndex := none } : State).offChipWrite 0x23 .byte v) ∧
      s.ioRead 0x23 .byte = .ok (({ s with cfgIndex := none } : State).offChipRead 0x23 .byte))

/-- R227, R273: in real mode, where the model permits I/O (log entry 16), an OUT whose port write completes advances
EIP, leaves the other base registers, and is the I/O instruction an SMI at the next boundary describes: its own offset,
port, size, data and ESI. -/
def Obligations.OutDescribed : Prop :=
  ∀ (s u : State) (w : Width) (p : PortArg) (len : Nat),
    s.base.realMode = true →
    s.ioWrite (p.value s.base.gpr) w (s.base.gpr.part w 0) = .ok u →
    s.execBase (.outPort w p) len = .next { u with
      base := { s.base with eip := s.base.eip + BitVec.ofNat 32 len }
      lastIo := some ⟨s.base.eip, false, true, w, p.value s.base.gpr, s.base.gpr.part w 0, s.base.gpr.esi⟩ }

/-- R227, R271, R273: in real mode an iteration of REP OUTS whose accesses complete leaves EIP at the instruction, counts
ECX (or CX) down, and is described with P = 1, the port, the element written, and ESI as it was before (one step for one
iteration: decision D36, log entry 17). That CX and SI count and move under 16-bit addressing, and that the source segment
is DS or the overriding one, is the model's presumption (log entry 35). -/
def Obligations.RepOutsIteration : Prop :=
  ∀ (s u : State) (w : Width) (a32 : Bool) (pre : List Pfx) (len : Nat) (bs : List Byte),
    s.base.realMode = true → s.base.gpr.sized a32 .ecx ≠ 0 →
    s.segRead (s.base.seg.get ((overrideSeg pre).getD .ds))
      (stringOffsets a32 (s.base.gpr.sized a32 .esi) w.bytes) = .ok bs →
    s.ioWrite (s.base.gpr.get16 .edx) w (BitVec.ofNat 32 (ofLE bs)) = .ok u →
    ∃ t i, s.execBase (.outsString w true a32 pre) len = .next t ∧ t.base.eip = s.base.eip ∧
      t.base.gpr.sized a32 .ecx = s.base.gpr.sized a32 .ecx - 1 ∧
      t.lastIo = some i ∧ i.curIp = s.base.eip ∧ i.rep = true ∧ i.write = true ∧ i.size = w ∧
      i.port = s.base.gpr.get16 .edx ∧ i.data = BitVec.ofNat 32 (ofLE bs) ∧ i.esiEdi = s.base.gpr.esi ∧
      t.normal = u.normal ∧ t.smm = u.smm ∧ t.cfg = u.cfg

/-- R228, R50: HLT at CPL 0 (log entry 16) halts the core past its own length, in suspend mode exactly if SUSP_HALT = 1.
R235, R293: in protected mode with no GDT set up an attempt to load a selector register shuts the CPU down: a MOV, a far
jump, a far return, and the other loads. The model's choice (log entry 56): that a GDTR limit below 7 means no GDT, that
the operands are read first, and that EIP and every other register stay. -/
def Obligations.HaltAndShutdown : Prop :=
  (∀ (s : State) (len : Nat), s.base.cpl = 0 → ∃ t, s.execBase .hlt len = .next t ∧
    t.base.activity = .halted (s.cfg.ccr2.getLsbD 3) ∧ t.base.eip = s.base.eip + BitVec.ofNat 32 len ∧
    t.base.gpr = s.base.gpr ∧ t.base.seg = s.base.seg ∧ t.smhr = s.smhr ∧ s.sameControl t ∧ s.sameMemoryOutside t []) ∧
  (∀ s : State, s.base.gdtr.limit.toNat < 7 → s.noGdt = true) ∧
  ∀ (s : State) (i : BaseInstr) (len : Nat), s.base.cr0.getLsbD 0 = true → s.base.eflags.getLsbD 17 = false →
    s.noGdt = true →
    ((∃ sreg rm pre v, sreg.toNat ∈ [0, 2, 3, 4, 5] ∧ i = .loadSeg sreg rm pre ∧ s.readRm .word rm pre = .ok v) ∨
      (∃ w sel off, i = .jmpFar w sel off) ∨
      (∃ w extra off sel, i = .retFar w extra ∧ s.popValue 0 w.bytes = .ok off ∧ s.popValue w.bytes w.bytes = .ok sel) ∨
      ∃ src v, i = .loadSelector src ∧ s.readSelector src = .ok v) →
    ∃ t, s.execBase i len = .next t ∧ s.onlyBase t { s.base with activity := .shutdown }

/-- R239: in real mode a far return, RET or IRET, reloads CS with the selector found on the stack and with 16 times it as
the base, limit and rights kept; a near return, like a near jump, leaves CS. The model's choice: the words' places on the
stack, the cut of EIP to the operand size, IRET's IF from the flags popped (presumed: log entry 50), and that the return
completes for every target popped, beyond CS's limit too (log entry 51). -/
def Obligations.ReturnsReloadCs : Prop :=
  ∀ (s : State) (w : Width) (extra : Word16) (len : Nat) (off sel fl : Dword),
    s.popValue 0 w.bytes = .ok off →
    (∃ t, s.execBase (.retNear w extra) len = .next t ∧ t.base.eip = w.trunc off ∧ t.base.seg = s.base.seg ∧
      (∀ r, r ≠ .esp → t.base.gpr.get r = s.base.gpr.get r) ∧
      s.sameControl t ∧ t.smhr = s.smhr ∧ s.sameMemoryOutside t []) ∧
    (s.base.realMode = true → s.popValue w.bytes w.bytes = .ok sel →
      (∃ t, s.execBase (.retFar w extra) len = .next t ∧ t.base.eip = w.trunc off ∧
        t.base.seg.cs.sel = sel.setWidth 16 ∧ t.base.seg.cs.base.toNat = 16 * (sel.toNat % 2 ^ 16) ∧
        t.base.seg.cs.limit = s.base.seg.cs.limit ∧ t.base.seg.cs.rights = s.base.seg.cs.rights ∧
        t.base.seg.ss = s.base.seg.ss ∧ (∀ r, r ≠ .esp → t.base.gpr.get r = s.base.gpr.get r) ∧
        s.sameControl t ∧ t.smhr = s.smhr ∧ s.sameMemoryOutside t []) ∧
      (s.popValue (2 * w.bytes) w.bytes = .ok fl →
        ∃ t, s.execBase (.iret w) len = .next t ∧ t.base.eip = w.trunc off ∧
          t.base.seg.cs.sel = sel.setWidth 16 ∧ t.base.seg.cs.base.toNat = 16 * (sel.toNat % 2 ^ 16) ∧
          t.base.seg.cs.limit = s.base.seg.cs.limit ∧ t.base.seg.cs.rights = s.base.seg.cs.rights ∧
          t.base.seg.ss = s.base.seg.ss ∧ (∀ r, r ≠ .esp → t.base.gpr.get r = s.base.gpr.get r) ∧
          t.base.eflags.getLsbD 9 = fl.getLsbD 9 ∧ t.inSmm = s.inSmm ∧
          s.sameControl t ∧ t.smhr = s.smhr ∧ s.sameMemoryOutside t []))

/-- R234, R31: the 32-bit protected-mode form of the FPU image is the one that holds all of it: after a save and a restore
over any FPU a pending exception is pending as before and every byte of the image is there again (but for the bit that
says whether an exception is pending, where the image disagreed with the FPU); and what was restored is saved as it
was. That one bit of the image says so is the model's choice (log entry 49). FNINIT, with EM and TS clear (log entry 49),
completes with no exception pending (the model's deduction from "a valid state": log entry 49) and changes nothing else;
WAIT, the waiting part of FSAVE, hands a pending unmasked exception to `Base` (R294) and else advances. -/
def Obligations.FpuStateKept : Prop :=
  (∀ b : BaseRegs, ∀ w : Width, (b.fpuForm w).full = true ↔ b.realMode = false ∧ b.v86Mode = false ∧ w = .dword) ∧
  (∀ (f g : Fpu) (form : FpuForm), form.full = true →
    (g.restored form (f.saved form)).pendingUnmasked = f.pendingUnmasked ∧
    (∀ (k : Nat) (x : Byte), k < form.imageSize → f.image[k]? = some x →
      (k = form.pendingPlace.1 → x.getLsbD form.pendingPlace.2 = f.pendingUnmasked) →
      (g.restored form (f.saved form)).image[k]? = some x) ∧
    (∀ (k b : Nat) (x : Byte), k < form.imageSize → f.image[k]? = some x → (k, b) ≠ form.pendingPlace →
      ∃ y, (g.restored form (f.saved form)).image[k]? = some y ∧ y.getLsbD b = x.getLsbD b) ∧
    ∀ bs : List Byte, bs.length = form.imageSize → (g.restored form bs).saved form = bs) ∧
  ∀ (s : State) (len : Nat), s.base.cr0.getLsbD 2 = false → s.base.cr0.getLsbD 3 = false →
    (∃ t f, s.execBase .fnInit len = .next t ∧ f.pendingUnmasked = false ∧
      t.base = { s.base with fpu := f, eip := s.base.eip + BitVec.ofNat 32 len } ∧
      s.sameControl t ∧ t.smhr = s.smhr ∧ s.sameMemoryOutside t []) ∧
    (s.base.fpu.pendingUnmasked = true → s.execBase .wait len = outcome (s.deliver .fpuException)) ∧
    (s.base.fpu.pendingUnmasked = false → ∃ t, s.execBase .wait len = .next t ∧
      t.base = { s.base with eip := s.base.eip + BitVec.ofNat 32 len } ∧
      s.sameControl t ∧ t.smhr = s.smhr ∧ s.sameMemoryOutside t [])

/-! ### Reset (10_state.md R80, 70_reset_and_hazards.md R320) -/

/-- R80, the rows it states: EFLAGS, CR0, DR7, the configuration bits related to SMM and power management, IORT, ARR3, the
valid bit, the window, the mode and the latches. -/
def Obligations.ResetValues : Prop :=
  State.reset.base.eflags = 0x00000002 ∧ State.reset.base.cr0 = 0x60000010 ∧ State.reset.base.dr7 = 0x00000400 ∧
  State.reset.cfg.useSmi = false ∧ State.reset.cfg.smac = false ∧ State.reset.cfg.mmac = false ∧
  State.reset.cfg.sm3 = false ∧ State.reset.cfg.ccr2.getLsbD 7 = false ∧ State.reset.cfg.suspHalt = false ∧
  State.reset.cfg.smiLock = false ∧ State.reset.cfg.nmiEn = false ∧
  State.reset.cfg.ccr4.extractLsb' 0 3 = 5 ∧ State.reset.cfg.smmMode = false ∧ State.reset.cfg.nest = false ∧
  State.reset.cfg.wpArr3 = false ∧ State.reset.cfg.arrCD = 0 ∧ State.reset.cfg.arrCE = 0 ∧
  State.reset.cfg.arrCF = 0 ∧ State.reset.smhr.getLsbD 0 = false ∧ State.reset.cfgIndex = none ∧
  State.reset.inSmm = false ∧ State.reset.smiLatched = false ∧ State.reset.nmiLatched = false

/-- R320: a step that samples RESET leaves the configuration, the mode, the window and the latches of reset, so that the
SMI# pin is ignored and all ten SMM instructions raise the invalid-opcode exception. What R80 leaves unstated among
them takes the values the model names (log entry 1). -/
def Obligations.ResetPinDisablesSmm : Prop :=
  ∀ s : State, s.pins.reset = true → ∃ t, step s = .next t ∧ t.base = BaseRegs.reset ∧ t.cfg = CfgRegs.reset ∧
    t.smhr.getLsbD 0 = false ∧ t.cfgIndex = none ∧ t.inSmm = false ∧ t.smiLatched = false ∧ t.nmiLatched = false ∧
    t.smiPinEnabled = false ∧ ∀ i, exec i t = raiseInvalidOpcode t

/-! ### Rules of the whole machine -/

/-- R52: while SMI_LOCK = 1 and the CPU is not in SMM, no step but RESET changes USE_SMI, SMAC, MMAC, SM3, NMI_EN or ARR3. -/
def Obligations.LockHoldsSettings : Prop :=
  ∀ s t : State, s.cfg.smiLock = true → s.inSmm = false → s.pins.reset = false → step s = .next t →
    t.cfg.lockedSettings = s.cfg.lockedSettings

/-- R52: once set, SMI_LOCK is cleared by no step but RESET, in SMM or outside it. -/
def Obligations.LockStaysSet : Prop :=
  ∀ s t : State, s.cfg.smiLock = true → s.pins.reset = false → step s = .next t → t.cfg.smiLock = true

/-- R305, R104: with SMAC = 0, a step of normal mode that does not enter SMM leaves SMM memory as it was. That it survives a
sampled RESET and WM_RST as well is the model's choice (log entries 42 and 9). -/
def Obligations.NormalModeKeepsSmmMemory : Prop :=
  ∀ s t : State, s.inSmm = false → s.cfg.smac = false → step s = .next t → t.inSmm = false → t.smm = s.smm

/-- R305, R104: with SMAC = 0, a step of normal mode at which no SMI is taken does not depend on SMM memory: with other
contents there it answers the same, but for those contents. For base instructions the spec does not describe this is
the model's frame of `Base` (log entry 27); that a sampled RESET or WM_RST leaves SMM memory is the model's choice (log
entries 42 and 9). -/
def Obligations.NormalModeCannotReadSmmMemory : Prop :=
  ∀ (s t : State) (m : Memory), s.inSmm = false → s.cfg.smac = false → s.smiTaken = false → step s = .next t →
    step { s with smm := m } = .next { t with smm := m }

/-- R260, R281: SMM is left only by RSM (or a reset): a step from SMM to normal mode runs RSM. -/
def Obligations.OnlyRsmLeavesSmm : Prop :=
  ∀ s t : State, s.inSmm = true → step s = .next t → t.inSmm = false →
    s.pins.reset = true ∨ s.pins.warmReset = true ∨ ∃ pre, s.runs (.rsm pre)

/-- R260, R262: SMM is entered only by an SMI, from the pin or by SMINT, by RSM through a header whose N field is 1
(decision D26), or by WM_RST, which is open (decision D40). -/
def Obligations.SmmEnteredOnlyBySmiRsmOrWarmReset : Prop :=
  ∀ s t : State, s.inSmm = false → step s = .next t → t.inSmm = true →
    s.pins.warmReset = true ∨ s.smiTaken = true ∨ (∃ pre, s.runs (.smint pre)) ∨
      ∃ pre h, s.runs (.rsm pre) ∧ s.settled.readHeader (hdrTop s.smhr) = .ok h ∧ headerN h.flags = true

/-- R213: SMHR changes only by RESET, by an SMM entry that found its valid bit clear, by WRSHR, or by a write to ARR3 (a
byte written to port 23h with index CDh, CEh or CFh selected), which clears its valid bit. -/
def Obligations.OnlyTheseChangeSmhr : Prop :=
  ∀ s t : State, step s = .next t → t.smhr ≠ s.smhr →
    (s.pins.reset = true ∧ t.smhr.getLsbD 0 = false) ∨
    (s.smhr.getLsbD 0 = false ∧ t.smhr = smhrForEntry s.cfg s.smhr ∧ (s.smiTaken = true ∨ ∃ pre, s.runs (.smint pre))) ∨
    (∃ pre reg rm, s.runs (.wrshr pre reg rm)) ∨ (s.goesOn ∧ s.wroteArr3 t)

/-- R49, R28: while LOCK_NW = 1 no step but a reset changes CR0.NW. -/
def Obligations.NwLocked : Prop :=
  ∀ s t : State, s.cfg.ccr2.getLsbD 2 = true → s.pins.reset = false → s.pins.warmReset = false → step s = .next t →
    t.base.cr0.getLsbD 29 = s.base.cr0.getLsbD 29
end

