-- ==== Sys2Proof/Laws/Bits.lean ====
section
/-!
SUPPORT. Byte order and bit fields: `toLE` and `ofLE` undo each other, `setBit` writes its bit only, a mem80 holds the
register it was made from; reading and writing a register of a file.
-/
namespace Sys2Proof

theorem toLE_length (n v : Nat) : (toLE n v).length = n := by
  induction n generalizing v with
  | zero => rfl
  | succ n ih => simp [toLE, ih]

theorem toLE_getElem (n v k : Nat) (h : k < (toLE n v).length) : (toLE n v)[k] = BitVec.ofNat 8 (v / 256 ^ k) := by
  induction n generalizing v k with
  | zero => simp [toLE] at h
  | succ n ih =>
    cases k with
    | zero => simp [toLE]
    | succ k =>
      simp only [toLE, List.getElem_cons_succ]
      rw [ih, Nat.div_div_eq_div_mul, ← Nat.pow_succ']

theorem ofLE_toLE (n v : Nat) : ofLE (toLE n v) = v % 256 ^ n := by
  induction n generalizing v with
  | zero => simp [toLE, ofLE, Nat.mod_one]
  | succ n ih =>
    simp only [toLE, ofLE, ih, BitVec.toNat_ofNat]
    rw [show 256 ^ (n + 1) = 256 * 256 ^ n from Nat.pow_succ', Nat.mod_mul, show (2 ^ 8 : Nat) = 256 from rfl]

theorem ofLE_append (as bs : List Byte) : ofLE (as ++ bs) = ofLE as + 256 ^ as.length * ofLE bs := by
  induction as with
  | nil => simp [ofLE]
  | cons a as ih => simp only [List.cons_append, ofLE, ih, List.length_cons, Nat.pow_succ]; ring

theorem ofLE_lt (bs : List Byte) : ofLE bs < 256 ^ bs.length := by
  induction bs with
  | nil => simp [ofLE]
  | cons b bs ih =>
    simp only [ofLE, List.length_cons, Nat.pow_succ]
    have := b.isLt
    omega

theorem toLE_ofLE (bs : List Byte) : toLE bs.length (ofLE bs) = bs := by
  induction bs with
  | nil => rfl
  | cons b bs ih =>
    have hb := b.isLt
    have h1 : (b.toNat + 256 * ofLE bs) / 256 = ofLE bs := by omega
    have h2 : BitVec.ofNat 8 (b.toNat + 256 * ofLE bs) = b := by
      apply BitVec.eq_of_toNat_eq; simp only [BitVec.toNat_ofNat]; omega
    simp [toLE, ofLE, h1, h2, ih]

/-- `setBit` writes one bit and leaves the others. -/
theorem getLsbD_setBit {w : Nat} (v : BitVec w) (i : Nat) (b : Bool) (j : Nat) :
    (setBit v i b).getLsbD j = if j = i ∧ i < w then b else v.getLsbD j := by
  unfold setBit
  by_cases hj : j = i
  · subst hj
    by_cases hw : j < w
    · cases b <;> simp [hw]
    · have hv : v.getLsbD j = false := BitVec.getLsbD_of_ge v j (by omega)
      cases b <;> simp [hw, hv]
  · have hk : ¬ (j = i ∧ i < w) := fun h => hj h.1
    rw [if_neg hk]
    have hv : v.getLsbD j = true → j < w := fun h => BitVec.lt_of_getLsbD h
    by_cases hlt : j < i
    · cases b
      · simpa [hlt] using hv
      · simp [hlt]
    · have h1 : j - i ≠ 0 := by omega
      cases b
      · simpa [hlt, h1] using hv
      · simp [hlt, h1]

/-- Writing a bit the value it has changes nothing. -/
theorem setBit_self {w : Nat} (v : BitVec w) (i : Nat) : setBit v i (v.getLsbD i) = v := by
  apply BitVec.eq_of_getLsbD_eq; intro j hj
  rw [getLsbD_setBit]; by_cases h : j = i ∧ i < w
  · rw [if_pos h, h.1]
  · rw [if_neg h]

namespace Machine

theorem SegReg.toBytes_length (r : SegReg) : r.toBytes.length = 10 := by
  simp [SegReg.toBytes, toLE_length]

/-- A mem80 gives back the register it was made from (R113). -/
theorem SegReg.ofBytes_toBytes (r : SegReg) : SegReg.ofBytes r.toBytes = r := by
  obtain ⟨sel, desc⟩ := r
  have h8 : (toLE 8 desc.toNat).length = 8 := toLE_length _ _
  have hd := desc.isLt
  have hs := sel.isLt
  simp only [SegReg.ofBytes, SegReg.toBytes, List.drop_append_of_le_length (Nat.le_of_eq h8.symm),
    List.take_append_of_le_length (Nat.le_of_eq h8.symm), List.drop_eq_nil_of_le (Nat.le_of_eq h8), List.nil_append,
    List.take_of_length_le (Nat.le_of_eq h8), ofLE_toLE]
  rw [Nat.mod_eq_of_lt (by simpa using hs), Nat.mod_eq_of_lt (by simpa using hd)]
  simp

theorem SegFile.get_set (f : SegFile) (n m : SegName) (r : SegReg) :
    (f.set n r).get m = if m = n then r else f.get m := by
  cases n <;> cases m <;> rfl

theorem Gpr.get_set (g : Gpr) (n m : GReg) (v : Dword) :
    (g.set n v).get m = if m = n then v else g.get m := by
  cases n <;> cases m <;> rfl

end Machine

end Sys2Proof
end

