-- ==== Sys2Proof/Laws/Encoding.lean ====
section
/-!
SUPPORT. The pieces of decoding and encoding undo each other: numbers and names, fields of a byte, displacements.
-/
namespace Sys2Proof

theorem GReg.ofNum_num (r : GReg) : GReg.ofNum r.num = r := by cases r <;> rfl

theorem GReg.num_ofNum (n : BitVec 3) : (GReg.ofNum n).num = n := by revert n; decide

theorem Base16.ofNum_num (b : Base16) : Base16.ofNum b.num = b := by cases b <;> rfl

theorem Base16.num_ofNum (n : BitVec 3) : (Base16.ofNum n).num = n := by revert n; decide

theorem SegName.ofNum_num (n : SegName) : SegName.ofNum n.num = some n := by cases n <;> rfl

theorem Pfx.ofByte_byte (p : Pfx) : Pfx.ofByte p.byte = some p := by
  cases p with
  | seg n => cases n <;> rfl
  | _ => rfl

theorem Pfx.byte_ofByte {b : Byte} {p : Pfx} (h : Pfx.ofByte b = some p) : p.byte = b := by
  revert p; revert b; decide

theorem Pfx.ofByte_escape : Pfx.ofByte 0x0F = none := rfl

theorem SmmOp.ofByte_byte (o : SmmOp) : SmmOp.ofByte o.byte = some o := by cases o <;> rfl

theorem SmmOp.byte_ofByte {b : Byte} {o : SmmOp} (h : SmmOp.ofByte b = some o) : o.byte = b := by
  revert o; revert b; decide

theorem fieldByte_hi (a : BitVec 2) (b c : BitVec 3) : (fieldByte a b c).extractLsb' 6 2 = a := by
  revert a b c; decide

theorem fieldByte_mid (a : BitVec 2) (b c : BitVec 3) : (fieldByte a b c).extractLsb' 3 3 = b := by
  revert a b c; decide

theorem fieldByte_lo (a : BitVec 2) (b c : BitVec 3) : (fieldByte a b c).extractLsb' 0 3 = c := by
  revert a b c; decide

theorem fieldByte_eta (b : Byte) :
    fieldByte (b.extractLsb' 6 2) (b.extractLsb' 3 3) (b.extractLsb' 0 3) = b := by
  revert b; decide

theorem takeWord_wordBytes (d : BitVec 16) (r : List Byte) : takeWord (wordBytes d ++ r) = .ok (d, r) := by
  have h : d.extractLsb' 8 8 ++ d.extractLsb' 0 8 = d := by
    apply BitVec.eq_of_getLsbD_eq; intro i hi
    simp only [BitVec.getLsbD_append, BitVec.getLsbD_extractLsb']
    by_cases h8 : i < 8
    · simp [h8]
    · simp [h8, show i - 8 < 8 by omega, show 8 + (i - 8) = i by omega]
  simp [wordBytes, takeWord, h]

theorem takeDword_dwordBytes (d : BitVec 32) (r : List Byte) : takeDword (dwordBytes d ++ r) = .ok (d, r) := by
  have h : d.extractLsb' 24 8 ++ d.extractLsb' 16 8 ++ d.extractLsb' 8 8 ++ d.extractLsb' 0 8 = d := by
    apply BitVec.eq_of_getLsbD_eq; intro i hi
    simp only [BitVec.getLsbD_append, BitVec.getLsbD_extractLsb']
    by_cases h1 : i < 8
    · simp [h1]
    · by_cases h2 : i - 8 < 8
      · simp [h1, h2, show 8 + (i - 8) = i by omega]
      · by_cases h3 : i - 8 - 8 < 8
        · simp [h1, h2, h3, show 16 + (i - 8 - 8) = i by omega]
        · simp [h1, h2, h3, show i - 8 - 8 - 8 < 8 by omega, show 24 + (i - 8 - 8 - 8) = i by omega]
  simp only [dwordBytes, takeDword, List.cons_append, List.nil_append]
  rw [show d.extractLsb' 24 8 ++ d.extractLsb' 16 8 ++ d.extractLsb' 8 8 ++ d.extractLsb' 0 8 = d from h]

theorem takeByte_cons (a : BitVec 8) (r : List Byte) : takeByte (a :: r) = .ok (a, r) := rfl

/-- What a byte, word or dword field was read from. -/
theorem takeByte_ok {bs r : List Byte} {d : BitVec 8} (h : takeByte bs = .ok (d, r)) : bs = d :: r := by
  unfold takeByte at h
  split at h <;> simp_all

/-- The low byte and the rest of a joined field. -/
theorem extract_join_low {w : Nat} (h : BitVec w) (l : Byte) : (h ++ l).extractLsb' 0 8 = l := by
  apply BitVec.eq_of_getLsbD_eq; intro i hi
  simp [BitVec.getLsbD_append, hi]

theorem extract_join_high {w : Nat} (h : BitVec w) (l : Byte) (k : Nat) :
    (h ++ l).extractLsb' (8 + k) 8 = h.extractLsb' k 8 := by
  apply BitVec.eq_of_getLsbD_eq; intro i hi
  simp [BitVec.getLsbD_append, show ¬ 8 + k + i < 8 by omega, show 8 + k + i - 8 = k + i by omega]

theorem extract_all (h : Byte) : h.extractLsb' 0 8 = h := by simp

theorem takeWord_ok {bs r : List Byte} {d : BitVec 16} (h : takeWord bs = .ok (d, r)) : bs = wordBytes d ++ r := by
  unfold takeWord at h
  split at h
  · rename_i a b t
    simp only [Except.ok.injEq, Prod.mk.injEq] at h
    obtain ⟨rfl, rfl⟩ := h
    have h1 : (b ++ a).extractLsb' 0 8 = a := extract_join_low b a
    have h2 : (b ++ a).extractLsb' 8 8 = b := (extract_join_high b a 0).trans (extract_all b)
    simp only [wordBytes, List.cons_append, List.nil_append]
    rw [h1, h2]
  · cases h

theorem takeDword_ok {bs r : List Byte} {d : BitVec 32} (h : takeDword bs = .ok (d, r)) : bs = dwordBytes d ++ r := by
  unfold takeDword at h
  split at h
  · rename_i a b c e t
    simp only [Except.ok.injEq, Prod.mk.injEq] at h
    obtain ⟨rfl, rfl⟩ := h
    have h1 : (e ++ c ++ b ++ a).extractLsb' 0 8 = a := extract_join_low (e ++ c ++ b) a
    have h2 : (e ++ c ++ b ++ a).extractLsb' 8 8 = b :=
      (extract_join_high (e ++ c ++ b) a 0).trans (extract_join_low (e ++ c) b)
    have h3 : (e ++ c ++ b ++ a).extractLsb' 16 8 = c :=
      (extract_join_high (e ++ c ++ b) a 8).trans ((extract_join_high (e ++ c) b 0).trans (extract_join_low e c))
    have h4 : (e ++ c ++ b ++ a).extractLsb' 24 8 = e :=
      (extract_join_high (e ++ c ++ b) a 16).trans
        ((extract_join_high (e ++ c) b 8).trans ((extract_join_high e c 0).trans (extract_all e)))
    simp only [dwordBytes, List.cons_append, List.nil_append]
    rw [h1, h2, h3, h4]
  · cases h

/-- The prefix bytes of an encoding are scanned back in order, up to the escape byte. -/
theorem scanPrefixes_map (ps : List Pfx) (bs : List Byte) :
    scanPrefixes (ps.map Pfx.byte ++ 0x0F :: bs) = (ps, 0x0F :: bs) := by
  induction ps with
  | nil => rfl
  | cons p ps ih =>
    simp only [List.map_cons, List.cons_append, scanPrefixes, Pfx.ofByte_byte]
    rw [ih]

/-- What the prefixes were scanned from. -/
theorem scanPrefixes_eta (bs : List Byte) : (scanPrefixes bs).1.map Pfx.byte ++ (scanPrefixes bs).2 = bs := by
  induction bs with
  | nil => rfl
  | cons b bs ih =>
    simp only [scanPrefixes]
    split
    · rename_i p hp; simp [Pfx.byte_ofByte hp, ih]
    · rfl

/-! ### What an encoding decodes to -/

theorem decodeDisp32_two (bs : List Byte) :
    decodeDisp32 2 bs = (takeDword bs).map fun x => (.d32 x.1, x.2) := by
  unfold decodeDisp32; rw [if_neg (by decide), if_neg (by decide)]

theorem decodeAddr16_zero_six (bs : List Byte) :
    decodeAddr16 0 6 bs = (takeWord bs).map fun x => (.abs x.1, x.2) := by
  unfold decodeAddr16; rw [if_pos rfl, if_pos rfl]

theorem decodeAddr16_two (rm : BitVec 3) (bs : List Byte) :
    decodeAddr16 2 rm bs = (takeWord bs).map fun x => (.ind (.ofNum rm) (.d16 x.1), x.2) := by
  unfold decodeAddr16; rw [if_neg (by decide), if_neg (by decide)]

theorem decodeAddr32_zero_five (bs : List Byte) :
    decodeAddr32 0 5 bs = (takeDword bs).map fun x => (.abs x.1, x.2) := by
  unfold decodeAddr32; rw [if_neg (by decide), if_pos ⟨rfl, rfl⟩]

theorem decodeDisp32_encode (d : Disp32) (r : List Byte) :
    decodeDisp32 d.encode.1 (d.encode.2 ++ r) = .ok (d, r) := by
  cases d with
  | none => rfl
  | d8 d => rfl
  | d32 d =>
    change decodeDisp32 2 (dwordBytes d ++ r) = _
    rw [decodeDisp32_two, takeDword_dwordBytes]; rfl

theorem Disp32.encode_md_ne (d : Disp32) : d.encode.1 ≠ 3 := by cases d <;> simp [Disp32.encode]

theorem Disp32.encode_md_zero {d : Disp32} (h : d.encode.1 = 0) : d = .none := by
  cases d <;> simp_all [Disp32.encode]

theorem decodeAddr16_encode {a : Addr16} (h : a.encodable = true) (r : List Byte) :
    decodeAddr16 a.encode.1 a.encode.2.1 (a.encode.2.2 ++ r) = .ok (a, r) := by
  cases a with
  | abs d =>
    change decodeAddr16 0 6 (wordBytes d ++ r) = _
    rw [decodeAddr16_zero_six, takeWord_wordBytes]; rfl
  | ind b d =>
    cases d with
    | none => cases b <;> first | rfl | cases h
    | d8 d => cases b <;> rfl
    | d16 d =>
      change decodeAddr16 2 b.num (wordBytes d ++ r) = _
      rw [decodeAddr16_two, takeWord_wordBytes, Base16.ofNum_num]; rfl

theorem decodeAddr32_plain {md : BitVec 2} {rm : BitVec 3} (h4 : rm ≠ 4) (h5 : ¬ (rm = 5 ∧ md = 0)) (bs : List Byte) :
    decodeAddr32 md rm bs = (decodeDisp32 md bs).map fun x => (.ind (.ofNum rm) x.1, x.2) := by
  unfold decodeAddr32; rw [if_neg h4, if_neg h5]

theorem decodeSib_plain {md : BitVec 2} (scale : BitVec 2) (index base : BitVec 3) (h5 : ¬ (base = 5 ∧ md = 0))
    (bs : List Byte) :
    decodeAddr32 md 4 (fieldByte scale index base :: bs)
      = (decodeDisp32 md bs).map fun x => (.sib scale (.ofNum index) (.ofNum base) x.1, x.2) := by
  unfold decodeAddr32 decodeSib
  rw [if_pos rfl]
  simp only [fieldByte_hi, fieldByte_mid, fieldByte_lo]
  rw [if_neg h5]

theorem decodeAddr32_encode {a : Addr32} (h : a.encodable = true) (r : List Byte) :
    decodeAddr32 a.encode.1 a.encode.2.1 (a.encode.2.2 ++ r) = .ok (a, r) := by
  cases a with
  | abs d =>
    change decodeAddr32 0 5 (dwordBytes d ++ r) = _
    rw [decodeAddr32_zero_five, takeDword_dwordBytes]; rfl
  | ind q d =>
    have h4 : q.num ≠ 4 := by cases q <;> simp_all [Addr32.encodable, GReg.num]
    have h5 : ¬ (q.num = 5 ∧ d.encode.1 = 0) := by
      rintro ⟨hq, hd⟩
      have := Disp32.encode_md_zero hd
      subst this
      cases q <;> simp_all [Addr32.encodable, GReg.num]
    change decodeAddr32 d.encode.1 q.num (d.encode.2 ++ r) = _
    rw [decodeAddr32_plain h4 h5, decodeDisp32_encode, GReg.ofNum_num]; rfl
  | sib scale index base d =>
    have h5 : ¬ (base.num = 5 ∧ d.encode.1 = 0) := by
      rintro ⟨hq, hd⟩
      have := Disp32.encode_md_zero hd
      subst this
      cases base <;> simp_all [Addr32.encodable, GReg.num]
    change decodeAddr32 d.encode.1 4 (fieldByte scale index.num base.num :: (d.encode.2 ++ r)) = _
    rw [decodeSib_plain _ _ _ h5, decodeDisp32_encode, GReg.ofNum_num, GReg.ofNum_num]; rfl
  | sibAbs scale index d =>
    change decodeSib 0 (fieldByte scale index.num 5 :: (dwordBytes d ++ r)) = _
    unfold decodeSib
    simp only [fieldByte_hi, fieldByte_mid, fieldByte_lo]
    rw [if_pos ⟨trivial, trivial⟩, takeDword_dwordBytes, GReg.ofNum_num]; rfl

theorem decodeModRm_reg (a32 : Bool) (reg : BitVec 3) (rm : BitVec 3) (bs : List Byte) :
    decodeModRm a32 (fieldByte 3 reg rm :: bs) = .ok (reg, .reg (.ofNum rm), bs) := by
  unfold decodeModRm
  simp only [fieldByte_mid, fieldByte_lo]
  rw [if_pos (by rw [fieldByte_hi])]

theorem decodeModRm_mem {md : BitVec 2} (hm : md ≠ 3) (a32 : Bool) (reg : BitVec 3) (rm : BitVec 3) (bs : List Byte) :
    decodeModRm a32 (fieldByte md reg rm :: bs)
      = if a32 then (decodeAddr32 md rm bs).map fun x => (reg, .mem (.a32 x.1), x.2)
        else (decodeAddr16 md rm bs).map fun x => (reg, .mem (.a16 x.1), x.2) := by
  unfold decodeModRm
  simp only [fieldByte_mid, fieldByte_lo]
  rw [if_neg (by rw [fieldByte_hi]; exact hm), fieldByte_hi]

/-- The mod r/m byte with what follows it decodes to the operand it was encoded from (R143). -/
theorem decodeModRm_encode {a32 : Bool} {rm : RmArg} (h : rm.encodable a32 = true) (reg : BitVec 3) (r : List Byte) :
    decodeModRm a32 (encodeModRm reg rm ++ r) = .ok (reg, rm, r) := by
  cases rm with
  | reg q =>
    change decodeModRm a32 (fieldByte 3 reg q.num :: r) = _
    rw [decodeModRm_reg, GReg.ofNum_num]
  | mem m =>
    cases m with
    | a16 a =>
      simp only [RmArg.encodable, Bool.and_eq_true, Bool.not_eq_true'] at h
      obtain ⟨rfl, ha⟩ := h
      have hm : a.encode.1 ≠ 3 := by
        cases a with
        | abs => simp [Addr16.encode]
        | ind b d => cases d <;> simp [Addr16.encode]
      change decodeModRm false (fieldByte a.encode.1 reg a.encode.2.1 :: (a.encode.2.2 ++ r)) = _
      rw [decodeModRm_mem hm, decodeAddr16_encode ha]; rfl
    | a32 a =>
      simp only [RmArg.encodable, Bool.and_eq_true] at h
      obtain ⟨rfl, ha⟩ := h
      have hm : a.encode.1 ≠ 3 := by
        cases a with
        | ind b d => exact Disp32.encode_md_ne d
        | sib _ _ _ d => exact Disp32.encode_md_ne d
        | _ => simp [Addr32.encode]
      change decodeModRm true (fieldByte a.encode.1 reg a.encode.2.1 :: (a.encode.2.2 ++ r)) = _
      rw [decodeModRm_mem hm, decodeAddr32_encode ha]; rfl

/-- What follows the opcode decodes to the instruction it was encoded from (R147). -/
theorem decodeOp_encode (d32 : Bool) (i : Instr) (h : i.encodable d32 = true) (r : List Byte) :
    decodeOp i.op i.pre (addrSize32 d32 i.pre) (i.encodeTail ++ r) = .ok (i, r) := by
  cases i with
  | smint | rsm => rfl
  | _ =>
    rename_i p reg rm
    have hd : decodeModRm (addrSize32 d32 p) (encodeModRm reg rm ++ r) = .ok (reg, rm, r) := decodeModRm_encode h reg r
    simp only [decodeOp, Instr.op, Instr.pre, Instr.encodeTail, hd]; rfl

/-! ### What was decoded from a byte string -/

theorem map_ok {α β ε : Type} {f : α → β} {x : Except ε α} {b : β} (h : x.map f = .ok b) : ∃ a, x = .ok a ∧ f a = b := by
  cases x with
  | error e => cases h
  | ok a => exact ⟨a, rfl, by simpa [Except.map] using h⟩

theorem decodeDisp32_ok {md : BitVec 2} {bs r : List Byte} {d : Disp32} (hm : md ≠ 3)
    (h : decodeDisp32 md bs = .ok (d, r)) : d.encode.1 = md ∧ bs = d.encode.2 ++ r := by
  unfold decodeDisp32 at h
  split at h
  · simp only [Except.ok.injEq, Prod.mk.injEq] at h
    obtain ⟨rfl, rfl⟩ := h
    exact ⟨(by assumption : md = 0).symm, rfl⟩
  · split at h
    · obtain ⟨⟨b, q⟩, hb, he⟩ := map_ok h
      cases he
      exact ⟨(by assumption : md = 1).symm, takeByte_ok hb⟩
    · obtain ⟨⟨b, q⟩, hb, he⟩ := map_ok h
      cases he
      refine ⟨?_, takeDword_ok hb⟩
      show (2 : BitVec 2) = md
      revert md; decide

theorem decodeAddr16_ok {md : BitVec 2} {rm : BitVec 3} {bs r : List Byte} {a : Addr16} (hm : md ≠ 3)
    (h : decodeAddr16 md rm bs = .ok (a, r)) :
    a.encodable = true ∧ a.encode = (md, rm, a.encode.2.2) ∧ bs = a.encode.2.2 ++ r := by
  unfold decodeAddr16 at h
  split at h
  · subst md
    split at h
    · subst rm
      obtain ⟨⟨b, q⟩, hb, he⟩ := map_ok h
      cases he
      exact ⟨rfl, rfl, takeWord_ok hb⟩
    · rename_i hr
      simp only [Except.ok.injEq, Prod.mk.injEq] at h
      obtain ⟨rfl, rfl⟩ := h
      refine ⟨?_, ?_, rfl⟩
      · revert hr; revert rm; decide
      · simp [Addr16.encode, Base16.num_ofNum]
  · split at h
    · subst md
      obtain ⟨⟨b, q⟩, hb, he⟩ := map_ok h
      cases he
      refine ⟨?_, ?_, takeByte_ok hb⟩
      · cases Base16.ofNum rm <;> rfl
      · simp [Addr16.encode, Base16.num_ofNum]
    · have hm2 : md = 2 := by revert md; decide
      subst hm2
      obtain ⟨⟨b, q⟩, hb, he⟩ := map_ok h
      cases he
      refine ⟨?_, ?_, takeWord_ok hb⟩
      · cases Base16.ofNum rm <;> rfl
      · simp [Addr16.encode, Base16.num_ofNum]

theorem decodeAddr32_ok {md : BitVec 2} {rm : BitVec 3} {bs r : List Byte} {a : Addr32} (hm : md ≠ 3)
    (h : decodeAddr32 md rm bs = .ok (a, r)) :
    a.encodable = true ∧ a.encode = (md, rm, a.encode.2.2) ∧ bs = a.encode.2.2 ++ r := by
  unfold decodeAddr32 at h
  split at h
  · subst rm
    cases bs with
    | nil => cases h
    | cons b bs =>
      simp only [decodeSib] at h
      split at h
      · rename_i hc
        obtain ⟨⟨x, q⟩, hb, he⟩ := map_ok h
        cases he
        refine ⟨rfl, ?_, ?_⟩
        · simp [Addr32.encode, hc.2]
        · simp only [Addr32.encode, GReg.num_ofNum, List.cons_append]
          rw [← takeDword_ok hb, ← hc.1, fieldByte_eta]
      · rename_i hc
        obtain ⟨⟨x, q⟩, hb, he⟩ := map_ok h
        cases he
        obtain ⟨h1, h2⟩ := decodeDisp32_ok hm hb
        refine ⟨?_, ?_, ?_⟩
        · cases x with
          | none =>
            have : b.extractLsb' 0 3 ≠ 5 := fun e => hc ⟨e, h1.symm⟩
            have hall : ∀ n : BitVec 3, n ≠ 5 → GReg.ofNum n ≠ .ebp := by decide
            have := hall _ this
            cases hq : GReg.ofNum (b.extractLsb' 0 3) <;> simp_all [Addr32.encodable]
          | _ => cases GReg.ofNum (b.extractLsb' 0 3) <;> rfl
        · simp [Addr32.encode, h1]
        · simp only [Addr32.encode, GReg.num_ofNum, List.cons_append]
          rw [← h2, fieldByte_eta]
  · rename_i h4
    split at h
    · rename_i hc
      obtain ⟨⟨x, q⟩, hb, he⟩ := map_ok h
      cases he
      exact ⟨rfl, by simp [Addr32.encode, hc.1, hc.2], takeDword_ok hb⟩
    · rename_i hc
      obtain ⟨⟨x, q⟩, hb, he⟩ := map_ok h
      cases he
      obtain ⟨h1, h2⟩ := decodeDisp32_ok hm hb
      refine ⟨?_, ?_, h2⟩
      · cases x with
        | none =>
          have : rm ≠ 5 := fun e => hc ⟨e, h1.symm⟩
          have hall : ∀ n : BitVec 3, n ≠ 5 → n ≠ 4 → GReg.ofNum n ≠ .ebp ∧ GReg.ofNum n ≠ .esp := by decide
          have := hall rm this h4
          cases hq : GReg.ofNum rm <;> simp_all [Addr32.encodable]
        | _ =>
          have hall : ∀ n : BitVec 3, n ≠ 4 → GReg.ofNum n ≠ .esp := by decide
          have := hall rm h4
          cases hq : GReg.ofNum rm <;> simp_all [Addr32.encodable]
      · simp [Addr32.encode, h1, GReg.num_ofNum]

/-- What a mod r/m operand was decoded from is its encoding (R143). -/
theorem decodeModRm_ok {a32 : Bool} {bs r : List Byte} {reg : BitVec 3} {rm : RmArg}
    (h : decodeModRm a32 bs = .ok (reg, rm, r)) : rm.encodable a32 = true ∧ bs = encodeModRm reg rm ++ r := by
  cases bs with
  | nil => cases h
  | cons b bs =>
    simp only [decodeModRm] at h
    split at h
    · rename_i h3
      simp only [Except.ok.injEq, Prod.mk.injEq] at h
      obtain ⟨rfl, rfl, rfl⟩ := h
      refine ⟨rfl, ?_⟩
      simp only [encodeModRm, RmArg.encode, GReg.num_ofNum, List.cons_append, List.nil_append]
      rw [← h3, fieldByte_eta]
    · rename_i h3
      split at h
      · obtain ⟨⟨x, q⟩, hb, he⟩ := map_ok h
        cases he
        obtain ⟨h1, h2, h4⟩ := decodeAddr32_ok h3 hb
        refine ⟨by rename_i ha; simp [RmArg.encodable, h1, ha], ?_⟩
        simp only [encodeModRm, RmArg.encode, List.cons_append]
        rw [← h4, h2, fieldByte_eta]
      · obtain ⟨⟨x, q⟩, hb, he⟩ := map_ok h
        cases he
        obtain ⟨h1, h2, h4⟩ := decodeAddr16_ok h3 hb
        refine ⟨by rename_i ha; simp [RmArg.encodable, h1, ha], ?_⟩
        simp only [encodeModRm, RmArg.encode, List.cons_append]
        rw [← h4, h2, fieldByte_eta]

/-- What an instruction was decoded from, after its opcode, is its encoding (R147). -/
theorem decodeOp_ok {op : SmmOp} {pre : List Pfx} {d32 : Bool} {bs r : List Byte} {i : Instr}
    (h : decodeOp op pre (addrSize32 d32 pre) bs = .ok (i, r)) :
    i.pre = pre ∧ i.op = op ∧ i.encodable d32 = true ∧ bs = i.encodeTail ++ r := by
  cases op with
  | smint | rsm => cases h; exact ⟨rfl, rfl, rfl, rfl⟩
  | _ =>
    obtain ⟨⟨reg, rm, q⟩, hb, he⟩ := map_ok h
    cases he
    obtain ⟨h1, h2⟩ := decodeModRm_ok hb
    exact ⟨rfl, rfl, h1, h2⟩

end Sys2Proof
end

