-- ==== Sys2Proof/Laws/FpuState.lean ====
section
/-!
SUPPORT. What a save of the FPU stores, byte by byte, and what a restore from the full form gives.
-/
namespace Sys2Proof.Machine

@[simp] theorem Fpu.saved_length (f : Fpu) (form : FpuForm) : (f.saved form).length = form.imageSize := by
  simp [Fpu.saved]

/-- The place of the pending bit lies in the image. -/
theorem FpuForm.pendingPlace_lt (form : FpuForm) :
    form.pendingPlace.1 < form.imageSize ∧ form.pendingPlace.2 < 8 := by
  have h : 0 < form.imageSize := Nat.lt_of_lt_of_le Nat.one_pos (Nat.le_max_left _ _)
  have hm := Nat.mod_lt Config.fpuPendingPlace (show 0 < 8 * form.imageSize by omega)
  exact ⟨by show _ / 8 < _; omega, Nat.mod_lt _ (by omega)⟩

theorem Fpu.saved_getElem? (f : Fpu) {form : FpuForm} (hf : form.full = true) {k : Nat} (hk : k < form.imageSize) :
    (f.saved form)[k]? = some (f.fullByte form k) := by
  simp [Fpu.saved, hf, List.getElem?_range hk]

theorem Fpu.restored_full (f : Fpu) {form : FpuForm} (hf : form.full = true) (bs : List Byte) :
    f.restored form bs = ⟨bs, (bs.getD form.pendingPlace.1 0).getLsbD form.pendingPlace.2⟩ := by
  simp [Fpu.restored, hf]

end Sys2Proof.Machine
end

