-- ==== Sys2Proof/Laws/State.lean ====
section
/-!
SUPPORT. One lemma per field per update of State: what each shared operation writes and what it leaves.
-/
namespace Sys2Proof.Machine

/-! ### `State.advance` (R140) -/

@[simp] theorem State.advance_base (s : State) (n : Nat) : (s.advance n).base = { s.base with eip := s.base.eip + BitVec.ofNat 32 n } := rfl
@[simp] theorem State.advance_cfg (s : State) (n : Nat) : (s.advance n).cfg = s.cfg := rfl
@[simp] theorem State.advance_smhr (s : State) (n : Nat) : (s.advance n).smhr = s.smhr := rfl
@[simp] theorem State.advance_cfgIndex (s : State) (n : Nat) : (s.advance n).cfgIndex = s.cfgIndex := rfl
@[simp] theorem State.advance_inSmm (s : State) (n : Nat) : (s.advance n).inSmm = s.inSmm := rfl
@[simp] theorem State.advance_smiLatched (s : State) (n : Nat) : (s.advance n).smiLatched = s.smiLatched := rfl
@[simp] theorem State.advance_nmiLatched (s : State) (n : Nat) : (s.advance n).nmiLatched = s.nmiLatched := rfl
@[simp] theorem State.advance_normal (s : State) (n : Nat) : (s.advance n).normal = s.normal := rfl
@[simp] theorem State.advance_smm (s : State) (n : Nat) : (s.advance n).smm = s.smm := rfl
@[simp] theorem State.advance_smiLow (s : State) (n : Nat) : (s.advance n).smiLow = s.smiLow := rfl
@[simp] theorem State.advance_a20m (s : State) (n : Nat) : (s.advance n).a20m = s.a20m := rfl
@[simp] theorem State.advance_susp (s : State) (n : Nat) : (s.advance n).susp = s.susp := rfl
@[simp] theorem State.advance_nonCacheable (s : State) (n : Nat) : (s.advance n).nonCacheable = s.nonCacheable := rfl
@[simp] theorem State.advance_debugTrap (s : State) (n : Nat) : (s.advance n).debugTrap = s.debugTrap := rfl
@[simp] theorem State.advance_inputs (s : State) (n : Nat) : (s.advance n).inputs = s.inputs := rfl
@[simp] theorem State.advance_lastIo (s : State) (n : Nat) : (s.advance n).lastIo = none := rfl
@[simp] theorem State.advance_ioTrace (s : State) (n : Nat) : (s.advance n).ioTrace = s.ioTrace := rfl
@[simp] theorem State.advance_staleCode (s : State) (n : Nat) : (s.advance n).staleCode = s.staleCode := rfl
@[simp] theorem State.advance_draws (s : State) (n : Nat) : (s.advance n).draws = s.draws := rfl

/-! ### `State.writeLoc` -/

@[simp] theorem State.writeLoc_base (s : State) (l : Loc) (b : Byte) : (s.writeLoc l b).base = s.base := by
  unfold State.writeLoc; split <;> rfl
@[simp] theorem State.writeLoc_cfg (s : State) (l : Loc) (b : Byte) : (s.writeLoc l b).cfg = s.cfg := by
  unfold State.writeLoc; split <;> rfl
@[simp] theorem State.writeLoc_smhr (s : State) (l : Loc) (b : Byte) : (s.writeLoc l b).smhr = s.smhr := by
  unfold State.writeLoc; split <;> rfl
@[simp] theorem State.writeLoc_cfgIndex (s : State) (l : Loc) (b : Byte) : (s.writeLoc l b).cfgIndex = s.cfgIndex := by
  unfold State.writeLoc; split <;> rfl
@[simp] theorem State.writeLoc_inSmm (s : State) (l : Loc) (b : Byte) : (s.writeLoc l b).inSmm = s.inSmm := by
  unfold State.writeLoc; split <;> rfl
@[simp] theorem State.writeLoc_smiLatched (s : State) (l : Loc) (b : Byte) : (s.writeLoc l b).smiLatched = s.smiLatched := by
  unfold State.writeLoc; split <;> rfl
@[simp] theorem State.writeLoc_nmiLatched (s : State) (l : Loc) (b : Byte) : (s.writeLoc l b).nmiLatched = s.nmiLatched := by
  unfold State.writeLoc; split <;> rfl
@[simp] theorem State.writeLoc_smiLow (s : State) (l : Loc) (b : Byte) : (s.writeLoc l b).smiLow = s.smiLow := by
  unfold State.writeLoc; split <;> rfl
@[simp] theorem State.writeLoc_a20m (s : State) (l : Loc) (b : Byte) : (s.writeLoc l b).a20m = s.a20m := by
  unfold State.writeLoc; split <;> rfl
@[simp] theorem State.writeLoc_susp (s : State) (l : Loc) (b : Byte) : (s.writeLoc l b).susp = s.susp := by
  unfold State.writeLoc; split <;> rfl
@[simp] theorem State.writeLoc_nonCacheable (s : State) (l : Loc) (b : Byte) : (s.writeLoc l b).nonCacheable = s.nonCacheable := by
  unfold State.writeLoc; split <;> rfl
@[simp] theorem State.writeLoc_debugTrap (s : State) (l : Loc) (b : Byte) : (s.writeLoc l b).debugTrap = s.debugTrap := by
  unfold State.writeLoc; split <;> rfl
@[simp] theorem State.writeLoc_inputs (s : State) (l : Loc) (b : Byte) : (s.writeLoc l b).inputs = s.inputs := by
  unfold State.writeLoc; split <;> rfl
@[simp] theorem State.writeLoc_lastIo (s : State) (l : Loc) (b : Byte) : (s.writeLoc l b).lastIo = s.lastIo := by
  unfold State.writeLoc; split <;> rfl
@[simp] theorem State.writeLoc_ioTrace (s : State) (l : Loc) (b : Byte) : (s.writeLoc l b).ioTrace = s.ioTrace := by
  unfold State.writeLoc; split <;> rfl
@[simp] theorem State.writeLoc_staleCode (s : State) (l : Loc) (b : Byte) : (s.writeLoc l b).staleCode = ⟨l, s.readLoc l⟩ :: s.staleCode := by
  unfold State.writeLoc; split <;> rfl
@[simp] theorem State.writeLoc_draws (s : State) (l : Loc) (b : Byte) : (s.writeLoc l b).draws = s.draws := by
  unfold State.writeLoc; split <;> rfl

/-! ### `State.entering` (R270) -/

@[simp] theorem State.entering_base (s : State) : s.entering.base = s.base := rfl
@[simp] theorem State.entering_cfg (s : State) : s.entering.cfg = s.cfg := rfl
@[simp] theorem State.entering_smhr (s : State) : s.entering.smhr = smhrForEntry s.cfg s.smhr := rfl
@[simp] theorem State.entering_cfgIndex (s : State) : s.entering.cfgIndex = s.cfgIndex := rfl
@[simp] theorem State.entering_inSmm (s : State) : s.entering.inSmm = true := rfl
@[simp] theorem State.entering_smiLatched (s : State) : s.entering.smiLatched = s.smiLatched := rfl
@[simp] theorem State.entering_nmiLatched (s : State) : s.entering.nmiLatched = s.nmiLatched := rfl
@[simp] theorem State.entering_normal (s : State) : s.entering.normal = s.normal := rfl
@[simp] theorem State.entering_smm (s : State) : s.entering.smm = s.smm := rfl
@[simp] theorem State.entering_smiLow (s : State) : s.entering.smiLow = s.smiLow := rfl
@[simp] theorem State.entering_a20m (s : State) : s.entering.a20m = s.a20m := rfl
@[simp] theorem State.entering_susp (s : State) : s.entering.susp = s.susp := rfl
@[simp] theorem State.entering_nonCacheable (s : State) : s.entering.nonCacheable = s.nonCacheable := rfl
@[simp] theorem State.entering_debugTrap (s : State) : s.entering.debugTrap = s.debugTrap := rfl
@[simp] theorem State.entering_inputs (s : State) : s.entering.inputs = s.inputs := rfl
@[simp] theorem State.entering_lastIo (s : State) : s.entering.lastIo = s.lastIo := rfl
@[simp] theorem State.entering_ioTrace (s : State) : s.entering.ioTrace = s.ioTrace := rfl
@[simp] theorem State.entering_staleCode (s : State) : s.entering.staleCode = s.staleCode := rfl
@[simp] theorem State.entering_draws (s : State) : s.entering.draws = s.draws + entryDraws := rfl

/-! ### `State.resumed` (R192) -/

@[simp] theorem State.resumed_base (s : State) (h : SavedHeader) : (s.resumed h).base = resumeRegs s.cfg s.base h := rfl
@[simp] theorem State.resumed_cfg (s : State) (h : SavedHeader) : (s.resumed h).cfg = s.cfg.setNest true := rfl
@[simp] theorem State.resumed_smhr (s : State) (h : SavedHeader) : (s.resumed h).smhr = s.smhr := rfl
@[simp] theorem State.resumed_cfgIndex (s : State) (h : SavedHeader) : (s.resumed h).cfgIndex = s.cfgIndex := rfl
@[simp] theorem State.resumed_inSmm (s : State) (h : SavedHeader) : (s.resumed h).inSmm = headerN h.flags := rfl
@[simp] theorem State.resumed_smiLatched (s : State) (h : SavedHeader) : (s.resumed h).smiLatched = s.smiLatched := rfl
@[simp] theorem State.resumed_nmiLatched (s : State) (h : SavedHeader) : (s.resumed h).nmiLatched = s.nmiLatched := rfl
@[simp] theorem State.resumed_normal (s : State) (h : SavedHeader) : (s.resumed h).normal = s.normal := rfl
@[simp] theorem State.resumed_smm (s : State) (h : SavedHeader) : (s.resumed h).smm = s.smm := rfl
@[simp] theorem State.resumed_smiLow (s : State) (h : SavedHeader) : (s.resumed h).smiLow = s.smiLow := rfl
@[simp] theorem State.resumed_a20m (s : State) (h : SavedHeader) : (s.resumed h).a20m = s.a20m := rfl
@[simp] theorem State.resumed_susp (s : State) (h : SavedHeader) : (s.resumed h).susp = s.susp := rfl
@[simp] theorem State.resumed_nonCacheable (s : State) (h : SavedHeader) : (s.resumed h).nonCacheable = s.nonCacheable := rfl
@[simp] theorem State.resumed_debugTrap (s : State) (h : SavedHeader) : (s.resumed h).debugTrap = s.debugTrap := rfl
@[simp] theorem State.resumed_inputs (s : State) (h : SavedHeader) : (s.resumed h).inputs = s.inputs := rfl
@[simp] theorem State.resumed_lastIo (s : State) (h : SavedHeader) : (s.resumed h).lastIo = none := rfl
@[simp] theorem State.resumed_ioTrace (s : State) (h : SavedHeader) : (s.resumed h).ioTrace = s.ioTrace := rfl
@[simp] theorem State.resumed_staleCode (s : State) (h : SavedHeader) : (s.resumed h).staleCode = [] := rfl
@[simp] theorem State.resumed_draws (s : State) (h : SavedHeader) : (s.resumed h).draws = s.draws := rfl

/-! ### `State.closeWindow` -/

@[simp] theorem State.closeWindow_base (s : State) : s.closeWindow.base = s.base := rfl
@[simp] theorem State.closeWindow_cfg (s : State) : s.closeWindow.cfg = s.cfg := rfl
@[simp] theorem State.closeWindow_smhr (s : State) : s.closeWindow.smhr = s.smhr := rfl
@[simp] theorem State.closeWindow_cfgIndex (s : State) : s.closeWindow.cfgIndex = none := rfl
@[simp] theorem State.closeWindow_inSmm (s : State) : s.closeWindow.inSmm = s.inSmm := rfl
@[simp] theorem State.closeWindow_smiLatched (s : State) : s.closeWindow.smiLatched = s.smiLatched := rfl
@[simp] theorem State.closeWindow_nmiLatched (s : State) : s.closeWindow.nmiLatched = s.nmiLatched := rfl
@[simp] theorem State.closeWindow_normal (s : State) : s.closeWindow.normal = s.normal := rfl
@[simp] theorem State.closeWindow_smm (s : State) : s.closeWindow.smm = s.smm := rfl
@[simp] theorem State.closeWindow_smiLow (s : State) : s.closeWindow.smiLow = s.smiLow := rfl
@[simp] theorem State.closeWindow_a20m (s : State) : s.closeWindow.a20m = s.a20m := rfl
@[simp] theorem State.closeWindow_susp (s : State) : s.closeWindow.susp = s.susp := rfl
@[simp] theorem State.closeWindow_nonCacheable (s : State) : s.closeWindow.nonCacheable = s.nonCacheable := rfl
@[simp] theorem State.closeWindow_debugTrap (s : State) : s.closeWindow.debugTrap = s.debugTrap := rfl
@[simp] theorem State.closeWindow_inputs (s : State) : s.closeWindow.inputs = s.inputs := rfl
@[simp] theorem State.closeWindow_lastIo (s : State) : s.closeWindow.lastIo = s.lastIo := rfl
@[simp] theorem State.closeWindow_ioTrace (s : State) : s.closeWindow.ioTrace = s.ioTrace := rfl
@[simp] theorem State.closeWindow_staleCode (s : State) : s.closeWindow.staleCode = s.staleCode := rfl
@[simp] theorem State.closeWindow_draws (s : State) : s.closeWindow.draws = s.draws := rfl

/-! ### `State.offChipWrite` -/

@[simp] theorem State.offChipWrite_base (s : State) (p : Word16) (w : Width) (v : Dword) : (s.offChipWrite p w v).base = s.base := rfl
@[simp] theorem State.offChipWrite_cfg (s : State) (p : Word16) (w : Width) (v : Dword) : (s.offChipWrite p w v).cfg = s.cfg := rfl
@[simp] theorem State.offChipWrite_smhr (s : State) (p : Word16) (w : Width) (v : Dword) : (s.offChipWrite p w v).smhr = s.smhr := rfl
@[simp] theorem State.offChipWrite_cfgIndex (s : State) (p : Word16) (w : Width) (v : Dword) : (s.offChipWrite p w v).cfgIndex = s.cfgIndex := rfl
@[simp] theorem State.offChipWrite_inSmm (s : State) (p : Word16) (w : Width) (v : Dword) : (s.offChipWrite p w v).inSmm = s.inSmm := rfl
@[simp] theorem State.offChipWrite_smiLatched (s : State) (p : Word16) (w : Width) (v : Dword) : (s.offChipWrite p w v).smiLatched = s.smiLatched := rfl
@[simp] theorem State.offChipWrite_nmiLatched (s : State) (p : Word16) (w : Width) (v : Dword) : (s.offChipWrite p w v).nmiLatched = s.nmiLatched := rfl
@[simp] theorem State.offChipWrite_normal (s : State) (p : Word16) (w : Width) (v : Dword) : (s.offChipWrite p w v).normal = s.normal := rfl
@[simp] theorem State.offChipWrite_smm (s : State) (p : Word16) (w : Width) (v : Dword) : (s.offChipWrite p w v).smm = s.smm := rfl
@[simp] theorem State.offChipWrite_smiLow (s : State) (p : Word16) (w : Width) (v : Dword) : (s.offChipWrite p w v).smiLow = s.smiLow := rfl
@[simp] theorem State.offChipWrite_a20m (s : State) (p : Word16) (w : Width) (v : Dword) : (s.offChipWrite p w v).a20m = s.a20m := rfl
@[simp] theorem State.offChipWrite_susp (s : State) (p : Word16) (w : Width) (v : Dword) : (s.offChipWrite p w v).susp = s.susp := rfl
@[simp] theorem State.offChipWrite_nonCacheable (s : State) (p : Word16) (w : Width) (v : Dword) : (s.offChipWrite p w v).nonCacheable = s.nonCacheable := rfl
@[simp] theorem State.offChipWrite_debugTrap (s : State) (p : Word16) (w : Width) (v : Dword) : (s.offChipWrite p w v).debugTrap = s.debugTrap := rfl
@[simp] theorem State.offChipWrite_inputs (s : State) (p : Word16) (w : Width) (v : Dword) : (s.offChipWrite p w v).inputs = s.inputs := rfl
@[simp] theorem State.offChipWrite_lastIo (s : State) (p : Word16) (w : Width) (v : Dword) : (s.offChipWrite p w v).lastIo = s.lastIo := rfl
@[simp] theorem State.offChipWrite_ioTrace (s : State) (p : Word16) (w : Width) (v : Dword) : (s.offChipWrite p w v).ioTrace = ⟨true, p, w, w.trunc v⟩ :: s.ioTrace := rfl
@[simp] theorem State.offChipWrite_staleCode (s : State) (p : Word16) (w : Width) (v : Dword) : (s.offChipWrite p w v).staleCode = s.staleCode := rfl
@[simp] theorem State.offChipWrite_draws (s : State) (p : Word16) (w : Width) (v : Dword) : (s.offChipWrite p w v).draws = s.draws := rfl

/-! ### `State.sampled` -/

@[simp] theorem State.sampled_base (s : State) : s.sampled.base = s.base := rfl
@[simp] theorem State.sampled_cfg (s : State) : s.sampled.cfg = s.cfg := rfl
@[simp] theorem State.sampled_smhr (s : State) : s.sampled.smhr = s.smhr := rfl
@[simp] theorem State.sampled_cfgIndex (s : State) : s.sampled.cfgIndex = s.cfgIndex := rfl
@[simp] theorem State.sampled_inSmm (s : State) : s.sampled.inSmm = s.inSmm := rfl
@[simp] theorem State.sampled_smiLatched (s : State) : s.sampled.smiLatched = s.smiLatched := rfl
@[simp] theorem State.sampled_nmiLatched (s : State) : s.sampled.nmiLatched = s.nmiLatched := rfl
@[simp] theorem State.sampled_normal (s : State) : s.sampled.normal = s.normal := rfl
@[simp] theorem State.sampled_smm (s : State) : s.sampled.smm = s.smm := rfl
@[simp] theorem State.sampled_smiLow (s : State) : s.sampled.smiLow = s.pins.smiLow := rfl
@[simp] theorem State.sampled_a20m (s : State) : s.sampled.a20m = s.pins.a20m := rfl
@[simp] theorem State.sampled_susp (s : State) : s.sampled.susp = s.pins.susp := rfl
@[simp] theorem State.sampled_nonCacheable (s : State) : s.sampled.nonCacheable = s.pins.nonCacheable := rfl
@[simp] theorem State.sampled_debugTrap (s : State) : s.sampled.debugTrap = s.debugTrap := rfl
@[simp] theorem State.sampled_inputs (s : State) : s.sampled.inputs = s.inputs.tail := rfl
@[simp] theorem State.sampled_lastIo (s : State) : s.sampled.lastIo = s.lastIo := rfl
@[simp] theorem State.sampled_ioTrace (s : State) : s.sampled.ioTrace = s.ioTrace := rfl
@[simp] theorem State.sampled_staleCode (s : State) : s.sampled.staleCode = s.staleCode := rfl
@[simp] theorem State.sampled_draws (s : State) : s.sampled.draws = s.draws := rfl

/-! ### `State.settled` -/

@[simp] theorem State.settled_base (s : State) : s.settled.base = s.base := rfl
@[simp] theorem State.settled_cfg (s : State) : s.settled.cfg = s.cfg := rfl
@[simp] theorem State.settled_smhr (s : State) : s.settled.smhr = s.smhr := rfl
@[simp] theorem State.settled_cfgIndex (s : State) : s.settled.cfgIndex = s.cfgIndex := rfl
@[simp] theorem State.settled_inSmm (s : State) : s.settled.inSmm = s.inSmm := rfl
@[simp] theorem State.settled_smiLatched (s : State) : s.settled.smiLatched = s.smiLatchAfter := rfl
@[simp] theorem State.settled_nmiLatched (s : State) : s.settled.nmiLatched = (s.nmiArrived && !(s.nmiServed && !s.smiTaken)) := rfl
@[simp] theorem State.settled_normal (s : State) : s.settled.normal = s.normal := rfl
@[simp] theorem State.settled_smm (s : State) : s.settled.smm = s.smm := rfl
@[simp] theorem State.settled_smiLow (s : State) : s.settled.smiLow = s.pins.smiLow := rfl
@[simp] theorem State.settled_a20m (s : State) : s.settled.a20m = s.pins.a20m := rfl
@[simp] theorem State.settled_susp (s : State) : s.settled.susp = s.pins.susp := rfl
@[simp] theorem State.settled_nonCacheable (s : State) : s.settled.nonCacheable = s.pins.nonCacheable := rfl
@[simp] theorem State.settled_debugTrap (s : State) : s.settled.debugTrap = false := rfl
@[simp] theorem State.settled_inputs (s : State) : s.settled.inputs = s.inputs.tail := rfl
@[simp] theorem State.settled_lastIo (s : State) : s.settled.lastIo = s.lastIo := rfl
@[simp] theorem State.settled_ioTrace (s : State) : s.settled.ioTrace = s.ioTrace := rfl
@[simp] theorem State.settled_staleCode (s : State) : s.settled.staleCode = s.staleCode := rfl
@[simp] theorem State.settled_draws (s : State) : s.settled.draws = s.draws := rfl

/-! ### `State.hardReset` -/

@[simp] theorem State.hardReset_base (s : State) : s.hardReset.base = State.reset.base := rfl
@[simp] theorem State.hardReset_cfg (s : State) : s.hardReset.cfg = State.reset.cfg := rfl
@[simp] theorem State.hardReset_smhr (s : State) : s.hardReset.smhr = State.reset.smhr := rfl
@[simp] theorem State.hardReset_cfgIndex (s : State) : s.hardReset.cfgIndex = State.reset.cfgIndex := rfl
@[simp] theorem State.hardReset_inSmm (s : State) : s.hardReset.inSmm = State.reset.inSmm := rfl
@[simp] theorem State.hardReset_smiLatched (s : State) : s.hardReset.smiLatched = State.reset.smiLatched := rfl
@[simp] theorem State.hardReset_nmiLatched (s : State) : s.hardReset.nmiLatched = State.reset.nmiLatched := rfl
@[simp] theorem State.hardReset_normal (s : State) : s.hardReset.normal = s.normal := rfl
@[simp] theorem State.hardReset_smm (s : State) : s.hardReset.smm = s.smm := rfl
@[simp] theorem State.hardReset_smiLow (s : State) : s.hardReset.smiLow = s.smiLow := rfl
@[simp] theorem State.hardReset_a20m (s : State) : s.hardReset.a20m = s.a20m := rfl
@[simp] theorem State.hardReset_susp (s : State) : s.hardReset.susp = s.susp := rfl
@[simp] theorem State.hardReset_nonCacheable (s : State) : s.hardReset.nonCacheable = s.nonCacheable := rfl
@[simp] theorem State.hardReset_debugTrap (s : State) : s.hardReset.debugTrap = State.reset.debugTrap := rfl
@[simp] theorem State.hardReset_inputs (s : State) : s.hardReset.inputs = s.inputs := rfl
@[simp] theorem State.hardReset_lastIo (s : State) : s.hardReset.lastIo = State.reset.lastIo := rfl
@[simp] theorem State.hardReset_ioTrace (s : State) : s.hardReset.ioTrace = s.ioTrace := rfl
@[simp] theorem State.hardReset_staleCode (s : State) : s.hardReset.staleCode = State.reset.staleCode := rfl
@[simp] theorem State.hardReset_draws (s : State) : s.hardReset.draws = s.draws := rfl

/-! ### `State.warmReset` -/

@[simp] theorem State.warmReset_base (s : State) : s.warmReset.base = (Config.baseWarmReset s.baseView).regs := rfl
@[simp] theorem State.warmReset_cfg (s : State) : s.warmReset.cfg = s.cfg := rfl
@[simp] theorem State.warmReset_smhr (s : State) : s.warmReset.smhr = s.smhr := rfl
@[simp] theorem State.warmReset_cfgIndex (s : State) : s.warmReset.cfgIndex = (Config.baseWarmReset s.baseView).cfgIndex := rfl
@[simp] theorem State.warmReset_inSmm (s : State) : s.warmReset.inSmm = (Config.baseWarmReset s.baseView).inSmm := rfl
@[simp] theorem State.warmReset_smiLatched (s : State) : s.warmReset.smiLatched = (Config.baseWarmReset s.baseView).smiLatched := rfl
@[simp] theorem State.warmReset_nmiLatched (s : State) : s.warmReset.nmiLatched = (Config.baseWarmReset s.baseView).nmiLatched := rfl
@[simp] theorem State.warmReset_normal (s : State) : s.warmReset.normal = s.normal := rfl
@[simp] theorem State.warmReset_smm (s : State) : s.warmReset.smm = s.smm := rfl
@[simp] theorem State.warmReset_smiLow (s : State) : s.warmReset.smiLow = s.smiLow := rfl
@[simp] theorem State.warmReset_a20m (s : State) : s.warmReset.a20m = s.a20m := rfl
@[simp] theorem State.warmReset_susp (s : State) : s.warmReset.susp = s.susp := rfl
@[simp] theorem State.warmReset_nonCacheable (s : State) : s.warmReset.nonCacheable = s.nonCacheable := rfl
@[simp] theorem State.warmReset_debugTrap (s : State) : s.warmReset.debugTrap = false := rfl
@[simp] theorem State.warmReset_inputs (s : State) : s.warmReset.inputs = s.inputs := rfl
@[simp] theorem State.warmReset_lastIo (s : State) : s.warmReset.lastIo = none := rfl
@[simp] theorem State.warmReset_ioTrace (s : State) : s.warmReset.ioTrace = s.ioTrace := rfl
@[simp] theorem State.warmReset_staleCode (s : State) : s.warmReset.staleCode = s.staleCode := rfl
@[simp] theorem State.warmReset_draws (s : State) : s.warmReset.draws = s.draws + 1 := rfl

/-! ### `State.afterFetch` -/

@[simp] theorem State.afterFetch_base (s : State) : s.afterFetch.base = s.base := by
  unfold State.afterFetch; split <;> rfl
@[simp] theorem State.afterFetch_cfg (s : State) : s.afterFetch.cfg = s.cfg := by
  unfold State.afterFetch; split <;> rfl
@[simp] theorem State.afterFetch_smhr (s : State) : s.afterFetch.smhr = s.smhr := by
  unfold State.afterFetch; split <;> rfl
@[simp] theorem State.afterFetch_cfgIndex (s : State) : s.afterFetch.cfgIndex = s.cfgIndex := by
  unfold State.afterFetch; split <;> rfl
@[simp] theorem State.afterFetch_inSmm (s : State) : s.afterFetch.inSmm = s.inSmm := by
  unfold State.afterFetch; split <;> rfl
@[simp] theorem State.afterFetch_smiLatched (s : State) : s.afterFetch.smiLatched = s.smiLatched := by
  unfold State.afterFetch; split <;> rfl
@[simp] theorem State.afterFetch_nmiLatched (s : State) : s.afterFetch.nmiLatched = s.nmiLatched := by
  unfold State.afterFetch; split <;> rfl
@[simp] theorem State.afterFetch_normal (s : State) : s.afterFetch.normal = s.normal := by
  unfold State.afterFetch; split <;> rfl
@[simp] theorem State.afterFetch_smm (s : State) : s.afterFetch.smm = s.smm := by
  unfold State.afterFetch; split <;> rfl
@[simp] theorem State.afterFetch_smiLow (s : State) : s.afterFetch.smiLow = s.smiLow := by
  unfold State.afterFetch; split <;> rfl
@[simp] theorem State.afterFetch_a20m (s : State) : s.afterFetch.a20m = s.a20m := by
  unfold State.afterFetch; split <;> rfl
@[simp] theorem State.afterFetch_susp (s : State) : s.afterFetch.susp = s.susp := by
  unfold State.afterFetch; split <;> rfl
@[simp] theorem State.afterFetch_nonCacheable (s : State) : s.afterFetch.nonCacheable = s.nonCacheable := by
  unfold State.afterFetch; split <;> rfl
@[simp] theorem State.afterFetch_debugTrap (s : State) : s.afterFetch.debugTrap = s.debugTrap := by
  unfold State.afterFetch; split <;> rfl
@[simp] theorem State.afterFetch_inputs (s : State) : s.afterFetch.inputs = s.inputs := by
  unfold State.afterFetch; split <;> rfl
@[simp] theorem State.afterFetch_lastIo (s : State) : s.afterFetch.lastIo = s.lastIo := by
  unfold State.afterFetch; split <;> rfl
@[simp] theorem State.afterFetch_ioTrace (s : State) : s.afterFetch.ioTrace = s.ioTrace := by
  unfold State.afterFetch; split <;> rfl
@[simp] theorem State.afterFetch_staleCode (s : State) : s.afterFetch.staleCode = s.staleCode := by
  unfold State.afterFetch; split <;> rfl

/-! ### Cells written in order -/

@[simp] theorem State.writeLocs_nil (s : State) : s.writeLocs [] = s := rfl

@[simp] theorem State.writeLocs_cons (s : State) (x : Loc × Byte) (xs : List (Loc × Byte)) :
    s.writeLocs (x :: xs) = (s.writeLoc x.1 x.2).writeLocs xs := rfl

@[simp] theorem State.writeLocs_base (xs : List (Loc × Byte)) (s : State) : (s.writeLocs xs).base = s.base := by
  induction xs generalizing s <;> simp [*]
@[simp] theorem State.writeLocs_cfg (xs : List (Loc × Byte)) (s : State) : (s.writeLocs xs).cfg = s.cfg := by
  induction xs generalizing s <;> simp [*]
@[simp] theorem State.writeLocs_smhr (xs : List (Loc × Byte)) (s : State) : (s.writeLocs xs).smhr = s.smhr := by
  induction xs generalizing s <;> simp [*]
@[simp] theorem State.writeLocs_cfgIndex (xs : List (Loc × Byte)) (s : State) : (s.writeLocs xs).cfgIndex = s.cfgIndex := by
  induction xs generalizing s <;> simp [*]
@[simp] theorem State.writeLocs_inSmm (xs : List (Loc × Byte)) (s : State) : (s.writeLocs xs).inSmm = s.inSmm := by
  induction xs generalizing s <;> simp [*]
@[simp] theorem State.writeLocs_smiLatched (xs : List (Loc × Byte)) (s : State) : (s.writeLocs xs).smiLatched = s.smiLatched := by
  induction xs generalizing s <;> simp [*]
@[simp] theorem State.writeLocs_nmiLatched (xs : List (Loc × Byte)) (s : State) : (s.writeLocs xs).nmiLatched = s.nmiLatched := by
  induction xs generalizing s <;> simp [*]
@[simp] theorem State.writeLocs_smiLow (xs : List (Loc × Byte)) (s : State) : (s.writeLocs xs).smiLow = s.smiLow := by
  induction xs generalizing s <;> simp [*]
@[simp] theorem State.writeLocs_a20m (xs : List (Loc × Byte)) (s : State) : (s.writeLocs xs).a20m = s.a20m := by
  induction xs generalizing s <;> simp [*]
@[simp] theorem State.writeLocs_susp (xs : List (Loc × Byte)) (s : State) : (s.writeLocs xs).susp = s.susp := by
  induction xs generalizing s <;> simp [*]
@[simp] theorem State.writeLocs_nonCacheable (xs : List (Loc × Byte)) (s : State) : (s.writeLocs xs).nonCacheable = s.nonCacheable := by
  induction xs generalizing s <;> simp [*]
@[simp] theorem State.writeLocs_debugTrap (xs : List (Loc × Byte)) (s : State) : (s.writeLocs xs).debugTrap = s.debugTrap := by
  induction xs generalizing s <;> simp [*]
@[simp] theorem State.writeLocs_inputs (xs : List (Loc × Byte)) (s : State) : (s.writeLocs xs).inputs = s.inputs := by
  induction xs generalizing s <;> simp [*]
@[simp] theorem State.writeLocs_lastIo (xs : List (Loc × Byte)) (s : State) : (s.writeLocs xs).lastIo = s.lastIo := by
  induction xs generalizing s <;> simp [*]
@[simp] theorem State.writeLocs_ioTrace (xs : List (Loc × Byte)) (s : State) : (s.writeLocs xs).ioTrace = s.ioTrace := by
  induction xs generalizing s <;> simp [*]
@[simp] theorem State.writeLocs_draws (xs : List (Loc × Byte)) (s : State) : (s.writeLocs xs).draws = s.draws := by
  induction xs generalizing s <;> simp [*]

end Sys2Proof.Machine
end

