-- ==== Sys2Proof/Laws/Memory.lean ====
section
/-!
SUPPORT. The laws of a byte store: a read after a write, and the canonical form kept by every operation.
-/
namespace Sys2Proof.Machine

@[simp] theorem Memory.read_nil (a : Nat) : Memory.read [] a = Memory.unlisted := rfl

theorem Memory.read_cons (c : Host.Cell) (m : Memory) (a : Nat) :
    Memory.read (c :: m) a = if c.1 = a then c.2 else Memory.read m a := rfl

theorem Memory.read_insert (m : Memory) (a : Nat) (b : Byte) (x : Nat) (h : ∀ c ∈ m, c.1 ≠ a) :
    Memory.read (Memory.insert a b m) x = if a = x then b else Memory.read m x := by
  induction m with
  | nil => rfl
  | cons c m ih =>
    have hc : c.1 ≠ a := h c (by simp)
    simp only [Memory.insert]
    split
    · rfl
    · rw [Memory.read_cons, ih fun d hd => h d (by simp [hd]), Memory.read_cons]
      by_cases hx : c.1 = x
      · have : a ≠ x := fun e => hc (hx.trans e.symm)
        simp [hx, this]
      · simp [hx]

theorem Memory.read_erase (m : Memory) (a x : Nat) :
    Memory.read (m.erase a) x = if a = x then Memory.unlisted else Memory.read m x := by
  induction m with
  | nil => simp [Memory.erase]
  | cons c m ih =>
    unfold Memory.erase at ih ⊢
    by_cases hc : c.1 = a
    · simp only [List.filter_cons, hc, ne_eq, not_true_eq_false, decide_false, Bool.false_eq_true, if_false]
      rw [ih, Memory.read_cons]
      by_cases hx : a = x <;> simp [hx, hc]
    · simp only [List.filter_cons, hc, ne_eq, not_false_eq_true, decide_true, if_true]
      rw [Memory.read_cons, ih, Memory.read_cons]
      by_cases hx : a = x
      · subst hx; simp [hc]
      · simp [hx]

/-- A read after a write: the written byte at its address, the old byte everywhere else. -/
theorem Memory.read_write (m : Memory) (a : Nat) (b : Byte) (x : Nat) :
    (m.write a b).read x = if a = x then b else m.read x := by
  unfold Memory.write
  split
  · rename_i h; rw [Memory.read_erase, h]
  · rw [Memory.read_insert _ _ _ _ (by simp [Memory.erase]), Memory.read_erase]
    split <;> rfl

theorem Memory.wf_nil : Memory.wf [] := by simp [Memory.wf]

theorem Memory.wf_erase {m : Memory} (h : m.wf) (a : Nat) : (m.erase a).wf :=
  ⟨h.1.filter _, fun c hc => h.2 c (List.mem_of_mem_filter hc)⟩

theorem Memory.mem_insert {a : Nat} {b : Byte} {m : Memory} {c : Host.Cell} (h : c ∈ Memory.insert a b m) :
    c = (a, b) ∨ c ∈ m := by
  induction m with
  | nil => simpa [Memory.insert] using h
  | cons d m ih =>
    simp only [Memory.insert] at h
    split at h
    · simpa using h
    · rcases List.mem_cons.1 h with rfl | h
      · simp
      · rcases ih h with h | h <;> simp [h]

theorem Memory.wf_insert {m : Memory} (h : m.wf) {a : Nat} {b : Byte} (ha : a < 2 ^ 32) (hb : b ≠ Memory.unlisted)
    (hn : ∀ c ∈ m, c.1 ≠ a) : (Memory.insert a b m).wf := by
  refine ⟨?_, fun c hc => ?_⟩
  · induction m with
    | nil => simp [Memory.insert]
    | cons c m ih =>
      obtain ⟨hp, hm⟩ := h
      obtain ⟨hc, hp⟩ := List.pairwise_cons.1 hp
      simp only [Memory.insert]
      split
      · rename_i hlt
        refine List.pairwise_cons.2 ⟨fun d hd => ?_, List.pairwise_cons.2 ⟨hc, hp⟩⟩
        rcases List.mem_cons.1 hd with rfl | hd
        · exact hlt
        · exact lt_trans hlt (hc d hd)
      · rename_i hge
        have hne : c.1 ≠ a := hn c (by simp)
        refine List.pairwise_cons.2 ⟨fun d hd => ?_, ih ⟨hp, fun d hd => hm d (by simp [hd])⟩ fun d hd => hn d (by simp [hd])⟩
        rcases Memory.mem_insert hd with rfl | hd
        · simp only; omega
        · exact hc d hd
  · rcases Memory.mem_insert hc with rfl | hc
    · exact ⟨ha, hb⟩
    · exact h.2 c hc

/-- Every write keeps the canonical form. -/
theorem Memory.wf_write {m : Memory} (h : m.wf) {a : Nat} (ha : a < 2 ^ 32) (b : Byte) : (m.write a b).wf := by
  unfold Memory.write
  split
  · exact Memory.wf_erase h a
  · exact Memory.wf_insert (Memory.wf_erase h a) ha ‹_› (by simp [Memory.erase])

/-! ### Cells -/

/-- A cell read after a cell is written. -/
theorem State.readLoc_writeLoc (s : State) (l k : Loc) (b : Byte) :
    (s.writeLoc l b).readLoc k = if l = k then b else s.readLoc k := by
  obtain ⟨ls, la⟩ := l
  obtain ⟨ks, ka⟩ := k
  have e : la.toNat = ka.toNat ↔ la = ka := BitVec.toNat_inj
  cases ls <;> cases ks <;> simp [State.readLoc, State.writeLoc, Memory.read_write, e]

/-- A cell no write names reads as before. -/
theorem State.readLoc_writeLocs_of_notMem (xs : List (Loc × Byte)) (s : State) (k : Loc) (h : k ∉ xs.map Prod.fst) :
    (s.writeLocs xs).readLoc k = s.readLoc k := by
  induction xs generalizing s with
  | nil => rfl
  | cons x xs ih =>
    simp only [List.map_cons, List.mem_cons, not_or] at h
    rw [State.writeLocs_cons, ih _ h.2, State.readLoc_writeLoc, if_neg (Ne.symm h.1)]

/-- Where the cells are distinct, each holds its byte afterwards. -/
theorem State.readLoc_writeLocs_of_mem (xs : List (Loc × Byte)) (s : State) (hd : (xs.map Prod.fst).Nodup)
    {x : Loc × Byte} (hx : x ∈ xs) : (s.writeLocs xs).readLoc x.1 = x.2 := by
  induction xs generalizing s with
  | nil => cases hx
  | cons y ys ih =>
    obtain ⟨hy, hd⟩ := List.nodup_cons.1 hd
    rcases List.mem_cons.1 hx with rfl | hx
    · rw [State.writeLocs_cons, State.readLoc_writeLocs_of_notMem _ _ _ hy, State.readLoc_writeLoc, if_pos rfl]
    · exact ih _ hd hx

theorem State.memoriesWf_writeLoc {s : State} (h : s.memoriesWf) (l : Loc) (b : Byte) : (s.writeLoc l b).memoriesWf := by
  unfold State.memoriesWf State.writeLoc
  cases l.store
  · exact ⟨Memory.wf_write h.1 l.addr.isLt b, h.2⟩
  · exact ⟨h.1, Memory.wf_write h.2 l.addr.isLt b⟩

theorem State.memoriesWf_writeLocs {s : State} (h : s.memoriesWf) (xs : List (Loc × Byte)) :
    (s.writeLocs xs).memoriesWf := by
  induction xs generalizing s with
  | nil => exact h
  | cons x xs ih => exact ih (State.memoriesWf_writeLoc h x.1 x.2)

/-- Cells of the other memory are all the memory a write leaves: normal memory is untouched by writes to SMM memory. -/
theorem State.writeLocs_smm_of_normal (xs : List (Loc × Byte)) (s : State) (h : ∀ x ∈ xs, x.1.store = .normal) :
    (s.writeLocs xs).smm = s.smm := by
  induction xs generalizing s with
  | nil => rfl
  | cons x xs ih =>
    rw [State.writeLocs_cons, ih _ fun y hy => h y (by simp [hy])]
    simp [State.writeLoc, h x (by simp)]

end Sys2Proof.Machine
end

