-- ==== Sys2Proof/Laws/Ops.lean ====
section
/-!
SUPPORT. One lemma per shared operation over memory and registers that says what it can do: routing, accesses, `Base`'s
outcomes, delivery of an event, SMM entry and the return from it.
-/
namespace Sys2Proof.Machine

/-! ### Routing (R104) -/

/-- Routing reads the configuration, the SMM flag and the A20M# level, and nothing else. -/
theorem State.locate_congr {s t : State} (hc : t.cfg = s.cfg) (hi : t.inSmm = s.inSmm) (ha : t.a20m = s.a20m) :
    t.locate = s.locate := by
  cases s; cases t; cases hc; cases hi; cases ha; rfl

theorem State.checkWrite_congr {s t : State} (hc : t.cfg = s.cfg) (hi : t.inSmm = s.inSmm)
    (hk : t.nonCacheable = s.nonCacheable) : t.checkWrite = s.checkWrite := by
  cases s; cases t; cases hc; cases hi; cases hk; rfl

theorem State.locateEach_congr {s t : State} (h : t.locate = s.locate) : t.locateEach = s.locateEach := by
  funext pas
  induction pas with
  | nil => rfl
  | cons pa pas ih => simp only [State.locateEach, h, ih]

theorem State.locateAccess_congr {s t : State} (h : t.locate = s.locate) : t.locateAccess = s.locateAccess := by
  funext pas; simp only [State.locateAccess, State.locateEach_congr h]

theorem State.checkWrites_congr {s t : State} (h : t.checkWrite = s.checkWrite) : t.checkWrites = s.checkWrites := by
  funext xs
  induction xs with
  | nil => rfl
  | cons x xs ih => simp only [State.checkWrites, h, ih]

theorem State.writableLocs_congr {s t : State} (hl : t.locate = s.locate) (hc : t.checkWrite = s.checkWrite) :
    t.writableLocs = s.writableLocs := by
  funext pas; simp only [State.writableLocs, State.locateAccess_congr hl, State.checkWrites_congr hc]

/-- Where an address is routed (R104): to SMM memory at itself, or to normal memory after A20M# masking. -/
theorem State.locate_ok {s : State} {pa : Dword} {l : Loc} (h : s.locate pa = .ok l) :
    (l = ⟨.smm, pa⟩ ∧ s.smmReachable = true ∧ s.cfg.smarOn = true ∧ s.cfg.inSmar (s.regionTestAddr pa) = true) ∨
      (l = ⟨.normal, s.maskedAddr pa⟩ ∧
        ¬ (s.smmReachable = true ∧ s.cfg.smarOn = true ∧ s.cfg.inSmar (s.regionTestAddr pa) = true)) := by
  unfold State.locate at h
  split at h
  · rename_i hr
    simp only [Bool.and_eq_true] at hr
    split at h
    · split at h
      · rename_i hm
        injection h with h
        exact .inl ⟨h.symm, hr.1, hr.2, hm⟩
      · rename_i hm
        injection h with h
        exact .inr ⟨h.symm, fun hc => hm hc.2.2⟩
    · cases h
  · rename_i hr
    injection h with h
    exact .inr ⟨h.symm, fun hc => hr (by simp [hc.1, hc.2.1])⟩

/-- While SMM memory cannot be reached, every address is routed to normal memory (R104). -/
theorem State.locate_unreachable {s : State} (h : s.smmReachable = false) (pa : Dword) :
    s.locate pa = .ok ⟨.normal, s.maskedAddr pa⟩ := by
  unfold State.locate; simp [h]

/-- While SMM memory cannot be reached, what the base core can reach does not depend on it (R104). -/
theorem State.baseView_unreachable {s : State} (h : s.smmReachable = false) (m : Memory) :
    ({ s with smm := m } : State).baseView = s.baseView := by
  have none : ∀ (n : Memory), n.filter (s.routable .smm) = [] := by
    intro n
    rw [List.filter_eq_nil_iff]
    intro c _
    simp [State.routable, State.locate_unreachable h]
  have hr : ({ s with smm := m } : State).routable = s.routable := by
    funext st c
    simp only [State.routable, State.locate_congr (s := s) (t := { s with smm := m }) rfl rfl rfl]
  simp only [State.baseView, hr, none]

/-- The cells of an access are those of its addresses. -/
theorem State.locateEach_ok {s : State} {pas : List Dword} {ls : List Loc} (h : s.locateEach pas = .ok ls) :
    List.Forall₂ (fun pa l => s.locate pa = .ok l) pas ls := by
  induction pas generalizing ls with
  | nil => cases h; exact .nil
  | cons pa pas ih =>
    simp only [State.locateEach] at h
    split at h
    · rename_i hl hr
      injection h with h
      subst h
      exact .cons hl (ih hr)
    all_goals cases h

theorem State.locateEach_of_forall₂ {s : State} {pas : List Dword} {ls : List Loc}
    (h : List.Forall₂ (fun pa l => s.locate pa = .ok l) pas ls) : s.locateEach pas = .ok ls := by
  induction h with
  | nil => rfl
  | cons hl _ ih => simp [State.locateEach, hl, ih]

theorem State.locateAccess_ok {s : State} {pas : List Dword} {ls : List Loc} (h : s.locateAccess pas = .ok ls) :
    List.Forall₂ (fun pa l => s.locate pa = .ok l) pas ls := by
  unfold State.locateAccess at h
  split at h
  · rename_i hl
    split at h
    · injection h with h; subst h; exact State.locateEach_ok hl
    · cases h
  · cases h

theorem State.writableLocs_ok {s : State} {pas : List Dword} {ls : List Loc} (h : s.writableLocs pas = .ok ls) :
    s.locateAccess pas = .ok ls ∧ s.checkWrites (pas.zip ls) = .ok () := by
  unfold State.writableLocs at h
  split at h
  · cases h
  · rename_i hl
    split at h
    · rename_i hc; injection h with h; subst h; exact ⟨hl, hc⟩
    · cases h

/-- Every cell written in these pairs is one that routing gives for some address. -/
def State.routed (s : State) (xs : List (Loc × Byte)) : Prop := ∀ x ∈ xs, ∃ pa, s.locate pa = .ok x.1

/-- While SMM memory cannot be reached, routed cells are cells of normal memory. -/
theorem State.routed_normal {s : State} (h : s.smmReachable = false) {xs : List (Loc × Byte)} (hr : s.routed xs) :
    ∀ x ∈ xs, x.1.store = .normal := by
  intro x hx
  obtain ⟨pa, hp⟩ := hr x hx
  rw [State.locate_unreachable h] at hp
  injection hp with hp
  rw [← hp]

theorem State.routed_zip {s : State} {pas : List Dword} {ls : List Loc} (h : s.writableLocs pas = .ok ls)
    (bs : List Byte) : s.routed (ls.zip bs) := by
  intro x hx
  obtain ⟨l, b⟩ := x
  have hl : l ∈ ls := (List.of_mem_zip hx).1
  have hf := State.locateAccess_ok (State.writableLocs_ok h).1
  clear hx h
  induction hf with
  | nil => cases hl
  | cons hp _ ih =>
    rcases List.mem_cons.1 hl with rfl | hl
    · exact ⟨_, hp⟩
    · exact ih hl

/-! ### Writes by physical address -/

/-- What one write access does: it writes routed cells. -/
theorem State.writeAccess_ok {s t : State} {acc : List (Dword × Byte)} (h : s.writeAccess acc = .ok t) :
    ∃ xs, t = s.writeLocs xs ∧ s.routed xs := by
  unfold State.writeAccess at h
  split at h
  · rename_i hw
    injection h with h
    exact ⟨_, h.symm, State.routed_zip hw _⟩
  · cases h

theorem State.writeLocs_append (xs ys : List (Loc × Byte)) (s : State) :
    s.writeLocs (xs ++ ys) = (s.writeLocs xs).writeLocs ys := by
  induction xs generalizing s with
  | nil => rfl
  | cons x xs ih => simp [ih]

/-- What write accesses in order do: they write routed cells. -/
theorem State.writeAccesses_ok {as : List (List (Dword × Byte))} {s t : State} (h : s.writeAccesses as = .ok t) :
    ∃ xs, t = s.writeLocs xs ∧ s.routed xs := by
  induction as generalizing s with
  | nil => injection h with h; exact ⟨[], h.symm, by simp [State.routed]⟩
  | cons a as ih =>
    simp only [State.writeAccesses] at h
    split at h
    · rename_i u hu
      obtain ⟨xs, rfl, hx⟩ := State.writeAccess_ok hu
      obtain ⟨ys, hy, hyr⟩ := ih h
      refine ⟨xs ++ ys, by rw [State.writeLocs_append]; exact hy, ?_⟩
      intro x hm
      rcases List.mem_append.1 hm with hm | hm
      · exact hx x hm
      · obtain ⟨pa, hp⟩ := hyr x hm
        rw [State.locate_congr (s := s) (by simp) (by simp) (by simp)] at hp
        exact ⟨pa, hp⟩
    · cases h

/-! ### What `Base` leaves -/

/-- What an applied outcome of `Base` can do: write routed cells, give new base registers (NW and ID guarded), end any
I/O record, empty the queue at a jump, take one draw. -/
theorem State.applyBase_ok {s t : State} {o : BaseOutcome} (h : s.applyBase o = .ok t) :
    ∃ xs st, s.routed xs ∧ t = { s.writeLocs xs with
      base := guardRegs s.cfg s.base o.regs
      lastIo := none
      staleCode := st
      draws := s.draws + 1 } := by
  unfold State.applyBase at h
  split at h
  · cases h
  · cases h
  · rename_i u hu
    obtain ⟨xs, rfl, hx⟩ := State.writeAccesses_ok hu
    injection h with h
    exact ⟨xs, _, hx, by rw [← h]; simp only [State.writeLocs_draws]; rfl⟩

/-- Delivering an event is applying some outcome of `Base`. -/
theorem State.deliver_ok {s t : State} {e : BaseEvent} (h : s.deliver e = .ok t) : ∃ o, s.applyBase o = .ok t := by
  unfold State.deliver at h
  split at h
  · split at h
    · exact ⟨_, h⟩
    · cases h
    · exact ⟨_, h⟩
  · exact ⟨_, h⟩

/-- An outcome of `Base` that makes no memory access always completes. -/
theorem State.applyBase_registers (s : State) {o : BaseOutcome} (hr : o.reads = []) (hw : o.writes = []) :
    s.applyBase o = .ok { s with
      base := guardRegs s.cfg s.base o.regs
      lastIo := none
      staleCode := if o.jump then [] else s.staleCode
      draws := s.draws + 1 } := by
  simp only [State.applyBase, hr, hw, State.checkReads, State.writeAccesses]

/-- After the delivery of an event the core is not halted (R228). -/
theorem State.deliver_awake {s t : State} {e : BaseEvent} (h : s.deliver e = .ok t) (b : Bool) :
    t.base.activity ≠ .halted b := by
  have base : ∀ o : BaseOutcome, (∀ b, o.regs.activity ≠ .halted b) → s.applyBase o = .ok t →
      t.base.activity ≠ .halted b := by
    intro o ho ha
    obtain ⟨xs, st, -, rfl⟩ := State.applyBase_ok ha
    exact ho b
  have awake : ∀ (a : Activity) (b : Bool), a.awake ≠ .halted b := by intro a b; cases a <;> simp [Activity.awake]
  unfold State.deliver at h
  split at h
  · split at h
    · rename_i o ho
      refine base o ?_ h
      unfold State.realDelivery at ho
      split at ho
      · split at ho
        · injection ho with ho; subst ho; intro b; simp [realDeliveryRegs]
        all_goals cases ho
      · cases ho
    · cases h
    · exact base _ (fun b => awake _ b) h
  · exact base _ (fun b => awake _ b) h

theorem outcome_next {x : Except Refusal State} {t : State} (h : outcome x = .next t) : x = .ok t := by
  cases x with
  | ok u => injection h with h; rw [h]
  | error r => cases h

/-- What `finish` can answer with a next state: the result itself, or what `Base` leaves. -/
theorem finish_next {s t : State} {x : Except Stop State} (h : finish s x = .next t) :
    x = .ok t ∨ ∃ o, s.applyBase o = .ok t := by
  unfold finish at h
  split at h
  · injection h with h; exact .inl (by rw [h])
  · exact .inr (State.deliver_ok (outcome_next h))
  · cases h
  · exact .inr ⟨_, outcome_next h⟩

/-- What the common frame of the SMM instructions can answer with a next state. -/
theorem whenValid_next {s t : State} {v d : Bool} {x : Except Stop State} (h : whenValid s v d x = .next t) :
    (v = true ∧ d = true ∧ x = .ok t) ∨ ∃ o, s.applyBase o = .ok t := by
  unfold whenValid at h
  split at h
  · split at h
    · rcases finish_next h with h | h
      · exact .inl ⟨by assumption, by assumption, h⟩
      · exact .inr h
    · cases h
  · exact .inr (State.deliver_ok (outcome_next h))

theorem liftRefusal_ok {x : Except Refusal State} {t : State} (h : liftRefusal x = .ok t) : x = .ok t := by
  cases x with
  | ok u => injection h with h; rw [h]
  | error r => cases h

/-! ### SMM entry and return -/

/-- What SMM entry can do (R270): the header written through routing as SMM accesses, the registers of R274, N cleared. -/
theorem State.enterSmm_ok {s t : State} {a : EntryArgs} (h : s.enterSmm a = .ok t) :
    ∃ xs, s.entering.routed xs ∧ t = { s.entering.writeLocs xs with
      base := entryRegs s.cfg s.base
      cfg := s.cfg.setNest false
      staleCode := []
      lastIo := none } := by
  unfold State.enterSmm at h
  split at h
  · cases h
  · rename_i u hu
    obtain ⟨xs, rfl, hx⟩ := State.writeAccesses_ok hu
    injection h with h
    exact ⟨xs, hx, h.symm⟩

/-- What RSM's effect can do (R192): with a valid SMHR, load the header it finds below `HdrTop`. -/
theorem State.resumeFromSmm_ok {s t : State} (h : s.resumeFromSmm = .ok t) :
    smhrValid s.smhr = true ∧ ∃ hd, s.readHeader (hdrTop s.smhr) = .ok hd ∧ t = s.resumed hd := by
  unfold State.resumeFromSmm at h
  split at h
  · rename_i hv
    refine ⟨hv, ?_⟩
    split at h
    · rename_i hd hh; injection h with h; exact ⟨hd, hh, h.symm⟩
    · cases h
  · cases h

/-! ### Fields of memory -/

theorem State.readLoc_congr {s t : State} (hn : t.normal = s.normal) (hs : t.smm = s.smm) : t.readLoc = s.readLoc := by
  funext l; simp only [State.readLoc, hn, hs]

/-- The bytes read at cells that hold a field are the field's, least significant first. -/
theorem ofLE_of_field {bs : List Byte} {v : Nat}
    (h : ∀ k, (hk : k < bs.length) → bs[k] = BitVec.ofNat 8 (v / 256 ^ k)) : ofLE bs = v % 256 ^ bs.length := by
  have : bs = toLE bs.length v := by
    apply List.ext_getElem
    · rw [toLE_length]
    · intro k h1 h2
      rw [toLE_getElem, h k h1]
  rw [this, ofLE_toLE, toLE_length]

end Sys2Proof.Machine
end

