-- ==== Sys2Proof/Laws/Ports.lean ====
section
/-!
SUPPORT. What a configuration write, a port access, an I/O instruction and a selector load can do (R221 to R227, R235).
-/
namespace Sys2Proof.Machine

/-- How a port access relates the states before and after it. -/
structure PortEffect (s t : State) : Prop where
  normal : t.normal = s.normal
  smm : t.smm = s.smm
  base : t.base = s.base
  inSmm : t.inSmm = s.inSmm
  smiLatched : t.smiLatched = s.smiLatched
  nmiLatched : t.nmiLatched = s.nmiLatched
  smiLow : t.smiLow = s.smiLow
  a20m : t.a20m = s.a20m
  susp : t.susp = s.susp
  nonCacheable : t.nonCacheable = s.nonCacheable
  debugTrap : t.debugTrap = s.debugTrap
  inputs : t.inputs = s.inputs
  smhr : t.smhr = s.smhr ∨ (s.configLocked = false ∧ t.smhr = smhrInvalidated s.smhr)
  locked : s.configLocked = true → t.cfg.lockedSettings = s.cfg.lockedSettings
  smiLock : s.cfg.smiLock = true → t.cfg.smiLock = true
  smmMode : s.inSmm = true → t.cfg.smmMode = s.cfg.smmMode

theorem PortEffect.of_same {s t : State} (hc : t.cfg = s.cfg) (hm : t.smhr = s.smhr)
    (h : t.normal = s.normal ∧ t.smm = s.smm ∧ t.inSmm = s.inSmm ∧ t.smiLatched = s.smiLatched ∧
      t.nmiLatched = s.nmiLatched ∧ t.smiLow = s.smiLow ∧ t.a20m = s.a20m ∧ t.susp = s.susp ∧ t.nonCacheable = s.nonCacheable ∧
      t.debugTrap = s.debugTrap ∧ t.inputs = s.inputs ∧ t.base = s.base) :
    PortEffect s t := by
  obtain ⟨h1, h2, h3, h4, h5, h6, h7, h8, h9, h10, h11, h12⟩ := h
  exact ⟨h1, h2, h12, h3, h4, h5, h6, h7, h8, h9, h10, h11, .inl hm,
    fun _ => by rw [hc], fun h => by rw [hc]; exact h, fun _ => by rw [hc]⟩

/-- Emptying the configuration window changes nothing else. -/
theorem PortEffect.closeWindow {s t : State} (h : PortEffect s t) : PortEffect s t.closeWindow :=
  ⟨h.normal, h.smm, h.base, h.inSmm, h.smiLatched, h.nmiLatched, h.smiLow, h.a20m, h.susp, h.nonCacheable,
    h.debugTrap, h.inputs, h.smhr, h.locked,
    h.smiLock, h.smmMode⟩

theorem ccr1Written_locked (old v : Byte) :
    (ccr1Written true old v).getLsbD 1 = old.getLsbD 1 ∧ (ccr1Written true old v).getLsbD 2 = old.getLsbD 2 ∧
      (ccr1Written true old v).getLsbD 3 = old.getLsbD 3 ∧ (ccr1Written true old v).getLsbD 7 = old.getLsbD 7 := by
  refine ⟨?_, ?_, ?_, ?_⟩ <;> simp [ccr1Written]

theorem ccr3Written_smiLock (l : Bool) (old v : Byte) (h : old.getLsbD 0 = true) :
    (ccr3Written l old v).getLsbD 0 = true := by
  simp [ccr3Written, h]

theorem ccr3Written_locked (old v : Byte) : (ccr3Written true old v).getLsbD 1 = old.getLsbD 1 := by
  have h := getLsbD_setBit v 1 (old.getLsbD 1) 1
  simp only [ccr3Written, if_true, BitVec.getLsbD_or, h]
  simp

/-- What a configuration write can do (R222): the lock holds its bits, SMI_LOCK is never cleared, ARR3 writes clear
SMHR's valid bit, SMM_MODE does not change inside SMM. -/
theorem State.cfgWrite_ok {s t : State} {idx v : Byte} (h : s.cfgWrite idx v = .ok t) : PortEffect s t := by
  have same : ∀ c m, (m = s.smhr ∨ (s.configLocked = false ∧ m = smhrInvalidated s.smhr)) →
      (s.configLocked = true → c.lockedSettings = s.cfg.lockedSettings) →
      (s.cfg.smiLock = true → c.smiLock = true) → (s.inSmm = true → c.smmMode = s.cfg.smmMode) →
      PortEffect s { s with cfg := c, smhr := m } := fun c m hm h1 h2 h3 =>
    ⟨rfl, rfl, rfl, rfl, rfl, rfl, rfl, rfl, rfl, rfl, rfl, rfl, hm, h1, h2, h3⟩
  have arr : ∀ c : CfgRegs, c.ccr3 = s.cfg.ccr3 → c.ccr6 = s.cfg.ccr6 → PortEffect s (s.arr3Written c) := by
    intro c h3 h6
    unfold State.arr3Written
    split
    · exact .of_same rfl rfl ⟨rfl, rfl, rfl, rfl, rfl, rfl, rfl, rfl, rfl, rfl, rfl, rfl⟩
    · rename_i hl
      refine same c _ (.inr ⟨by simpa using hl, rfl⟩) (fun h => absurd h hl) (fun h => ?_) (fun _ => ?_)
      · simpa [CfgRegs.smiLock, h3] using h
      · simp [CfgRegs.smmMode, h6]
  unfold State.cfgWrite at h
  split at h
  · injection h with h; subst h
    exact same _ _ (.inl rfl) (fun _ => rfl) id (fun _ => rfl)
  · injection h with h; subst h
    refine same _ _ (.inl rfl) (fun hl => ?_) id (fun _ => rfl)
    obtain ⟨h1, h2, h3, h4⟩ := ccr1Written_locked s.cfg.ccr1 v
    simp only [CfgRegs.lockedSettings, CfgRegs.useSmi, CfgRegs.smac, CfgRegs.mmac, CfgRegs.sm3, hl, h1, h2, h3, h4]
    rfl
  · injection h with h; subst h
    exact same _ _ (.inl rfl) (fun _ => rfl) id (fun _ => rfl)
  · injection h with h; subst h
    refine same _ _ (.inl rfl) (fun hl => ?_) (fun hs => ccr3Written_smiLock _ _ _ hs) (fun _ => rfl)
    simp only [CfgRegs.lockedSettings, CfgRegs.nmiEn, hl, ccr3Written_locked]
    rfl
  · injection h with h; subst h; exact arr _ rfl rfl
  · injection h with h; subst h; exact arr _ rfl rfl
  · injection h with h; subst h; exact arr _ rfl rfl
  · injection h with h; subst h
    exact same _ _ (.inl rfl) (fun _ => rfl) id (fun _ => rfl)
  · injection h with h; subst h
    exact same _ _ (.inl rfl) (fun _ => rfl) id (fun _ => rfl)
  · split at h
    · cases h
    · rename_i hm
      injection h with h; subst h
      refine same _ _ (.inl rfl) (fun _ => rfl) id (fun hi => ?_)
      simpa [hi, CfgRegs.smmMode] using hm
  · cases h

/-- What a port write can do. -/
theorem State.ioWrite_ok {s t : State} {p : Word16} {w : Width} {v : Dword} (h : s.ioWrite p w v = .ok t) :
    PortEffect s t := by
  unfold State.ioWrite at h
  split at h
  · cases h
  · split at h
    · injection h with h; subst h; exact .of_same rfl rfl ⟨rfl, rfl, rfl, rfl, rfl, rfl, rfl, rfl, rfl, rfl, rfl, rfl⟩
    · split at h
      · unfold State.dataPortWrite at h
        split at h
        · injection h with h; subst h; exact .of_same rfl rfl ⟨rfl, rfl, rfl, rfl, rfl, rfl, rfl, rfl, rfl, rfl, rfl, rfl⟩
        · split at h
          · cases h
          · injection h with h; subst h; exact .of_same rfl rfl ⟨rfl, rfl, rfl, rfl, rfl, rfl, rfl, rfl, rfl, rfl, rfl, rfl⟩
          · split at h
            · rename_i hw; injection h with h; subst h; exact (State.cfgWrite_ok hw).closeWindow
            · cases h
      · injection h with h; subst h; exact .of_same rfl rfl ⟨rfl, rfl, rfl, rfl, rfl, rfl, rfl, rfl, rfl, rfl, rfl, rfl⟩

/-- What a port read can do. -/
theorem State.ioRead_ok {s t : State} {p : Word16} {w : Width} {v : Dword} (h : s.ioRead p w = .ok (v, t)) :
    t.cfg = s.cfg ∧ t.smhr = s.smhr ∧ PortEffect s t := by
  have off : ∀ u : State, u = s ∨ u = s.closeWindow → (u.offChipRead p w).2.cfg = s.cfg ∧
      (u.offChipRead p w).2.smhr = s.smhr ∧ PortEffect s (u.offChipRead p w).2 := by
    rintro u (rfl | rfl)
    · exact ⟨rfl, rfl, .of_same rfl rfl ⟨rfl, rfl, rfl, rfl, rfl, rfl, rfl, rfl, rfl, rfl, rfl, rfl⟩⟩
    · exact ⟨rfl, rfl, .of_same rfl rfl ⟨rfl, rfl, rfl, rfl, rfl, rfl, rfl, rfl, rfl, rfl, rfl, rfl⟩⟩
  unfold State.ioRead at h
  split at h
  · cases h
  · split at h
    · rename_i hp
      simp only [Bool.and_eq_true, decide_eq_true_eq] at hp
      obtain ⟨rfl, rfl⟩ := hp
      unfold State.dataPortRead at h
      split at h
      · injection h with h; rw [show t = (s.offChipRead dataPort .byte).2 by rw [h]]; exact off s (.inl rfl)
      · split at h
        · cases h
        · injection h with h
          rw [show t = (s.closeWindow.offChipRead dataPort .byte).2 by rw [h]]
          exact off s.closeWindow (.inr rfl)
        · split at h
          · injection h with h
            rw [show t = s.closeWindow by injection h with _ h; exact h.symm]
            exact ⟨rfl, rfl, .of_same rfl rfl ⟨rfl, rfl, rfl, rfl, rfl, rfl, rfl, rfl, rfl, rfl, rfl, rfl⟩⟩
          · cases h
    · injection h with h; rw [show t = (s.offChipRead p w).2 by rw [h]]; exact off s (.inl rfl)

/-- When a configuration write changes SMHR (R68, R222): the index is one of ARR3 and ARR3 is not locked. -/
theorem State.cfgWrite_smhr {s t : State} {idx v : Byte} (h : s.cfgWrite idx v = .ok t) :
    t.smhr = s.smhr ∨ (s.configLocked = false ∧ t.smhr = s.smhr &&& 0xFFFFFFFE ∧
      (idx = 0xCD ∨ idx = 0xCE ∨ idx = 0xCF)) := by
  have arr : ∀ c, (s.arr3Written c).smhr = s.smhr ∨
      (s.configLocked = false ∧ (s.arr3Written c).smhr = s.smhr &&& 0xFFFFFFFE) := by
    intro c
    unfold State.arr3Written
    split
    · exact .inl rfl
    · rename_i hl; exact .inr ⟨by simpa using hl, rfl⟩
  have sel : ∀ c, (idx = 0xCD ∨ idx = 0xCE ∨ idx = 0xCF) → .ok (s.arr3Written c) = (.ok t : Except Refusal State) →
      t.smhr = s.smhr ∨ (s.configLocked = false ∧ t.smhr = s.smhr &&& 0xFFFFFFFE ∧
        (idx = 0xCD ∨ idx = 0xCE ∨ idx = 0xCF)) := by
    intro c hx hc
    injection hc with hc
    subst hc
    exact (arr c).imp_right fun h => ⟨h.1, h.2, hx⟩
  unfold State.cfgWrite at h
  split at h
  · injection h with h; subst h; exact .inl rfl
  · injection h with h; subst h; exact .inl rfl
  · injection h with h; subst h; exact .inl rfl
  · injection h with h; subst h; exact .inl rfl
  · rename_i hx; exact sel _ (.inl (BitVec.eq_of_toNat_eq hx)) h
  · rename_i hx; exact sel _ (.inr (.inl (BitVec.eq_of_toNat_eq hx))) h
  · rename_i hx; exact sel _ (.inr (.inr (BitVec.eq_of_toNat_eq hx))) h
  · injection h with h; subst h; exact .inl rfl
  · injection h with h; subst h; exact .inl rfl
  · split at h
    · cases h
    · injection h with h; subst h; exact .inl rfl
  · cases h

/-- When a port write changes SMHR: a byte written to port 23h with an index of ARR3 selected, ARR3 not locked; the valid
bit is lost and the window closed. -/
theorem State.ioWrite_smhr {s t : State} {p : Word16} {w : Width} {v : Dword} (h : s.ioWrite p w v = .ok t) :
    t.smhr = s.smhr ∨ (p = 0x23 ∧ w = .byte ∧ t.cfgIndex = none ∧ s.configLocked = false ∧
      t.smhr = s.smhr &&& 0xFFFFFFFE ∧ ∃ idx, s.cfgIndex = some idx ∧ (idx = 0xCD ∨ idx = 0xCE ∨ idx = 0xCF)) := by
  unfold State.ioWrite at h
  split at h
  · cases h
  · split at h
    · injection h with h; subst h; exact .inl rfl
    · split at h
      · rename_i hp
        simp only [Bool.and_eq_true, decide_eq_true_eq] at hp
        unfold State.dataPortWrite at h
        split at h
        · injection h with h; subst h; exact .inl rfl
        · rename_i idx hi
          split at h
          · cases h
          · injection h with h; subst h; exact .inl rfl
          · split at h
            · rename_i u hw
              injection h with h
              subst h
              exact (State.cfgWrite_smhr hw).imp_right fun ⟨h1, h2, h3⟩ => ⟨hp.1, hp.2, rfl, h1, h2, idx, hi, h3⟩
            · cases h
      · injection h with h; subst h; exact .inl rfl

/-! ### I/O instructions (R227) -/

/-- How an I/O instruction relates the states before and after it: a port access, writes to routed cells, new base
registers that keep CR0, EFLAGS and CPL; SMHR stays but for a write of ARR3. -/
def IoEffect (s t : State) : Prop :=
  ∃ u xs b io, PortEffect s u ∧ s.routed xs ∧ t = { u.writeLocs xs with base := b, lastIo := io } ∧
    b.cr0 = s.base.cr0 ∧ b.eflags = s.base.eflags ∧ b.cpl = s.base.cpl ∧ (t.smhr = s.smhr ∨ s.wroteArr3 t)

theorem PortEffect.refl (s : State) : PortEffect s s :=
  .of_same rfl rfl ⟨rfl, rfl, rfl, rfl, rfl, rfl, rfl, rfl, rfl, rfl, rfl, rfl⟩

theorem PortEffect.io {s u : State} (h : PortEffect s u) {b : BaseRegs} {io : Option IoInfo}
    (hb : b.cr0 = s.base.cr0 ∧ b.eflags = s.base.eflags ∧ b.cpl = s.base.cpl)
    (hm : u.smhr = s.smhr ∨ s.wroteArr3 { u with base := b, lastIo := io }) :
    IoEffect s { u with base := b, lastIo := io } :=
  ⟨u, [], b, io, h, by simp [State.routed], rfl, hb.1, hb.2.1, hb.2.2, hm⟩

theorem State.portOut_ok {s t : State} {p : Word16} {w : Width} {v : Dword} (h : s.portOut p w v = .ok t) :
    s.ioWrite p w v = .ok t := by
  unfold State.portOut at h
  split at h
  · split at h
    · rename_i hw; injection h with h; subst h; exact hw
    · cases h
  · cases h

/-- An OUT that completed, with the record it leaves. -/
theorem State.portOut_io {s u : State} {p : Word16} {w : Width} {v : Dword} (h : s.portOut p w v = .ok u) {b : BaseRegs}
    (hb : b.cr0 = s.base.cr0 ∧ b.eflags = s.base.eflags ∧ b.cpl = s.base.cpl) (cur x esi : Dword) (rep : Bool) :
    IoEffect s { u with base := b, lastIo := some ⟨cur, rep, true, w, p, x, esi⟩ } := by
  refine (State.ioWrite_ok (State.portOut_ok h)).io hb ?_
  rcases State.ioWrite_smhr (State.portOut_ok h) with h | ⟨rfl, rfl, hc, hl, hm, idx, hi, hx⟩
  · exact .inl h
  · exact .inr ⟨idx, _, hi, hx, hl, hm, hc, rfl, rfl, rfl, rfl⟩

theorem State.portIn_ok {s t : State} {p : Word16} {w : Width} {v : Dword} (h : s.portIn p w = .ok (v, t)) :
    t.smhr = s.smhr ∧ PortEffect s t := by
  unfold State.portIn at h
  split at h
  · split at h
    · rename_i hw; injection h with h; subst h; exact (State.ioRead_ok hw).2
    · cases h
  · cases h

theorem State.execIn_ok {s t : State} {w : Width} {p : PortArg} {len : Nat} (h : s.execIn w p len = .ok t) :
    IoEffect s t := by
  unfold State.execIn at h
  dsimp only at h
  split at h
  · rename_i hp; injection h with h; subst h; exact (State.portIn_ok hp).2.io ⟨rfl, rfl, rfl⟩ (.inl (State.portIn_ok hp).1)
  · cases h

theorem State.execOut_ok {s t : State} {w : Width} {p : PortArg} {len : Nat} (h : s.execOut w p len = .ok t) :
    IoEffect s t := by
  unfold State.execOut at h
  dsimp only at h
  split at h
  · rename_i hp; injection h with h; subst h; exact State.portOut_io (b := s.base.past len) hp ⟨rfl, rfl, rfl⟩ _ _ _ _
  · cases h

theorem State.advance_io (s : State) (len : Nat) : IoEffect s (s.advance len) :=
  (PortEffect.refl s).io ⟨rfl, rfl, rfl⟩ (.inl rfl)

theorem BaseRegs.pastIteration_keeps (b : BaseRegs) (rep : Bool) (len : Nat) :
    (b.pastIteration rep len).cr0 = b.cr0 ∧ (b.pastIteration rep len).eflags = b.eflags ∧
      (b.pastIteration rep len).cpl = b.cpl := by
  unfold BaseRegs.pastIteration
  split <;> exact ⟨rfl, rfl, rfl⟩

theorem State.segWriteLocs_ok {s : State} {r : SegReg} {offs : List Dword} {ls : List Loc}
    (h : s.segWriteLocs r offs = .ok ls) : ∃ pas, s.segAddrs r .write offs = .ok pas ∧ s.writableLocs pas = .ok ls := by
  unfold State.segWriteLocs at h
  split at h
  · cases h
  · rename_i pas hp
    split at h
    · rename_i hl; injection h with h; subst h; exact ⟨pas, hp, hl⟩
    · cases h

theorem State.execIns_ok {s t : State} {w : Width} {rep a32 : Bool} {len : Nat}
    (h : s.execIns w rep a32 len = .ok t) : IoEffect s t := by
  unfold State.execIns at h
  dsimp only at h
  split at h
  · injection h with h; subst h; exact s.advance_io len
  · split at h
    · cases h
    · rename_i ls hl
      obtain ⟨pas, -, hw⟩ := State.segWriteLocs_ok hl
      split at h
      · rename_i v u hp
        injection h with h; subst h
        obtain ⟨k1, k2, k3⟩ := BaseRegs.pastIteration_keeps s.base rep len
        exact ⟨u, _, _, _, (State.portIn_ok hp).2, State.routed_zip hw _, rfl, k1, k2, k3,
          .inl ((State.writeLocs_smhr _ u).trans (State.portIn_ok hp).1)⟩
      · cases h

theorem State.execOuts_ok {s t : State} {w : Width} {rep a32 : Bool} {pre : List Pfx} {len : Nat}
    (h : s.execOuts w rep a32 pre len = .ok t) : IoEffect s t := by
  unfold State.execOuts at h
  dsimp only at h
  split at h
  · injection h with h; subst h; exact s.advance_io len
  · split at h
    · cases h
    · split at h
      · rename_i hp
        injection h with h; subst h
        exact State.portOut_io
          (b := { s.base.pastIteration rep len with
            gpr := countDown (moveIndex s.base.gpr a32 .esi (stringStep s.base.eflags w)) rep a32 })
          hp (BaseRegs.pastIteration_keeps s.base rep len) _ _ _ _
      · cases h

/-- What a selector load answers with an outcome: its own in real mode, the shutdown in protected mode with no GDT once its
operands are read (R235, R293). -/
theorem State.selectorLoad_ok {s : State} {o : Except Stop BaseOutcome} {x : BaseOutcome} (h : s.selectorLoad o = .ok x) :
    (s.base.realMode = true ∧ o = .ok x) ∨
      (s.base.protectedMode = true ∧ s.noGdt = true ∧ (∃ y, o = .ok y) ∧ x = regsOnly s.base.shutDown) := by
  unfold State.selectorLoad at h
  split at h
  · exact .inl ⟨‹_›, h⟩
  · split at h
    · rename_i hg
      rw [Bool.and_eq_true] at hg
      cases o with
      | error e => cases h
      | ok y => injection h with h; exact .inr ⟨hg.1, hg.2, ⟨y, rfl⟩, h.symm⟩
    · cases h

/-- A selector load in protected mode with no GDT, its operands read. -/
theorem State.selectorLoad_shutDown {s : State} (hp : s.base.protectedMode = true) (hn : s.noGdt = true) (o : BaseOutcome) :
    s.selectorLoad (.ok o) = .ok (regsOnly s.base.shutDown) := by
  have hr : s.base.realMode = false := by
    simp only [BaseRegs.protectedMode, Bool.and_eq_true, Bool.not_eq_true'] at hp
    exact hp.1
  simp only [State.selectorLoad, hr, hp, hn, Bool.and_self, if_true, Bool.false_eq_true, if_false]
  rfl

/-- A base instruction whose outcome makes no memory access completes with that outcome's registers. -/
theorem State.execBase_registers {s : State} {i : BaseInstr} {len : Nat} {o : BaseOutcome}
    (h : s.execBase i len = finish s (s.baseStep (s.baseEffect i len))) (he : s.baseEffect i len = .ok o)
    (hr : o.reads = []) (hw : o.writes = []) :
    s.execBase i len = .next { s with
      base := guardRegs s.cfg s.base o.regs
      lastIo := none
      staleCode := if o.jump then [] else s.staleCode
      draws := s.draws + 1 } := by
  rw [h, he]
  simp only [State.baseStep, State.applyBase_registers s hr hw, liftRefusal, finish]

/-- What a base instruction can answer with a next state: an I/O instruction's effect, or an outcome of the base core
applied, INT 3's after its own length. -/
theorem State.execBase_next {s t : State} {i : BaseInstr} {len : Nat} (h : s.execBase i len = .next t) :
    IoEffect s t ∨ (∃ o, s.applyBase o = .ok t) ∨ ∃ o, (s.advance len).applyBase o = .ok t := by
  have fin : ∀ x, finish s x = .next t → (x = .ok t → IoEffect s t) →
      IoEffect s t ∨ (∃ o, s.applyBase o = .ok t) ∨ ∃ o, (s.advance len).applyBase o = .ok t := by
    intro x hx hk
    rcases finish_next hx with hx | hx
    · exact .inl (hk hx)
    · exact .inr (.inl hx)
  have base : ∀ x, finish s (s.baseStep x) = .next t →
      IoEffect s t ∨ (∃ o, s.applyBase o = .ok t) ∨ ∃ o, (s.advance len).applyBase o = .ok t := by
    intro x hx
    rcases finish_next hx with hx | hx
    · unfold State.baseStep at hx
      split at hx
      · exact .inr (.inl ⟨_, liftRefusal_ok hx⟩)
      · cases hx
    · exact .inr (.inl hx)
  unfold State.execBase at h
  split at h
  · exact fin _ h State.execIn_ok
  · exact fin _ h State.execOut_ok
  · exact fin _ h State.execIns_ok
  · exact fin _ h State.execOuts_ok
  · exact .inr (.inr (State.deliver_ok (outcome_next h)))
  · exact base _ h

end Sys2Proof.Machine
end

