-- ==== Sys2Proof/Laws/Step.lean ====
section
/-!
SUPPORT. What the meaning of each of the ten instructions, and one step of the machine, can do: the inversion lemmas
from which statements about every step are derived.
-/
namespace Sys2Proof.Machine

/-! ### Operand accesses -/

theorem State.writeOperand_ok {s t : State} {pre : List Pfx} {m : MemArg} {bs : List Byte}
    (h : s.writeOperand pre m bs = .ok t) : ∃ ls, s.operandCells pre m bs.length = .ok ls ∧ t = s.writeLocs (ls.zip bs) := by
  unfold State.writeOperand at h
  split at h
  · rename_i ls hl; injection h with h; exact ⟨ls, hl, h.symm⟩
  · cases h

theorem State.operandCells_routed {s : State} {pre : List Pfx} {m : MemArg} {n : Nat} {ls : List Loc}
    (h : s.operandCells pre m n = .ok ls) (bs : List Byte) : s.routed (ls.zip bs) := by
  obtain ⟨pas, -, hw⟩ := State.segWriteLocs_ok h
  exact State.routed_zip hw bs

theorem State.saveSegReg_ok {s t : State} {pre : List Pfx} {rm : RmArg} {r : SegReg} {len : Nat}
    (h : s.saveSegReg pre rm r len = .ok t) :
    ∃ m ls, rm = .mem m ∧ s.operandCells pre m 10 = .ok ls ∧ t = (s.writeLocs (ls.zip r.toBytes)).advance len := by
  unfold State.saveSegReg at h
  split at h
  · cases h
  · rename_i m
    split at h
    · rename_i u hu
      obtain ⟨ls, hl, rfl⟩ := State.writeOperand_ok hu
      rw [SegReg.toBytes_length] at hl
      injection h with h
      exact ⟨m, ls, rfl, hl, h.symm⟩
    · cases h

theorem State.restoreSegReg_ok {s t : State} {pre : List Pfx} {rm : RmArg} {put : BaseRegs → SegReg → BaseRegs} {len : Nat}
    (h : s.restoreSegReg pre rm put len = .ok t) :
    ∃ m bs, rm = .mem m ∧ s.readOperand pre m 10 = .ok bs ∧
      t = State.advance { s with base := put s.base (SegReg.ofBytes bs) } len := by
  unfold State.restoreSegReg at h
  split at h
  · cases h
  · rename_i m
    split at h
    · rename_i bs hb
      injection h with h
      exact ⟨m, bs, rfl, hb, h.symm⟩
    · cases h

/-! ### The meanings -/

/-- What a meaning can do that is neither an exception nor SMM entry, RSM or WRSHR: write routed cells, give new base
registers that keep CR0, EFLAGS and CPL, and end the I/O record. -/
def LocalEffect (s t : State) : Prop :=
  ∃ xs b, s.routed xs ∧ t = { s.writeLocs xs with base := b, lastIo := none } ∧
    b.cr0 = s.base.cr0 ∧ b.eflags = s.base.eflags ∧ b.cpl = s.base.cpl

theorem LocalEffect.of_save {s t : State} {pre : List Pfx} {rm : RmArg} {r : SegReg} {len : Nat}
    (h : s.saveSegReg pre rm r len = .ok t) : LocalEffect s t := by
  obtain ⟨m, ls, -, hl, rfl⟩ := State.saveSegReg_ok h
  exact ⟨_, _, State.operandCells_routed hl _, rfl, by simp, by simp, by simp⟩

theorem LocalEffect.of_regs (s : State) {b : BaseRegs} (len : Nat) (h0 : b.cr0 = s.base.cr0)
    (hf : b.eflags = s.base.eflags) (hc : b.cpl = s.base.cpl) : LocalEffect s (State.advance { s with base := b } len) :=
  ⟨[], { b with eip := b.eip + BitVec.ofNat 32 len }, by simp [State.routed], rfl, h0, hf, hc⟩

/-- Exactly what `exec` can answer with a next state. -/
theorem exec_next {i : Instr} {s t : State} (h : exec i s = .next t) :
    (∃ o, s.applyBase o = .ok t) ∨ LocalEffect s t ∨
      (∃ pre reg rm v len, i = .wrshr pre reg rm ∧ s.smmInstrValid = true ∧ t = State.advance { s with smhr := v } len) ∨
      (∃ pre, i = .smint pre ∧ s.smintValid = true ∧ s.enterSmm (smintArgs s i.length) = .ok t) ∨
      (∃ pre, i = .rsm pre ∧ s.smmInstrValid = true ∧ s.resumeFromSmm = .ok t) := by
  cases i with
  | svdc pre sreg rm =>
    rcases whenValid_next h with ⟨-, -, h⟩ | h
    · split at h
      · exact .inr (.inl (.of_save h))
      · cases h
    · exact .inl h
  | rsdc pre sreg rm =>
    simp only [exec, execRsdc] at h
    split at h
    · exact .inl (State.deliver_ok (outcome_next h))
    · rcases whenValid_next h with ⟨-, -, h⟩ | h
      · split at h
        · obtain ⟨m, bs, -, -, rfl⟩ := State.restoreSegReg_ok h
          exact .inr (.inl (.of_regs s _ rfl rfl rfl))
        · cases h
      · exact .inl h
  | svldt pre reg rm =>
    rcases whenValid_next h with ⟨-, -, h⟩ | h
    · exact .inr (.inl (.of_save h))
    · exact .inl h
  | rsldt pre reg rm =>
    rcases whenValid_next h with ⟨-, -, h⟩ | h
    · obtain ⟨m, bs, -, -, rfl⟩ := State.restoreSegReg_ok h
      exact .inr (.inl (.of_regs s _ rfl rfl rfl))
    · exact .inl h
  | svts pre reg rm =>
    rcases whenValid_next h with ⟨-, -, h⟩ | h
    · exact .inr (.inl (.of_save h))
    · exact .inl h
  | rsts pre reg rm =>
    rcases whenValid_next h with ⟨-, -, h⟩ | h
    · obtain ⟨m, bs, -, -, rfl⟩ := State.restoreSegReg_ok h
      exact .inr (.inl (.of_regs s _ rfl rfl rfl))
    · exact .inl h
  | smint pre =>
    rcases whenValid_next h with ⟨hv, -, h⟩ | h
    · exact .inr (.inr (.inr (.inl ⟨pre, rfl, hv, liftRefusal_ok h⟩)))
    · exact .inl h
  | rsm pre =>
    rcases whenValid_next h with ⟨hv, -, h⟩ | h
    · exact .inr (.inr (.inr (.inr ⟨pre, rfl, hv, liftRefusal_ok h⟩)))
    · exact .inl h
  | rdshr pre reg rm =>
    rcases whenValid_next h with ⟨-, -, h⟩ | h
    · split at h
      · injection h with h; subst h
        exact .inr (.inl (.of_regs s _ rfl rfl rfl))
      · split at h
        · rename_i u hu
          obtain ⟨ls, hl, rfl⟩ := State.writeOperand_ok hu
          injection h with h; subst h
          exact .inr (.inl ⟨_, _, State.operandCells_routed hl _, rfl, by simp, by simp, by simp⟩)
        · cases h
    · exact .inl h
  | wrshr pre reg rm =>
    rcases whenValid_next h with ⟨hv, -, h⟩ | h
    · split at h
      · injection h with h
        exact .inr (.inr (.inl ⟨pre, reg, _, _, _, rfl, hv, h.symm⟩))
      · split at h
        · injection h with h
          exact .inr (.inr (.inl ⟨pre, reg, _, _, _, rfl, hv, h.symm⟩))
        · cases h
    · exact .inl h

/-! ### One step -/

/-- What the boundary can do (R267): RESET, WM_RST, SMM entry by the pin, or the delivery of a pending
breakpoint, an NMI or INTR. -/
theorem State.boundary_next {s t : State} (h : s.boundary = some (.next t)) :
    (s.pins.reset = true ∧ t = s.sampled.hardReset) ∨
      (s.pins.reset = false ∧ s.pins.warmReset = true ∧ t = s.sampled.warmReset) ∨
      (s.pins.reset = false ∧ s.pins.warmReset = false ∧ s.smiTaken = true ∧ s.settled.enterSmm s.pinArgs = .ok t) ∨
      (s.pins.reset = false ∧ s.pins.warmReset = false ∧ s.smiTaken = false ∧ ∃ o, s.settled.applyBase o = .ok t) := by
  unfold State.boundary at h
  split at h
  · rename_i hr; injection h with h; injection h with h; exact .inl ⟨hr, h.symm⟩
  · rename_i hr
    simp only [Bool.not_eq_true] at hr
    split at h
    · rename_i hw; injection h with h; injection h with h; exact .inr (.inl ⟨hr, hw, h.symm⟩)
    · rename_i hw
      simp only [Bool.not_eq_true] at hw
      split at h
      · rename_i hd
        injection h with h
        exact .inr (.inr (.inr ⟨hr, hw, by simp [State.smiTaken, hd], State.deliver_ok (outcome_next h)⟩))
      · split at h
        · rename_i hs; injection h with h; exact .inr (.inr (.inl ⟨hr, hw, hs, outcome_next h⟩))
        · rename_i hs
          simp only [Bool.not_eq_true] at hs
          split at h
          · injection h with h; exact .inr (.inr (.inr ⟨hr, hw, hs, State.deliver_ok (outcome_next h)⟩))
          · split at h
            · injection h with h; exact .inr (.inr (.inr ⟨hr, hw, hs, State.deliver_ok (outcome_next h)⟩))
            · cases h

/-- A boundary at which the instruction stream goes on had neither a reset nor an SMI. -/
theorem State.boundary_none {s : State} (h : s.boundary = none) :
    s.pins.reset = false ∧ s.pins.warmReset = false ∧ s.smiTaken = false := by
  unfold State.boundary at h
  split at h
  · cases h
  · split at h
    · cases h
    · split at h
      · cases h
      · split at h
        · cases h
        · rename_i h1 h2 _ h3
          simp only [Bool.not_eq_true] at h1 h2 h3
          exact ⟨h1, h2, h3⟩

/-- What the instruction at the instruction pointer can do, the debug registers apart. -/
def RunEffect (s t : State) : Prop :=
  (∃ i, s.nextSmmInstr = some i ∧ exec i s.afterFetch = .next t) ∨ IoEffect s.afterFetch t ∨
    (∃ o, s.afterFetch.applyBase o = .ok t) ∨ ∃ o len, (s.afterFetch.advance len).applyBase o = .ok t

theorem State.runCode_next {s t : State} (h : s.afterFetch.runCode s.fetch = .next t) : RunEffect s t := by
  unfold State.runCode at h
  rw [State.afterFetch_base] at h
  unfold RunEffect State.nextSmmInstr
  split at h
  · rename_i i r hd; exact .inl ⟨i, by rw [hd], h⟩
  · split at h
    · rcases State.execBase_next h with h | h | ⟨o, h⟩
      · exact .inr (.inl h)
      · exact .inr (.inr (.inl h))
      · exact .inr (.inr (.inr ⟨o, _, h⟩))
    · rcases finish_next h with h | h
      · cases h
      · exact .inr (.inr (.inl h))
  · split at h
    · exact .inr (.inr (.inl (State.deliver_ok (outcome_next h))))
    · split at h
      · rcases finish_next h with h | h
        · cases h
        · exact .inr (.inr (.inl h))
      · cases h

/-- What a step of the instruction stream can do under the debug registers (R303): the instruction's own effect, with a
breakpoint perhaps pending after it, or the delivery of one in its place. -/
theorem State.runInstruction_next {s t : State} (h : s.runInstruction = .next t) :
    (s.debugMatch ≠ .before ∧ ∃ u d, RunEffect s u ∧ t = { u with debugTrap := d }) ∨
      ∃ o, s.applyBase o = .ok t := by
  unfold State.runInstruction State.underBreakpoints at h
  split at h
  · rename_i hm; exact .inl ⟨by simp [hm], t, t.debugTrap, State.runCode_next h, rfl⟩
  · exact .inr (State.deliver_ok (outcome_next h))
  · rename_i hm
    split at h
    · rename_i u hu
      injection h with h
      exact .inl ⟨by simp [hm], u, _, State.runCode_next hu, h.symm⟩
    · cases h
    · cases h

/-- What one step can do. -/
theorem step_next {s t : State} (h : step s = .next t) :
    (s.pins.reset = true ∧ t = s.sampled.hardReset) ∨
      (s.pins.reset = false ∧ s.pins.warmReset = true ∧ t = s.sampled.warmReset) ∨
      (s.pins.reset = false ∧ s.pins.warmReset = false ∧ s.smiTaken = true ∧ s.settled.enterSmm s.pinArgs = .ok t) ∨
      (s.pins.reset = false ∧ s.pins.warmReset = false ∧ s.smiTaken = false ∧
        ((∃ n, t = { s.settled with draws := n }) ∨ (∃ o, s.settled.applyBase o = .ok t) ∨
          ∃ u d, s.goesOn ∧ t = { u with debugTrap := d } ∧
            ((∃ i, s.runs i ∧ exec i s.settled.afterFetch = .next u) ∨ IoEffect s.settled.afterFetch u ∨
              (∃ o, s.settled.afterFetch.applyBase o = .ok u) ∨
              ∃ o len, (s.settled.afterFetch.advance len).applyBase o = .ok u))) := by
  unfold step at h
  split at h
  · rename_i o ho
    subst h
    rcases State.boundary_next ho with h | h | h | ⟨h1, h2, h3, h4⟩
    · exact .inl h
    · exact .inr (.inl h)
    · exact .inr (.inr (.inl h))
    · exact .inr (.inr (.inr ⟨h1, h2, h3, .inr (.inl h4)⟩))
  · rename_i hb
    obtain ⟨h1, h2, h3⟩ := State.boundary_none hb
    refine .inr (.inr (.inr ⟨h1, h2, h3, ?_⟩))
    unfold State.proceed at h
    split at h
    · rename_i hr
      split at h
      · injection h with h; exact .inl ⟨_, h.symm⟩
      · rename_i hs
        rcases State.runInstruction_next h with ⟨hm, u, d, hu, rfl⟩ | h
        · have hg : s.goesOn := ⟨hb, by simpa using hr, by simpa using hs⟩
          refine .inr (.inr ⟨u, d, hg, rfl, ?_⟩)
          rcases hu with ⟨i, hi, h⟩ | h
          · exact .inl ⟨i, ⟨hg, hm, hi⟩, h⟩
          · exact .inr h
        · exact .inr (.inl h)
    · injection h with h; exact .inl ⟨s.settled.draws, h.symm⟩
    · split at h
      · cases h
      · injection h with h; exact .inl ⟨s.settled.draws, h.symm⟩

end Sys2Proof.Machine
end

