-- ==== Sys2Proof/Laws/Header.lean ====
section
/-!
SUPPORT. Accesses that lie in one memory, the bits of the header's flags dword, and the header's fields in memory after
an entry has written them (R116 to R118, R270).
-/
namespace Sys2Proof.Machine

/-! ### Addresses below a pointer -/

theorem below_add (top : Dword) {d i : Nat} (h : i ≤ d) :
    top - BitVec.ofNat 32 d + BitVec.ofNat 32 i = top - BitVec.ofNat 32 (d - i) := by
  have : BitVec.ofNat 32 d = BitVec.ofNat 32 (d - i) + BitVec.ofNat 32 i := by
    rw [← BitVec.ofNat_add]; congr 1; omega
  rw [this]; ring

theorem below_inj (top : Dword) {i j : Nat} (hi : i < 2 ^ 32) (hj : j < 2 ^ 32)
    (h : top - BitVec.ofNat 32 i = top - BitVec.ofNat 32 j) : i = j := by
  have := congrArg BitVec.toNat (sub_right_inj.1 h)
  rwa [BitVec.toNat_ofNat, BitVec.toNat_ofNat, Nat.mod_eq_of_lt hi, Nat.mod_eq_of_lt hj] at this

/-- The addresses of a field of `n` bytes that begins `d` below a pointer. -/
theorem physAddrs_below (top : Dword) {d n : Nat} (h : n ≤ d) :
    physAddrs (top - BitVec.ofNat 32 d) n = (List.range n).map fun i => top - BitVec.ofNat 32 (d - i) := by
  unfold physAddrs
  apply List.map_congr_left
  intro i hi
  exact below_add top (by have := List.mem_range.1 hi; omega)

/-! ### Accesses that are placed in one memory -/

theorem sameStore_map (st : StoreId) (pas : List Dword) : sameStore (pas.map (Loc.mk st)) = true := by
  cases pas <;> simp [sameStore]

/-- An access whose bytes all lie at their own addresses in one memory reaches these cells. -/
theorem State.locateAccess_placed {s : State} {st : StoreId} {pas : List Dword}
    (h : ∀ pa ∈ pas, s.locate pa = .ok ⟨st, pa⟩) : s.locateAccess pas = .ok (pas.map (Loc.mk st)) := by
  have : s.locateEach pas = .ok (pas.map (Loc.mk st)) := by
    apply State.locateEach_of_forall₂
    induction pas with
    | nil => exact .nil
    | cons pa pas ih => exact .cons (h pa (by simp)) (ih fun p hp => h p (by simp [hp]))
  simp [State.locateAccess, this, sameStore_map]

theorem State.writableLocs_placed {s : State} {st : StoreId} {pas : List Dword}
    (h : ∀ pa ∈ pas, s.locate pa = .ok ⟨st, pa⟩) (hc : ∀ pa ∈ pas, s.checkWrite pa ⟨st, pa⟩ = .ok ()) :
    s.writableLocs pas = .ok (pas.map (Loc.mk st)) := by
  have : s.checkWrites (pas.zip (pas.map (Loc.mk st))) = .ok () := by
    clear h
    induction pas with
    | nil => rfl
    | cons pa pas ih =>
      simp only [List.map_cons, List.zip_cons_cons, State.checkWrites, hc pa (by simp)]
      exact ih fun p hp => hc p (by simp [hp])
  simp [State.writableLocs, State.locateAccess_placed h, this]

/-- One write access whose bytes are all placed and writable. -/
theorem State.writeAccess_placed {s : State} {st : StoreId} {acc : List (Dword × Byte)}
    (h : ∀ x ∈ acc, s.locate x.1 = .ok ⟨st, x.1⟩) (hc : ∀ x ∈ acc, s.checkWrite x.1 ⟨st, x.1⟩ = .ok ()) :
    s.writeAccess acc = .ok (s.writeLocs (acc.map fun x => (⟨st, x.1⟩, x.2))) := by
  have hw := State.writableLocs_placed (s := s) (st := st) (pas := acc.map Prod.fst)
    (by simpa using fun a b hb => h (a, b) hb) (by simpa using fun a b hb => hc (a, b) hb)
  simp only [State.writeAccess, hw]
  congr 2
  rw [List.map_map, List.zip_map']
  rfl

/-- Write accesses in order whose bytes are all placed and writable. -/
theorem State.writeAccesses_placed {as : List (List (Dword × Byte))} {s : State} {st : StoreId}
    (h : ∀ x ∈ as.flatten, s.locate x.1 = .ok ⟨st, x.1⟩)
    (hc : ∀ x ∈ as.flatten, s.checkWrite x.1 ⟨st, x.1⟩ = .ok ()) :
    s.writeAccesses as = .ok (s.writeLocs (as.flatten.map fun x => (⟨st, x.1⟩, x.2))) := by
  induction as generalizing s with
  | nil => rfl
  | cons a as ih =>
    simp only [State.writeAccesses]
    rw [State.writeAccess_placed (st := st) (fun x hx => h x (by simp [hx])) (fun x hx => hc x (by simp [hx]))]
    dsimp only
    rw [ih, List.flatten_cons, List.map_append, State.writeLocs_append]
    · intro x hx
      rw [State.locate_congr (s := s) (by simp) (by simp) (by simp)]
      exact h x (by simp at hx ⊢; tauto)
    · intro x hx
      rw [State.checkWrite_congr (s := s) (by simp) (by simp) (by simp)]
      exact hc x (by simp at hx ⊢; tauto)

/-- A number read from memory, where the cells of the access hold it (R12, R110). -/
theorem State.memRead_field {s : State} {st : StoreId} {pa : Dword} {n v : Nat}
    (h : ∀ k, k < n → s.locate (pa + BitVec.ofNat 32 k) = .ok ⟨st, pa + BitVec.ofNat 32 k⟩)
    (hf : s.fieldIs st pa n v) : s.memRead pa n = .ok (v % 256 ^ n) := by
  have hl := State.locateAccess_placed (s := s) (st := st) (pas := physAddrs pa n)
    (by simpa [physAddrs] using h)
  have hlen : (List.map s.readLoc (List.map (Loc.mk st) (physAddrs pa n))).length = n := by simp [physAddrs]
  simp only [State.memRead, State.readAccess, hl]
  rw [ofLE_of_field, hlen]
  intro k hk
  rw [hlen] at hk
  simpa [physAddrs] using hf k hk

theorem State.memRead_below {s : State} {st : StoreId} {top : Dword} {m d n v : Nat} (hp : s.placedBelow st top m)
    (hn : n ≤ d) (hd : d ≤ m) (hf : s.fieldIs st (top - BitVec.ofNat 32 d) n v) :
    s.memRead (top - BitVec.ofNat 32 d) n = .ok (v % 256 ^ n) := by
  refine State.memRead_field (st := st) (fun k hk => ?_) hf
  rw [below_add top (by omega)]
  exact hp _ (by omega) (by omega)

/-! ### The positions of the header's open fields (R117) -/

theorem hdrCplPos_range : 5 ≤ hdrCplPos ∧ hdrCplPos ≤ 30 := by
  unfold hdrCplPos; omega

theorem hdrNPos_range : 5 ≤ hdrNPos ∧ hdrNPos ≤ 31 ∧ hdrNPos ≠ hdrCplPos ∧ hdrNPos ≠ hdrCplPos + 1 := by
  unfold hdrNPos skipField; have := hdrCplPos_range; split <;> omega

theorem hdrIsPos_range :
    5 ≤ hdrIsPos ∧ hdrIsPos ≤ 31 ∧ hdrIsPos ≠ hdrCplPos ∧ hdrIsPos ≠ hdrCplPos + 1 ∧ hdrIsPos ≠ hdrNPos := by
  have hc := hdrCplPos_range
  have hn := hdrNPos_range
  unfold hdrIsPos skipField
  repeat' split
  all_goals omega

theorem getLsbD_setBit_dword (v : Dword) {p : Nat} (hp : p < 32) (b : Bool) (j : Nat) :
    (setBit v p b).getLsbD j = if j = p then b else v.getLsbD j := by
  rw [getLsbD_setBit]
  by_cases h : j = p <;> simp [h, hp]

/-- New base registers that keep CR0 and EFLAGS pass the guard unchanged (R49, R58). -/
theorem guardRegs_keeping (c : CfgRegs) {b n : BaseRegs} (h0 : n.cr0 = b.cr0) (h1 : n.eflags = b.eflags) :
    guardRegs c b n = n := by
  have e0 : keepNw c b.cr0 n.cr0 = n.cr0 := by
    unfold keepNw; split
    · rw [← h0]; exact setBit_self _ _
    · rfl
  have e1 : keepId c b.eflags n.eflags = n.eflags := by
    unfold keepId; split
    · rfl
    · rw [← h1]; exact setBit_self _ _
  simp only [guardRegs, e0, e1]

/-- Every bit of the flags dword an entry writes (R117, R272), by its place. -/
theorem entryFlags_getLsbD (s : State) (a : EntryArgs) (f : Dword) (b : Bool) (j : Nat) :
    (entryFlags s a f b).getLsbD j =
      if j = hdrCplPos + 1 then s.base.cpl.getLsbD 1 else if j = hdrCplPos then s.base.cpl.getLsbD 0
      else if j = hdrNPos then s.inSmm
      else if j = hdrIsPos then (match a.cause with | .pin => false | .smint => b)
      else if j = 4 then a.halted else if j = 3 then decide (a.cause = .smint)
      else match a.io with
        | some i => if j = 2 then i.rep else if j = 1 then i.write else if j = 0 then s.base.csWritable else f.getLsbD j
        | none => if j = 0 then s.base.csWritable else f.getLsbD j := by
  have hc := hdrCplPos_range
  have hn := hdrNPos_range
  have hi := hdrIsPos_range
  unfold entryFlags
  dsimp only
  rw [getLsbD_setBit_dword _ (by omega), getLsbD_setBit_dword _ (by omega), getLsbD_setBit_dword _ (by omega),
    getLsbD_setBit_dword _ (by omega), getLsbD_setBit_dword _ (by omega), getLsbD_setBit_dword _ (by omega)]
  cases a.io with
  | none => rw [getLsbD_setBit_dword _ (by omega)] <;> rfl
  | some i =>
    dsimp only
    rw [getLsbD_setBit_dword _ (by omega), getLsbD_setBit_dword _ (by omega), getLsbD_setBit_dword _ (by omega)]
      <;> rfl

/-- The determined bits of the flags dword an entry writes (R117, R272), by their meaning. -/
theorem entryFlags_bits (s : State) (a : EntryArgs) (f : Dword) (b : Bool) :
    (entryFlags s a f b).getLsbD 0 = s.base.csWritable ∧
      (entryFlags s a f b).getLsbD 3 = decide (a.cause = .smint) ∧ (entryFlags s a f b).getLsbD 4 = a.halted ∧
      headerN (entryFlags s a f b) = s.inSmm ∧ headerCpl (entryFlags s a f b) = s.base.cpl ∧
      (a.cause = .pin → (entryFlags s a f b).getLsbD hdrIsPos = false) ∧
      ∀ i, a.io = some i → (entryFlags s a f b).getLsbD 1 = i.write ∧ (entryFlags s a f b).getLsbD 2 = i.rep := by
  have hc := hdrCplPos_range
  have hn := hdrNPos_range
  have hi := hdrIsPos_range
  have low : ∀ j, j < 5 → (entryFlags s a f b).getLsbD j =
      if j = 4 then a.halted else if j = 3 then decide (a.cause = .smint)
      else match a.io with
        | some i => if j = 2 then i.rep else if j = 1 then i.write else if j = 0 then s.base.csWritable else f.getLsbD j
        | none => if j = 0 then s.base.csWritable else f.getLsbD j := by
    intro j hj
    rw [entryFlags_getLsbD, if_neg (by omega), if_neg (by omega), if_neg (by omega), if_neg (by omega)]
  refine ⟨?_, low 3 (by omega), low 4 (by omega), ?_, ?_, fun h => ?_, fun i h => ?_⟩
  · rw [low 0 (by omega)]; cases a.io <;> rfl
  · rw [headerN, entryFlags_getLsbD, if_neg (by omega), if_neg (by omega), if_pos rfl]
  · apply BitVec.eq_of_getLsbD_eq
    intro j hj
    rw [headerCpl, BitVec.getLsbD_setWidth, BitVec.getLsbD_ushiftRight, entryFlags_getLsbD]
    obtain rfl | rfl : j = 0 ∨ j = 1 := by omega
    · simp
    · simp
  · rw [entryFlags_getLsbD, if_neg (by omega), if_neg (by omega), if_neg (by omega), if_pos rfl, h]
  · rw [low 1 (by omega), low 2 (by omega), h]; simp

/-! ### The header in memory (R116, R270) -/

/-- The distances below the pointer, and the sizes, of the header's fields (R116). -/
def headerLayout : List (Nat × Nat) :=
  [(0x04, 4), (0x08, 4), (0x0C, 4), (0x10, 4), (0x14, 4), (0x16, 2), (0x18, 2), (0x20, 8), (0x24, 4), (0x26, 2),
    (0x28, 2), (0x2C, 4), (0x30, 4)]

/-- The distances of the header's bytes in the order an entry writes them. -/
def headerBytes : List Nat :=
  (headerLayout.map fun f => (List.range f.2).map fun i => f.1 - i).flatten

theorem headerBytes_nodup : headerBytes.Nodup := by decide

theorem headerBytes_range : ∀ k ∈ headerBytes, 1 ≤ k ∧ k ≤ 48 := by decide

theorem headerFields_layout (s : State) (a : EntryArgs) :
    (headerFields s a).map (fun f => (f.1, f.2.1)) = headerLayout := rfl

theorem memWriteAccess_fst (pa : Dword) (n v : Nat) : (memWriteAccess pa n v).map Prod.fst = physAddrs pa n := by
  unfold memWriteAccess
  rw [List.map_fst_zip]
  simp [physAddrs, toLE_length]

/-- The addresses of a header's bytes. -/
theorem headerWrites_fst (s : State) (a : EntryArgs) (top : Dword) :
    (headerWrites s a top).flatten.map Prod.fst = headerBytes.map fun k => top - BitVec.ofNat 32 k := by
  have h : ∀ (l : List (Nat × Nat × Nat)), (∀ f ∈ l, f.2.1 ≤ f.1) →
      ((l.map fun f => memWriteAccess (top - BitVec.ofNat 32 f.1) f.2.1 f.2.2).flatten).map Prod.fst =
        (((l.map fun f => (f.1, f.2.1)).map fun f => (List.range f.2).map fun i => f.1 - i).flatten).map
          fun k => top - BitVec.ofNat 32 k := by
    intro l hl
    induction l with
    | nil => rfl
    | cons f l ih =>
      simp only [List.map_cons, List.flatten_cons, List.map_append]
      rw [ih fun g hg => hl g (by simp [hg]), memWriteAccess_fst, physAddrs_below top (hl f (by simp))]
      simp only [List.map_map, Function.comp_def]
  have hl : ∀ f ∈ headerFields s a, f.2.1 ≤ f.1 := by
    intro f hf
    have : (f.1, f.2.1) ∈ headerLayout := by
      rw [← headerFields_layout s a]; exact List.mem_map_of_mem hf
    have : ∀ g ∈ headerLayout, g.2 ≤ g.1 := by decide
    exact this _ ‹_›
  rw [headerWrites, h _ hl, headerFields_layout]
  rfl

/-- The writes of a header as cells of one memory. -/
def headerCells (s : State) (a : EntryArgs) (st : StoreId) (top : Dword) : List (Loc × Byte) :=
  (headerWrites s a top).flatten.map fun x => (⟨st, x.1⟩, x.2)

theorem headerCells_fst (s : State) (a : EntryArgs) (st : StoreId) (top : Dword) :
    (headerCells s a st top).map Prod.fst = headerBytes.map fun k => ⟨st, top - BitVec.ofNat 32 k⟩ := by
  have := congrArg (List.map (Loc.mk st)) (headerWrites_fst s a top)
  simpa [headerCells, List.map_map, Function.comp_def] using this

theorem headerCells_nodup (s : State) (a : EntryArgs) (st : StoreId) (top : Dword) :
    ((headerCells s a st top).map Prod.fst).Nodup := by
  rw [headerCells_fst]
  refine (List.nodup_map_iff_inj_on headerBytes_nodup).2 fun i hi j hj h => ?_
  have hi := headerBytes_range i hi
  have hj := headerBytes_range j hj
  injection h with _ h
  exact below_inj top (by omega) (by omega) h

theorem headerCells_mem_below {s : State} {a : EntryArgs} {st : StoreId} {top : Dword} {l : Loc}
    (h : l ∈ (headerCells s a st top).map Prod.fst) : l ∈ cellsBelow st top 48 := by
  rw [headerCells_fst] at h
  obtain ⟨k, hk, rfl⟩ := List.mem_map.1 h
  have := headerBytes_range k hk
  refine List.mem_map.2 ⟨k - 1, List.mem_range.2 (by omega), ?_⟩
  rw [show k - 1 + 1 = k by omega]

/-- Every field of the header stands in memory after its writes. -/
theorem headerCells_field {s u : State} {a : EntryArgs} {st : StoreId} {top : Dword} {d n v : Nat}
    (h : (d, n, v) ∈ headerFields s a) :
    (u.writeLocs (headerCells s a st top)).fieldIs st (top - BitVec.ofNat 32 d) n v := by
  intro k hk
  have hx : ((⟨st, top - BitVec.ofNat 32 d + BitVec.ofNat 32 k⟩, BitVec.ofNat 8 (v / 256 ^ k)) : Loc × Byte) ∈
      headerCells s a st top := by
    refine List.mem_map.2 ⟨(top - BitVec.ofNat 32 d + BitVec.ofNat 32 k, BitVec.ofNat 8 (v / 256 ^ k)), ?_, rfl⟩
    refine List.mem_flatten.2 ⟨memWriteAccess (top - BitVec.ofNat 32 d) n v, ?_, ?_⟩
    · exact List.mem_map.2 ⟨(d, n, v), h, rfl⟩
    · unfold memWriteAccess physAddrs
      rw [List.mem_iff_getElem]
      refine ⟨k, by simp [toLE_length, hk], ?_⟩
      rw [List.getElem_zip, toLE_getElem]
      simp
  exact State.readLoc_writeLocs_of_mem _ u (headerCells_nodup s a st top) hx

/-- SMM entry where the header fits (R270): the state it leaves, written out. -/
theorem State.enterSmm_fits {s : State} {a : EntryArgs} {st : StoreId} (h : s.headerFits st) :
    s.enterSmm a = .ok { s.entering.writeLocs (headerCells s a st s.entryTop) with
      base := entryRegs s.cfg s.base
      cfg := s.cfg.setNest false
      staleCode := []
      lastIo := none } := by
  have hm : ∀ x ∈ (headerWrites s a s.entryTop).flatten, ∃ k, 1 ≤ k ∧ k ≤ 48 ∧ x.1 = s.entryTop - BitVec.ofNat 32 k := by
    intro x hx
    have : x.1 ∈ (headerWrites s a s.entryTop).flatten.map Prod.fst := List.mem_map_of_mem hx
    rw [headerWrites_fst] at this
    obtain ⟨k, hk, e⟩ := List.mem_map.1 this
    exact ⟨k, (headerBytes_range k hk).1, (headerBytes_range k hk).2, e.symm⟩
  have hw := State.writeAccesses_placed (as := headerWrites s a s.entryTop) (s := s.entering) (st := st)
    (fun x hx => by obtain ⟨k, h1, h2, e⟩ := hm x hx; rw [e]; exact h.1 k h1 h2)
    (fun x hx => by obtain ⟨k, h1, h2, e⟩ := hm x hx; rw [e]; exact h.2 k h1 h2)
  unfold State.enterSmm
  rw [show hdrTop s.entering.smhr = s.entryTop from rfl, hw]
  rfl

/-! ### The CS descriptor after an entry -/

/-- The CS descriptor after an entry has the region's base (R274). -/
theorem entryCsDesc_base (c : CfgRegs) (sel : Word16) : SegReg.base ⟨sel, entryCsDesc c⟩ = c.smarBase := by
  apply BitVec.eq_of_getLsbD_eq
  intro i hi
  simp only [SegReg.base, entryCsDesc, BitVec.getLsbD_append, BitVec.getLsbD_extractLsb']
  interval_cases i <;> simp

/-- And the limit FFFF FFFFh and a 16-bit default size (R114, R274). -/
theorem entryCsDesc_limit (c : CfgRegs) (sel : Word16) :
    SegReg.limit ⟨sel, entryCsDesc c⟩ = 0xFFFFFFFF ∧ SegReg.big ⟨sel, entryCsDesc c⟩ = false := by
  have hg : SegReg.granular ⟨sel, entryCsDesc c⟩ = true := by
    simp only [SegReg.granular, entryCsDesc, BitVec.getLsbD_append]; simp
  refine ⟨?_, ?_⟩
  · rw [SegReg.limit, hg, if_pos rfl]
    apply BitVec.eq_of_getLsbD_eq
    intro i hi
    simp only [SegReg.limit20, entryCsDesc, BitVec.getLsbD_append, BitVec.getLsbD_extractLsb', Config.entryCsLimit20]
    interval_cases i <;> simp
  · simp only [SegReg.big, entryCsDesc, BitVec.getLsbD_append]; simp

/-- A descriptor given another base has that base (R114). -/
theorem withBase_base (sel : Word16) (d : Qword) (b : Dword) : SegReg.base ⟨sel, withBase d b⟩ = b := by
  apply BitVec.eq_of_getLsbD_eq
  intro i hi
  simp only [SegReg.base, withBase, BitVec.getLsbD_append, BitVec.getLsbD_extractLsb']
  interval_cases i <;> simp

/-- Outside the base's bits a descriptor given another base is as it was (R114). -/
theorem withBase_getLsbD (d : Qword) (b : Dword) {i : Nat} (h : i < 16 ∨ (40 ≤ i ∧ i < 56)) :
    (withBase d b).getLsbD i = d.getLsbD i := by
  simp only [withBase, BitVec.getLsbD_append, BitVec.getLsbD_extractLsb']
  rcases h with h | ⟨h1, h2⟩
  · simp only [show i < 16 by omega, decide_true, if_true, Nat.zero_add, Bool.true_and]
  · simp only [show ¬ i < 16 by omega, show ¬ (i - 16) < 24 by omega, show (i - 16 - 24) < 16 by omega, decide_true,
      if_true, Bool.true_and, if_false]
    congr 1; omega

theorem extractLsb'_congr {v w : Qword} {s n : Nat} (h : ∀ i, s ≤ i → i < s + n → v.getLsbD i = w.getLsbD i) :
    v.extractLsb' s n = w.extractLsb' s n := by
  apply BitVec.eq_of_getLsbD_eq
  intro i hi
  simp only [BitVec.getLsbD_extractLsb', hi, decide_true, Bool.true_and]
  exact h _ (by omega) (by omega)

/-- A real-mode load gives a register 16 times the selector as its base (R24, R239). -/
theorem SegReg.loadReal_base (r : SegReg) (sel : Word16) : (r.loadReal sel).base.toNat = 16 * sel.toNat := by
  unfold SegReg.loadReal
  rw [withBase_base]
  have := sel.isLt
  simp only [BitVec.toNat_shiftLeft, BitVec.toNat_setWidth, Nat.shiftLeft_eq]
  omega

/-- A real-mode load keeps limit, rights and default size (R24). -/
theorem SegReg.loadReal_keeps (r : SegReg) (sel : Word16) :
    (r.loadReal sel).limit = r.limit ∧ (r.loadReal sel).rights = r.rights ∧ (r.loadReal sel).big = r.big := by
  have k : ∀ i, (i < 16 ∨ (40 ≤ i ∧ i < 56)) → (r.loadReal sel).desc.getLsbD i = r.desc.getLsbD i :=
    fun i h => withBase_getLsbD _ _ h
  refine ⟨?_, ?_, k 54 (by omega)⟩
  · have h1 : (r.loadReal sel).limit20 = r.limit20 := by
      unfold SegReg.limit20
      rw [extractLsb'_congr (fun i _ _ => k i (by omega)), extractLsb'_congr (s := 0) (fun i _ _ => k i (by omega))]
    have h2 : (r.loadReal sel).granular = r.granular := k 55 (by omega)
    simp only [SegReg.limit, h1, h2]
  · unfold SegReg.rights
    rw [extractLsb'_congr (fun i _ _ => k i (by omega)), extractLsb'_congr (s := 40) (fun i _ _ => k i (by omega))]

/-- Routing reads CCR1, ARR3, the SMM flag and the A20M# level only. -/
theorem State.locate_congr_regs {s t : State} (h1 : t.cfg.ccr1 = s.cfg.ccr1) (h2 : t.cfg.arrCD = s.cfg.arrCD)
    (h3 : t.cfg.arrCE = s.cfg.arrCE) (h4 : t.cfg.arrCF = s.cfg.arrCF) (hi : t.inSmm = s.inSmm) (ha : t.a20m = s.a20m) :
    t.locate = s.locate := by
  obtain ⟨_, ⟨⟩, _⟩ := s; obtain ⟨_, ⟨⟩, _⟩ := t
  cases h1; cases h2; cases h3; cases h4; cases hi; cases ha; rfl

end Sys2Proof.Machine
end

