-- ==== Sys2Proof/Laws/Operands.lean ====
section
/-!
SUPPORT. Accesses through a segment and memory operands: how many addresses and cells they have, where these are while
paging is off, and the ten bytes of a mem80 (R12, R113, R171).
-/
namespace Sys2Proof.Machine

/-! ### Translation -/

theorem State.translateFrom_length {s : State} {k : AccessKind} {left : Nat} {lin' pa' : Dword} {lins pas : List Dword}
    (h : s.translateFrom k left lin' pa' lins = .ok pas) : pas.length = lins.length := by
  induction lins generalizing left lin' pa' pas with
  | nil => injection h with h; subst h; rfl
  | cons lin lins ih =>
    simp only [State.translateFrom] at h
    split at h
    · cases h
    · split at h
      · rename_i hr; injection h with h; subst h; simp [ih hr]
      · cases h

theorem State.translateFrom_off {s : State} (hp : s.base.paging = false) (k : AccessKind) (left : Nat) (lin' : Dword)
    (lins : List Dword) : s.translateFrom k left lin' lin' lins = .ok lins := by
  induction lins generalizing left lin' with
  | nil => rfl
  | cons lin lins ih =>
    have e : (if (0 < left && lin = lin' + 1 : Bool) then Except.ok (lin' + 1) else s.translate k lin) = .ok lin := by
      split
      · simp_all
      · simp [State.translate, hp]
    simp only [State.translateFrom, e, ih]

theorem State.translateEach_length {s : State} {k : AccessKind} {lins pas : List Dword} (h : s.translateEach k lins = .ok pas) :
    pas.length = lins.length := State.translateFrom_length h

theorem State.translateEach_off {s : State} (hp : s.base.paging = false) (k : AccessKind) (lins : List Dword) :
    s.translateEach k lins = .ok lins := State.translateFrom_off hp k 0 0 lins

theorem physAddrs_succ (a : Dword) (n : Nat) : physAddrs a (n + 1) = a :: physAddrs (a + 1) n := by
  simp only [physAddrs, List.range_succ_eq_map, List.map_cons, List.map_map]
  congr 1
  · simp
  · refine List.map_congr_left fun i _ => ?_
    simp only [Function.comp, Nat.succ_eq_add_one]
    bv_omega

/-- Consecutive bytes, at most `left` of them, go on from the byte before them. -/
theorem State.translateFrom_run (s : State) (k : AccessKind) (n : Nat) {left : Nat} (h : n ≤ left) (lin' pa' : Dword) :
    s.translateFrom k left lin' pa' (physAddrs (lin' + 1) n) = .ok (physAddrs (pa' + 1) n) := by
  induction n generalizing left lin' pa' with
  | zero => rfl
  | succ n ih =>
    have e : 0 < left := by omega
    rw [physAddrs_succ, physAddrs_succ]
    simp only [State.translateFrom, e, decide_true, Bool.and_self, if_true, if_neg (Nat.ne_of_gt e),
      ih (show n ≤ left - 1 by omega)]

/-- R12: an access of at most eight consecutive bytes is at the one `Phys` of its first byte. -/
theorem State.translateEach_run {s : State} {k : AccessKind} {lin pa : Dword} (h : s.translate k lin = .ok pa) {n : Nat}
    (hn : n ≤ 7) : s.translateEach k (physAddrs lin (n + 1)) = .ok (physAddrs pa (n + 1)) := by
  rw [physAddrs_succ, physAddrs_succ, State.translateEach, State.translateFrom]
  simp only [Nat.lt_irrefl, decide_false, Bool.false_and, Bool.false_eq_true, if_false, if_true, h,
    State.translateFrom_run s k n hn]

/-- Where no byte of a piece is left the next byte begins a new one, whatever came before. -/
theorem State.translateFrom_zero (s : State) (k : AccessKind) (lin' pa' : Dword) (lins : List Dword) :
    s.translateFrom k 0 lin' pa' lins = s.translateEach k lins := by
  cases lins <;> rfl

theorem State.translateFrom_append {s : State} {k : AccessKind} {left : Nat} {lin' pa' : Dword} {as bs pas pbs : List Dword}
    (hl : as.length = left) (ha : s.translateFrom k left lin' pa' as = .ok pas) (hb : s.translateEach k bs = .ok pbs) :
    s.translateFrom k left lin' pa' (as ++ bs) = .ok (pas ++ pbs) := by
  induction as generalizing left lin' pa' pas with
  | nil => subst hl; injection ha with ha; subst ha; rw [List.nil_append, List.length_nil, State.translateFrom_zero, hb]; rfl
  | cons a as ih =>
    subst hl
    rw [List.cons_append]
    simp only [State.translateFrom, List.length_cons, Nat.succ_ne_zero, if_false] at ha ⊢
    split at ha
    · cases ha
    · split at ha
      · rename_i h2
        injection ha with ha; subst ha
        simp only [ih (by simp) h2, List.cons_append]
      · cases ha

/-- R172 to R177: an access of eight bytes and the one after it are translated each on its own, wherever the first one's
bytes lie. -/
theorem State.translateEach_append {s : State} {k : AccessKind} {as bs pas pbs : List Dword} (hl : as.length = 8)
    (ha : s.translateEach k as = .ok pas) (hb : s.translateEach k bs = .ok pbs) :
    s.translateEach k (as ++ bs) = .ok (pas ++ pbs) := by
  obtain ⟨a, as, rfl⟩ : ∃ x xs, as = x :: xs := by
    cases as with
    | nil => cases hl
    | cons x xs => exact ⟨x, xs, rfl⟩
  rw [List.cons_append]
  simp only [State.translateEach, State.translateFrom, if_true] at ha ⊢
  split at ha
  · cases ha
  · split at ha
    · rename_i h2
      injection ha with ha; subst ha
      simp only [State.translateFrom_append (by simpa using hl) h2 hb, List.cons_append]
    · cases ha

/-- The physical addresses of an access through a segment, as many as its offsets. -/
theorem State.segAddrs_length {s : State} {r : SegReg} {k : AccessKind} {offs pas : List Dword}
    (h : s.segAddrs r k offs = .ok pas) : pas.length = offs.length := by
  unfold State.segAddrs at h
  split at h
  · simpa using State.translateEach_length h
  · cases h

theorem State.segAddrs_off {s : State} (hp : s.base.paging = false) {r : SegReg} {k : AccessKind} {offs pas : List Dword}
    (h : s.segAddrs r k offs = .ok pas) : pas = offs.map fun o => r.base + o := by
  unfold State.segAddrs at h
  split at h
  · rw [State.translateEach_off hp] at h; injection h with h; exact h.symm
  · cases h

theorem MemArg.offsets_length (g : Gpr) (m : MemArg) (n : Nat) : (m.offsets g n).length = n := by
  simp [MemArg.offsets]

theorem State.operandCells_length {s : State} {pre : List Pfx} {m : MemArg} {n : Nat} {ls : List Loc}
    (h : s.operandCells pre m n = .ok ls) : ls.length = n := by
  obtain ⟨pas, hp, hw⟩ := State.segWriteLocs_ok h
  rw [← (State.locateAccess_ok (State.writableLocs_ok hw).1).length_eq, State.segAddrs_length hp, MemArg.offsets_length]

theorem SegReg.toBytes_getElem (r : SegReg) (k : Nat) (h : k < r.toBytes.length) : r.toBytes[k] = mem80Byte r k := by
  have e : ∀ (w n : Nat) (v : BitVec w), BitVec.ofNat 8 (v.toNat / 256 ^ n) = v.extractLsb' (8 * n) 8 := by
    intro w n v
    rw [show 256 ^ n = 2 ^ (8 * n) by rw [Nat.pow_mul], BitVec.extractLsb', Nat.shiftRight_eq_div_pow]
  unfold mem80Byte
  simp only [SegReg.toBytes, List.getElem_append, toLE_length]
  split
  · rw [toLE_getElem, e]
  · rw [toLE_getElem, e]

theorem mem80Byte_ofBytes {bs : List Byte} (h : bs.length = 10) (k : Nat) (hk : k < bs.length) :
    mem80Byte (SegReg.ofBytes bs) k = bs[k] := by
  have hb : (SegReg.ofBytes bs).toBytes = bs := by
    have h1 : (bs.take 8).length = 8 := by simp [h]
    have h2 : (bs.drop 8).length = 2 := by simp [h]
    have l1 := ofLE_lt (bs.take 8)
    have l2 := ofLE_lt (bs.drop 8)
    rw [h1] at l1; rw [h2] at l2
    simp only [SegReg.toBytes, SegReg.ofBytes, BitVec.toNat_ofNat]
    rw [Nat.mod_eq_of_lt (by simpa using l1), Nat.mod_eq_of_lt (by simpa using l2)]
    have e1 := toLE_ofLE (bs.take 8); rw [h1] at e1
    have e2 := toLE_ofLE (bs.drop 8); rw [h2] at e2
    rw [e1, e2, List.take_append_drop]
  rw [← SegReg.toBytes_getElem _ _ (by rw [hb]; exact hk)]
  simp only [hb]

/-- Bytes stored in cells stand there, if no two cells are the same. -/
theorem State.readLoc_writeLocs_zip {s : State} {ls : List Loc} {bs : List Byte} (hd : ls.Nodup) (hl : ls.length = bs.length)
    {k : Nat} {l : Loc} (hk : ls[k]? = some l) : (s.writeLocs (ls.zip bs)).readLoc l = bs[k]?.getD 0 := by
  obtain ⟨h1, h2⟩ := List.getElem?_eq_some_iff.1 hk
  have hf : (ls.zip bs).map Prod.fst = ls := List.map_fst_zip (le_of_eq hl)
  have := State.readLoc_writeLocs_of_mem (ls.zip bs) s (by rw [hf]; exact hd) (x := (ls[k], bs[k])) (by
    rw [List.mem_iff_getElem]; exact ⟨k, by simp; omega, by simp⟩)
  rw [← h2]
  simpa [List.getElem?_eq_getElem (show k < bs.length by omega)] using this

theorem State.sameMemoryOutside_writeLocs (s : State) (ls : List Loc) (bs : List Byte) :
    s.sameMemoryOutside (s.writeLocs (ls.zip bs)) ls := by
  intro l hl
  refine State.readLoc_writeLocs_of_notMem _ _ _ fun h => hl ?_
  obtain ⟨x, hx, rfl⟩ := List.mem_map.1 h
  exact (List.of_mem_zip (a := x.1) (b := x.2) hx).1

end Sys2Proof.Machine
end

