-- ==== Sys2Proof/Laws/PerInstr.lean ====
section
/-!
SUPPORT. The statement made of every instruction, one lemma per constructor: its length is the one the table of R158
gives.
-/
namespace Sys2Proof

set_option Elab.async false

/-- The bytes an operand adds after the mod r/m byte (R158). -/
def RmArg.addressBytes : RmArg → Nat
  | .reg _ => 0
  | .mem (.a16 (.ind _ .none)) => 0
  | .mem (.a16 (.ind _ (.d8 _))) => 1
  | .mem (.a16 (.ind _ (.d16 _))) => 2
  | .mem (.a16 (.abs _)) => 2
  | .mem (.a32 (.ind _ .none)) => 0
  | .mem (.a32 (.ind _ (.d8 _))) => 1
  | .mem (.a32 (.ind _ (.d32 _))) => 4
  | .mem (.a32 (.abs _)) => 4
  | .mem (.a32 (.sib _ _ _ .none)) => 1
  | .mem (.a32 (.sib _ _ _ (.d8 _))) => 2
  | .mem (.a32 (.sib _ _ _ (.d32 _))) => 5
  | .mem (.a32 (.sibAbs _ _ _)) => 5

theorem RmArg.encode_length (rm : RmArg) : rm.encode.2.2.length = rm.addressBytes := by
  match rm with
  | .reg _ => rfl
  | .mem (.a16 (.ind _ .none)) => rfl
  | .mem (.a16 (.ind _ (.d8 _))) => rfl
  | .mem (.a16 (.ind _ (.d16 _))) => rfl
  | .mem (.a16 (.abs _)) => rfl
  | .mem (.a32 (.ind _ .none)) => rfl
  | .mem (.a32 (.ind _ (.d8 _))) => rfl
  | .mem (.a32 (.ind _ (.d32 _))) => rfl
  | .mem (.a32 (.abs _)) => rfl
  | .mem (.a32 (.sib _ _ _ .none)) => rfl
  | .mem (.a32 (.sib _ _ _ (.d8 _))) => rfl
  | .mem (.a32 (.sib _ _ _ (.d32 _))) => rfl
  | .mem (.a32 (.sibAbs _ _ _)) => rfl

theorem encodeModRm_length (reg : BitVec 3) (rm : RmArg) : (encodeModRm reg rm).length = rm.addressBytes + 1 := by
  simp [encodeModRm, RmArg.encode_length]

/-- R158: prefixes, two opcode bytes and, with an operand, a mod r/m byte and the address bytes. -/
def Laws.LengthTable.Statement (i : Instr) : Prop :=
  i.length = i.pre.length + 2 + (match i.operand with | none => 0 | some rm => rm.addressBytes + 1)

theorem Laws.LengthTable.smint (pre : List Pfx) : Laws.LengthTable.Statement (.smint pre) := by
  simp [Laws.LengthTable.Statement, Instr.length, encode, Instr.encodeTail, Instr.operand]

theorem Laws.LengthTable.rsm (pre : List Pfx) : Laws.LengthTable.Statement (.rsm pre) := by
  simp [Laws.LengthTable.Statement, Instr.length, encode, Instr.encodeTail, Instr.operand]

theorem Laws.LengthTable.svdc (pre : List Pfx) (reg : BitVec 3) (rm : RmArg) :
    Laws.LengthTable.Statement (.svdc pre reg rm) := by
  simp [Laws.LengthTable.Statement, Instr.length, encode, Instr.encodeTail, Instr.operand, encodeModRm_length]
  omega

theorem Laws.LengthTable.rsdc (pre : List Pfx) (reg : BitVec 3) (rm : RmArg) :
    Laws.LengthTable.Statement (.rsdc pre reg rm) := by
  simp [Laws.LengthTable.Statement, Instr.length, encode, Instr.encodeTail, Instr.operand, encodeModRm_length]
  omega

theorem Laws.LengthTable.svldt (pre : List Pfx) (reg : BitVec 3) (rm : RmArg) :
    Laws.LengthTable.Statement (.svldt pre reg rm) := by
  simp [Laws.LengthTable.Statement, Instr.length, encode, Instr.encodeTail, Instr.operand, encodeModRm_length]
  omega

theorem Laws.LengthTable.rsldt (pre : List Pfx) (reg : BitVec 3) (rm : RmArg) :
    Laws.LengthTable.Statement (.rsldt pre reg rm) := by
  simp [Laws.LengthTable.Statement, Instr.length, encode, Instr.encodeTail, Instr.operand, encodeModRm_length]
  omega

theorem Laws.LengthTable.svts (pre : List Pfx) (reg : BitVec 3) (rm : RmArg) :
    Laws.LengthTable.Statement (.svts pre reg rm) := by
  simp [Laws.LengthTable.Statement, Instr.length, encode, Instr.encodeTail, Instr.operand, encodeModRm_length]
  omega

theorem Laws.LengthTable.rsts (pre : List Pfx) (reg : BitVec 3) (rm : RmArg) :
    Laws.LengthTable.Statement (.rsts pre reg rm) := by
  simp [Laws.LengthTable.Statement, Instr.length, encode, Instr.encodeTail, Instr.operand, encodeModRm_length]
  omega

theorem Laws.LengthTable.rdshr (pre : List Pfx) (reg : BitVec 3) (rm : RmArg) :
    Laws.LengthTable.Statement (.rdshr pre reg rm) := by
  simp [Laws.LengthTable.Statement, Instr.length, encode, Instr.encodeTail, Instr.operand, encodeModRm_length]
  omega

theorem Laws.LengthTable.wrshr (pre : List Pfx) (reg : BitVec 3) (rm : RmArg) :
    Laws.LengthTable.Statement (.wrshr pre reg rm) := by
  simp [Laws.LengthTable.Statement, Instr.length, encode, Instr.encodeTail, Instr.operand, encodeModRm_length]
  omega

end Sys2Proof
end

