-- ==== Sys2Proof/Tests/Slice0.lean ====
section
/-!
SUPPORT. Tests. Expected results are the spec's: the listing and the vectors of 95_test_vectors.md (A1, A5, B1 to B8) and
the tables of the rules named. Then, for every statement with premises, a state and operands that meet them all.
-/
namespace Sys2Proof.Machine.Tests

open Sys2Proof Sys2Proof.Machine

set_option Elab.async false

/-! ### Ill-formed terms that the checks of WellFormed refuse -/

/-- R144: `[BP]` without displacement has no encoding. -/
theorem test_illformed_bp : WellFormed false (.svdc [] 3 (.mem (.a16 (.ind .bp .none)))) = false := by decide
/-- R145: r/m 100 calls for a SIB byte. -/
theorem test_illformed_esp : WellFormed true (.svdc [] 3 (.mem (.a32 (.ind .esp .none)))) = false := by decide
/-- R145: `[EBP]` without displacement has no encoding. -/
theorem test_illformed_ebp : WellFormed true (.svdc [] 3 (.mem (.a32 (.ind .ebp .none)))) = false := by decide
/-- R145: a SIB base of EBP without displacement has no encoding. -/
theorem test_illformed_sib_ebp : WellFormed true (.rsts [] 0 (.mem (.a32 (.sib 1 .eax .ebp .none)))) = false := by decide
/-- R146: a 32-bit address form needs 32-bit addressing in force. -/
theorem test_illformed_size32 : WellFormed false (.svldt [] 0 (.mem (.a32 (.ind .ebx .none)))) = false := by decide
/-- R146: a 16-bit address form needs 16-bit addressing in force. -/
theorem test_illformed_size16 : WellFormed true (.svldt [] 0 (.mem (.a16 (.ind .bx .none)))) = false := by decide
/-- R150 (g): prefixes without a stated effect. -/
theorem test_illformed_pfx : [Pfx.opSize, .rep, .repne, .lock].all
    (fun p => WellFormed false (.rsm [p]) == false) = true := by decide
/-- R150 (a), B1.10, B1.11: SVDC naming CS, 6 or 7. -/
theorem test_illformed_sreg : [1, 6, 7].all
    (fun r => WellFormed false (.svdc [] r (.mem (.a16 (.abs 0x200)))) == false) = true := by decide
/-- R150 (c), B2.8: RSDC naming 6 or 7; naming CS has a meaning (R173). -/
theorem test_illformed_rsdc : [6, 7].all
    (fun r => WellFormed false (.rsdc [] r (.mem (.a16 (.abs 0x200)))) == false) = true := by decide
/-- R150 (d), B1.12, B3.8: a register operand on a mem80 instruction. -/
theorem test_illformed_mod11 : WellFormed false (.svts [] 0 (.reg .eax)) = false := by decide
/-- R150 (e), (f), B3.7, B6.8: a reg field other than 000. -/
theorem test_illformed_reg :
    WellFormed false (.svldt [] 1 (.mem (.a16 (.abs 0x4E)))) = false ∧ WellFormed false (.rdshr [] 1 (.reg .eax)) = false := by
  decide

/-! ### Decoding: the bytes of the listing (A1) and of the vectors (B2 to B6) -/

theorem test_decode_svdc : decode false [0x2E, 0x0F, 0x78, 0x1E, 0x4E, 0x00] =
    .ok (.svdc [.seg .cs] 3 (.mem (.a16 (.abs 0x4E))), []) := by decide
theorem test_decode_svdc_sib : decode false [0x2E, 0x67, 0x2E, 0x0F, 0x78, 0x9C, 0x58, 0x4E, 0, 0, 0] =
    .ok (.svdc [.seg .cs, .addrSize, .seg .cs] 3 (.mem (.a32 (.sib 1 .ebx .eax (.d32 0x4E)))), []) := by decide
theorem test_decode_svdc_ebx : decode false [0x67, 0x0F, 0x78, 0x23] =
    .ok (.svdc [.addrSize] 4 (.mem (.a32 (.ind .ebx .none))), []) := by decide
theorem test_decode_rsdc : decode false [0x2E, 0x0F, 0x79, 0x2E, 0x4E, 0x00] =
    .ok (.rsdc [.seg .cs] 5 (.mem (.a16 (.abs 0x4E))), []) := by decide
theorem test_decode_svldt : decode false [0x67, 0x0F, 0x7A, 0x03] =
    .ok (.svldt [.addrSize] 0 (.mem (.a32 (.ind .ebx .none))), []) := by decide
theorem test_decode_rsldt : decode false [0x2E, 0x0F, 0x7B, 0x06, 0x4E, 0x00] =
    .ok (.rsldt [.seg .cs] 0 (.mem (.a16 (.abs 0x4E))), []) := by decide
theorem test_decode_svts : decode false [0x0F, 0x7C, 0x06, 0x00, 0x00] =
    .ok (.svts [] 0 (.mem (.a16 (.abs 0))), []) := by decide
theorem test_decode_rsts : decode false [0x2E, 0x0F, 0x7D, 0x06, 0x4E, 0x00] =
    .ok (.rsts [.seg .cs] 0 (.mem (.a16 (.abs 0x4E))), []) := by decide
theorem test_decode_smint : decode false [0x0F, 0x38] = .ok (.smint [], []) := by decide
theorem test_decode_rsm : decode false [0x0F, 0xAA] = .ok (.rsm [], []) := by decide
theorem test_decode_rdshr : decode false [0x0F, 0x36, 0xC0] = .ok (.rdshr [] 0 (.reg .eax), []) ∧
    decode false [0x2E, 0x0F, 0x36, 0x06, 0x00, 0x01] =
      .ok (.rdshr [.seg .cs] 0 (.mem (.a16 (.abs 0x100))), []) := by decide
theorem test_decode_wrshr : decode false [0x0F, 0x37, 0xC3] = .ok (.wrshr [] 0 (.reg .ebx), []) := by decide
/-- R144: `[bp+disp8]`, r/m 110 with mod 01. -/
theorem test_decode_disp8 : decode false [0x0F, 0x78, 0x5E, 0xFE] =
    .ok (.svdc [] 3 (.mem (.a16 (.ind .bp (.d8 0xFE)))), []) := by decide
/-- R151, B4.9: `0F 7E` is not SMINT, and `0F 0B` is none of the ten. -/
theorem test_decode_other : decode false [0x0F, 0x7E] = .error .notSmm ∧ decode false [0x0F, 0x0B] = .error .notSmm := by
  decide
/-- R239, R303, R234, R235 (encodings: log entries 48 to 50 and 56). -/
theorem test_decode_base :
    decodeBase false [0xFF, 0x2F] = some (.jmpFarMem .word (.a16 (.ind .bx .none)) [], 2) ∧
    decodeBase false [0x66, 0xFF, 0xD3] = some (.callRm .dword (.reg .ebx) [.opSize], 3) ∧
    decodeBase false [0xEA, 1, 2, 3, 4] = some (.jmpFar .word 0x0403 0x0201, 5) ∧
    decodeBase false [0xC2, 4, 0] = some (.retNear .word 4, 3) ∧
    decodeBase false [0x0F, 0x21, 0xF8] = some (.readDr .dr7 .eax, 3) ∧
    decodeBase false [0xDB, 0xE3] = some (.fnInit, 2) ∧
    decodeBase false [0x9B] = some (.wait, 1) ∧
    decodeBase false [0x1F] = some (.loadSelector (.stack .word), 1) ∧
    decodeBase false [0xC5, 0x37] = some (.loadSelector (.far .word (.a16 (.ind .bx .none)) []), 2) ∧
    decodeBase false [0x0F, 0x00, 0xD0] = some (.loadSelector (.table (.reg .eax) []), 3) ∧
    decodeBase false [0x66, 0xDD, 0x37] = some (.fnSave .dword (.a16 (.ind .bx .none)) [.opSize], 3) ∧
    decodeBase false [0xDD, 0x27] = some (.frStor .word (.a16 (.ind .bx .none)) [], 2) := by decide
theorem test_decode_short : decode false [0x0F, 0x78, 0x1E, 0x4E] = .error .truncated := by decide
/-- The words of spec/opcode_table.json, the first opcode byte most significant (R152). -/
theorem test_tableWord : decodeTableWord 16 0x0F38 = some (.smint []) ∧ decodeTableWord 16 0x0FAA = some (.rsm []) ∧
    decodeTableWord 24 0x0F781E = some (.svdc [] 3 (.mem (.a16 (.abs 0)))) ∧
    decodeTableWord 24 0x0F37C3 = some (.wrshr [] 0 (.reg .ebx)) := by decide

/-! ### States -/

/-- The standard region (68000h, 16 KBytes) with a value of CCR1. -/
def stdCfg (ccr1 : Byte) : CfgRegs := { CfgRegs.reset with ccr1 := ccr1, arrCE := 0x06, arrCF := 0x83 }

/-- The start state of Part B: in a handler, CCR1 = 82h, SMHR = 0006 C001h, CS.base = 68000h with a limit of 4 GBytes. -/
def handler : State :=
  { State.reset with
    base := { BaseRegs.reset with eip := 0, seg := { BaseRegs.reset.seg with cs := ⟨0x6800, 0x008F93068000FFFF⟩ } }
    cfg := stdCfg 0x82
    smhr := 0x0006C001
    inSmm := true }

/-- The start state of B4.1: normal mode at 2000:0100h, CCR1 = 86h, SMHR not valid. -/
def app : State :=
  { State.reset with
    base :=
      { BaseRegs.reset with
        eip := 0x100
        eflags := 0x202
        cr0 := 0x10
        seg := { BaseRegs.reset.seg with cs := ⟨0x2000, 0x000093020000FFFF⟩ } }
    cfg := stdCfg 0x86 }

/-- The same with SMAC clear: the pin is heeded, the instructions do not exist. -/
def appPin : State := { app with cfg := stdCfg 0x82 }

/-- Bytes put into SMM memory. -/
def inSmmMem (s : State) (a : Nat) (bs : List Byte) : State :=
  { s with smm := (bs.zipIdx).foldl (fun m x => m.write (a + x.2) x.1) s.smm }

/-- Bytes put into normal memory. -/
def inNormalMem (s : State) (a : Nat) (bs : List Byte) : State :=
  { s with normal := (bs.zipIdx).foldl (fun m x => m.write (a + x.2) x.1) s.normal }

/-- Bytes of SMM memory. -/
def smmBytes (s : State) (a n : Nat) : List Byte := (List.range n).map fun i => s.smm.read (a + i)

/-- Bytes of normal memory. -/
def normalBytes (s : State) (a n : Nat) : List Byte := (List.range n).map fun i => s.normal.read (a + i)

/-- No event at a boundary. -/
def quiet : PinSample := ⟨false, false, none, false, false, false, false, false, false⟩

/-- The outcome is a next state with a property. -/
def nextWith (o : Out) (p : State → Bool) : Bool :=
  match o with
  | .next t => p t
  | _ => false

theorem next_of {o : Out} {p : State → Bool} (h : nextWith o p = true) : ∃ t, o = .next t ∧ p t = true := by
  cases o with
  | next t => exact ⟨t, rfl, h⟩
  | fault f => cases h
  | refused r => cases h

/-- DS of B1.1. -/
def dsFlat : SegReg := ⟨0x1234, 0x008F93000000FFFF⟩

/-- `handler` with another DS. -/
def withDs (s : State) (r : SegReg) : State := { s with base := { s.base with seg := { s.base.seg with ds := r } } }

/-! ### The ten instructions -/

/-- B1.1. -/
theorem test_svdc : nextWith (exec (.svdc [.seg .cs] 3 (.mem (.a16 (.abs 0x4E)))) (withDs handler dsFlat))
    (fun t => smmBytes t 0x6804E 10 == [0xFF, 0xFF, 0, 0, 0, 0x93, 0x8F, 0, 0x34, 0x12] && t.base.eip == 6) = true := by
  decide +kernel
/-- B1.13: the operand's offsets wrap modulo 2^16. -/
theorem test_svdc_wraps : nextWith (exec (.svdc [] 3 (.mem (.a16 (.abs 0xFFFA)))) (withDs handler dsFlat))
    (fun t => normalBytes t 0xFFFA 6 == [0xFF, 0xFF, 0, 0, 0, 0x93] && normalBytes t 0 4 == [0x8F, 0, 0x34, 0x12]) = true := by
  decide +kernel
/-- B2.1. -/
theorem test_rsdc : nextWith (exec (.rsdc [.seg .cs] 3 (.mem (.a16 (.abs 0x4E))))
      (inSmmMem handler 0x6804E [0xFF, 0xFF, 0, 0, 0, 0x93, 0x8F, 0, 0, 0]))
    (fun t => t.base.seg.ds.sel == 0 && t.base.seg.ds.base == 0 && t.base.seg.ds.limit == 0xFFFFFFFF &&
      t.base.seg.ds.rights == 0x893 && t.base.eip == 6) = true := by decide +kernel
/-- B2.5: RSDC naming CS raises; the return address on the stack is its own (EIP = 0, CS = 6800h). -/
theorem test_rsdc_cs : nextWith (exec (.rsdc [.seg .cs] 1 (.mem (.a16 (.abs 0x4E)))) handler)
    (fun t => normalBytes t 0xFFFA 4 == [0, 0, 0x00, 0x68] && t.base.gpr.esp == 0xFFFA && t.inSmm) = true := by
  decide +kernel
/-- B3.1. -/
theorem test_svldt : nextWith (exec (.svldt [.seg .cs] 0 (.mem (.a16 (.abs 0x4E))))
      { handler with base := { handler.base with ldtr := ⟨0x28, 0x0000820120000FFF⟩ } })
    (fun t => smmBytes t 0x6804E 10 == [0xFF, 0x0F, 0, 0x20, 1, 0x82, 0, 0, 0x28, 0]) = true := by decide +kernel
/-- B3.2. -/
theorem test_rsldt : nextWith (exec (.rsldt [.seg .cs] 0 (.mem (.a16 (.abs 0x4E))))
      (inSmmMem handler 0x6804E [0xFF, 0x0F, 0, 0x20, 1, 0x82, 0, 0, 0x28, 0]))
    (fun t => t.base.ldtr == ⟨0x28, 0x0000820120000FFF⟩ && t.base.eip == 6) = true := by decide +kernel
/-- B3.6: the operand is at CS:009Eh. -/
theorem test_svts : nextWith
    (exec (.svts [.seg .cs, .addrSize, .seg .cs] 0 (.mem (.a32 (.sib 1 .ebx .eax (.d32 0x4E)))))
      { handler with
        base := { handler.base with
          tr := ⟨0x30, 0x00008B0130000067⟩, gpr := { handler.base.gpr with eax := 0x10, ebx := 0x20 } } })
    (fun t => smmBytes t 0x6809E 10 == [0x67, 0, 0, 0x30, 1, 0x8B, 0, 0, 0x30, 0] && t.base.eip == 11) = true := by
  decide +kernel
/-- B3.4: rights 8Bh loaded as found. -/
theorem test_rsts : nextWith (exec (.rsts [.seg .cs] 0 (.mem (.a16 (.abs 0x4E))))
      (inSmmMem handler 0x6804E [0x67, 0, 0, 0x30, 1, 0x8B, 0, 0, 0x30, 0]))
    (fun t => t.base.tr == ⟨0x30, 0x00008B0130000067⟩) = true := by decide +kernel
/-- B6.2. -/
theorem test_rdshr : nextWith (exec (.rdshr [] 0 (.reg .ebx)) handler)
    (fun t => t.base.gpr.ebx == 0x0006C001 && t.base.eip == 3) = true := by decide +kernel
/-- B6.3. -/
theorem test_rdshr_mem : nextWith (exec (.rdshr [.seg .cs] 0 (.mem (.a16 (.abs 0x100)))) handler)
    (fun t => smmBytes t 0x68100 4 == [0x01, 0xC0, 0x06, 0x00] && t.base.eip == 6) = true := by decide +kernel
/-- B6.6: bit 1 is stored and read back, and is no part of the pointer. -/
theorem test_wrshr : nextWith (exec (.wrshr [] 0 (.reg .ebx))
      { handler with base := { handler.base with gpr := { handler.base.gpr with ebx := 0x0006B003 } } })
    (fun t => t.smhr == 0x0006B003 && hdrTop t.smhr == 0x0006B000) = true := by decide +kernel
/-- B6.7. -/
theorem test_wrshr_mem : nextWith (exec (.wrshr [.seg .cs] 0 (.mem (.a16 (.abs 0x100))))
      (inSmmMem handler 0x68100 [0x01, 0xB0, 0x06, 0x00]))
    (fun t => t.smhr == 0x0006B001 && t.base.eip == 6) = true := by decide +kernel
/-- B4.1: the registers, SMHR and the mode after SMINT. -/
theorem test_smint : nextWith (exec (.smint []) app)
    (fun t => t.smhr == 0x0006C001 && t.inSmm && t.base.eip == 0 && t.base.eflags == 2 && t.base.cr0 == 0x60000010 &&
      t.base.dr7 == 0x400 && t.cfg.ccr6 == 0 && t.base.cpl == 0) = true := by decide +kernel
/-- B4.7: LOCK_NW keeps NW. -/
theorem test_smint_nw : nextWith (exec (.smint []) { app with cfg := { app.cfg with ccr2 := 0x04 } })
    (fun t => t.base.cr0 == 0x40000010) = true := by decide +kernel

/-- The header of B4.1 in SMM memory, S and C set in its flags dword. -/
def withHeader (s : State) : State :=
  inSmmMem s 0x6BFDC
    [0x09, 0, 0, 0, 0xFF, 0xFF, 0, 0, 2, 0x93, 0, 0, 0x00, 0x20, 0, 0, 2, 1, 0, 0, 0, 0, 0, 0,
      0x10, 0, 0, 0, 2, 2, 0, 0, 0, 4, 0, 0]

/-- B5.1. -/
theorem test_rsm : nextWith (exec (.rsm []) (withHeader handler))
    (fun t => t.base.dr7 == 0x400 && t.base.eflags == 0x202 && t.base.cr0 == 0x10 && t.base.eip == 0x102 &&
      t.base.seg.cs == ⟨0x2000, 0x000093020000FFFF⟩ && t.cfg.ccr6 == 0x40 && t.smhr == 0x0006C001) = true := by
  decide +kernel
/-- B5.6: LOCK_NW keeps NW. -/
theorem test_rsm_nw : nextWith (exec (.rsm [])
      { withHeader handler with cfg := { handler.cfg with ccr2 := 0x04 }, base := { handler.base with cr0 := 0x60000010 } })
    (fun t => t.base.cr0 == 0x20000010) = true := by decide +kernel

/-- B1.7, B1.9, B4.2, B5.8: the instructions do not exist: the exception is raised (vector 6 from an empty table). -/
theorem test_invalid : nextWith (exec (.svdc [] 3 (.mem (.a16 (.abs 0x4E)))) appPin)
      (fun t => t.base.eip == 0 && normalBytes t 0xFFFA 6 == [0, 1, 0, 0x20, 2, 2] && t.base.eflags == 2) = true ∧
    nextWith (exec (.smint []) appPin) (fun t => !t.inSmm) = true ∧
    nextWith (exec (.rsm []) appPin) (fun t => normalBytes t 0xFFFA 2 == [0, 1]) = true := by decide +kernel
/-- B4.3: being in SMM does not stand in for SMAC. -/
theorem test_smint_in_handler : nextWith (exec (.smint []) handler) (fun t => t.base.gpr.esp == 0xFFFA) = true := by
  decide +kernel
/-- B1.10, B3.8, B5.7, B6.8. -/
theorem test_refused : exec (.svdc [] 1 (.mem (.a16 (.abs 0x200)))) handler = .refused .undefinedEncoding ∧
    exec (.svts [] 0 (.reg .eax)) handler = .refused .undefinedEncoding ∧
    exec (.rsm []) { handler with smhr := 0x0006C000 } = .refused .smhrInvalid ∧
    exec (.rdshr [] 1 (.reg .eax)) handler = .refused .undefinedEncoding :=
  ⟨rfl, rfl, rfl, rfl⟩

/-! ### Configuration ports (B7) -/

/-- Byte accesses to port 22h and 23h in order: an index and a byte. -/
def programmed (s : State) (i v : Byte) : Except Refusal State :=
  match s.ioWrite 0x22 .byte (i.setWidth 32) with
  | .ok t => t.ioWrite 0x23 .byte (v.setWidth 32)
  | .error r => .error r

/-- The configuration and SMHR after it. -/
def cfgAfter (s : State) (i v : Byte) (p : State → Bool) : Bool :=
  match programmed s i v with
  | .ok t => p t && t.cfgIndex.isNone
  | .error _ => false

/-- `app` with SMI_LOCK or NMI_EN in CCR3, SMHR valid. -/
def locked (ccr3 : Byte) : State := { app with cfg := { stdCfg 0x82 with ccr3 := ccr3 }, smhr := 0x0006C001 }

/-- B7.2, B7.5, B7.6, B7.7. -/
theorem test_cfg_write : cfgAfter app 0xC1 0x86 (fun t => t.cfg.ccr1 == 0x86) = true ∧
    cfgAfter handler 0xCF 0x83 (fun t => t.cfg.arrCF == 0x83 && t.smhr == 0x0006C000) = true ∧
    cfgAfter (locked 1) 0xC1 0x00 (fun t => t.cfg.ccr1 == 0x82) = true ∧
    cfgAfter (locked 1) 0xC1 0xFF (fun t => t.cfg.ccr1 == 0xF3) = true := by decide +kernel
/-- B7.8 to B7.12. -/
theorem test_cfg_lock :
    cfgAfter { locked 1 with inSmm := true } 0xC1 0x86 (fun t => t.cfg.ccr1 == 0x86) = true ∧
    cfgAfter { locked 1 with inSmm := true } 0xC3 0x00 (fun t => t.cfg.ccr3 == 0x01) = true ∧
    cfgAfter (locked 3) 0xC3 0x00 (fun t => t.cfg.ccr3 == 0x03) = true ∧
    cfgAfter (locked 3) 0xC3 0x10 (fun t => t.cfg.ccr3 == 0x13) = true ∧
    cfgAfter (locked 1) 0xCE 0x07 (fun t => t.cfg.arrCE == 0x06 && t.smhr == 0x0006C001) = true := by decide +kernel
/-- B7.13, B7.14 (second half), B7.15. -/
theorem test_cfg_mapen : cfgAfter app 0xEA 0x01 (fun t => t.cfg.ccr6 == 0) = true ∧
    cfgAfter (locked 0x10) 0xEA 0x01 (fun t => t.cfg.ccr6 == 1) = true ∧
    cfgAfter { handler with cfg := { stdCfg 0x82 with ccr3 := 0x10, ccr6 := 1 } } 0xEA 0x41
      (fun t => t.cfg.ccr6 == 0x41) = true := by decide +kernel
/-- B7.16 to B7.18. -/
theorem test_cfg_refused :
    programmed { handler with cfg := { stdCfg 0x82 with ccr3 := 0x10, ccr6 := 1 } } 0xEA 0x00 = .error .smmModeChangeInSmm ∧
    programmed (locked 0x10) 0xD0 0x00 = .error .undefinedConfigIndex ∧
    programmed (locked 0x20) 0xC1 0x00 = .error .undefinedMapen := by decide +kernel

/-! ### Whole steps -/

/-- The program with a far return's words, and the flags above them, on its stack. -/
def atReturn (code : List Byte) : State :=
  inNormalMem
    (inNormalMem { app with base := { app.base with gpr := { app.base.gpr with esp := 0xFFFE0100 } } }
      0x100 [0x34, 0x12, 0x00, 0x30, 0x02, 0x02])
    0x20100 code

/-- P2: `rdshr eax` fetched from SMM memory at CS:0000h. -/
theorem test_step_rdshr : nextWith (step (inSmmMem handler 0x68000 [0x0F, 0x36, 0xC0]))
    (fun t => t.base.gpr.eax == 0x0006C001 && t.base.eip == 3) = true := by decide +kernel
/-- P3: `dec dword ptr cs:[3FECh]`, then the H-bit case's Next IP. -/
theorem test_step_dec : nextWith (step (inSmmMem (inSmmMem handler 0x68000 [0x2E, 0x66, 0xFF, 0x0E, 0xEC, 0x3F]) 0x6BFEC [1, 4]))
    (fun t => smmBytes t 0x6BFEC 4 == [0, 4, 0, 0] && t.base.eip == 6) = true := by decide +kernel
/-- B8.2: after `out 80h,al` the state describes the access, and the platform sees the cycle. -/
theorem test_step_out : nextWith (step (inNormalMem
      { appPin with base := { appPin.base with gpr := { appPin.base.gpr with eax := 0x55, esi := 0x11223344 } } }
      0x20100 [0xE6, 0x80]))
    (fun t => t.lastIo == some ⟨0x100, false, true, .byte, 0x80, 0x55, 0x11223344⟩ && t.base.eip == 0x102 &&
      t.ioTrace == [⟨true, 0x80, .byte, 0x55⟩]) = true := by decide +kernel
/-- B8.5: one iteration of `rep outsb`. -/
theorem test_step_rep_outsb : nextWith (step (inNormalMem (inNormalMem
      { appPin with base := { appPin.base with gpr := { appPin.base.gpr with ecx := 5, esi := 0x1000, edx := 0x3F8 } } }
      0x20100 [0xF3, 0x6E]) 0x1000 [0x41]))
    (fun t => t.base.gpr.ecx == 4 && t.base.gpr.esi == 0x1001 && t.base.eip == 0x100 &&
      t.lastIo == some ⟨0x100, true, true, .byte, 0x3F8, 0x41, 0x1000⟩) = true := by decide +kernel
/-- B8.8, B8.9: an edge ends a halt and enters SMM with EIP = 0; with SMAC = 1 the edge is lost. -/
theorem test_step_smi :
    nextWith (step { appPin with
        base := { appPin.base with activity := .halted false }, inputs := [{ quiet with smiLow := true }] })
      (fun t => t.inSmm && t.base.eip == 0 && t.smhr == 0x0006C001 && t.base.activity == .running) = true ∧
    nextWith (step { app with
        base := { app.base with activity := .halted false }, inputs := [{ quiet with smiLow := true }] })
      (fun t => !t.inSmm && !t.smiLatched && t.smiLow) = true := by decide +kernel
/-- B8.11, B8.12: an edge while the window is open, or in the handler, sets the latch. -/
theorem test_step_latch :
    nextWith (step (inNormalMem { appPin with cfgIndex := some 0xC1, inputs := [{ quiet with smiLow := true }] }
        0x20100 [0xE6, 0x23])) (fun t => t.smiLatched && !t.inSmm && t.cfgIndex.isNone) = true ∧
    nextWith (step (inSmmMem { handler with inputs := [{ quiet with smiLow := true }] } 0x68000 [0x0F, 0x36, 0xC0]))
      (fun t => t.smiLatched && t.base.eip == 3) = true := by decide +kernel
/-- R320: RESET. -/
theorem test_step_reset : nextWith (step { handler with inputs := [{ quiet with reset := true }] })
    (fun t => !t.inSmm && t.cfg.ccr1 == 0 && t.base.eflags == 2) = true := by decide +kernel
/-- R239: RET far reloads CS from the stack; CALL near pushes the next offset and keeps CS; IRET takes the flags. -/
theorem test_step_calls :
    nextWith (step (atReturn [0xCB])) (fun t => t.base.eip == 0x1234 && t.base.seg.cs.sel == 0x3000 &&
      t.base.seg.cs.base == 0x30000 && t.base.gpr.esp == 0xFFFE0104) = true ∧
    nextWith (step (atReturn [0xE8, 0xFD, 0x00])) (fun t => t.base.eip == 0x200 && t.base.seg.cs == app.base.seg.cs &&
      normalBytes t 0xFE 2 == [0x03, 0x01] && t.base.gpr.esp == 0xFFFE00FE) = true ∧
    nextWith (step (atReturn [0xCF])) (fun t => t.base.eip == 0x1234 && t.base.eflags == 0x202) = true ∧
    nextWith (step (atReturn [0x9A, 0x00, 0x01, 0x00, 0xF0])) (fun t => t.base.eip == 0x100 &&
      t.base.seg.cs.base == 0xF0000 && normalBytes t 0xFC 4 == [0x05, 0x01, 0x00, 0x20]) = true := by decide +kernel
/-- R303: DR7 saved by an entry and cleared is set again by the handler; with it set no breakpoint is ruled out. -/
theorem test_step_dr7 : nextWith (step (inSmmMem
      { handler with base := { handler.base with gpr := { handler.base.gpr with eax := 0x401 } } } 0x68000 [0x0F, 0x23, 0xF8]))
    (fun t => t.base.dr7 == 0x401 && t.base.breakpointsOn && t.base.eip == 3) = true := by decide +kernel
/-- R150, R170: an SMM instruction cut off at the limit of CS, where it does not exist, raises invalid opcode (the return
address is its own). -/
theorem test_step_truncated : nextWith (step (inNormalMem
      { appPin with base := { appPin.base with eip := 0xFFFE } } 0x2FFFE [0x0F, 0x78]))
    (fun t => normalBytes t 0xFFFA 2 == [0xFE, 0xFF] && t.base.eip == 0) = true := by decide +kernel
/-- R41, R48, R78: NC1 does not lift WPR1, an access that KEN# makes non-cacheable is not protected. -/
theorem test_wpr1 :
    (let s : State := { app with cfg := { app.cfg with ccr0 := 0x02, ccr2 := 0x10 } };
      s.writableLocs [0xA0000] = .error .writeProtected ∧ s.writableLocs [0x9FFFF] = .ok [⟨.normal, 0x9FFFF⟩] ∧
      ({ s with nonCacheable := true } : State).writableLocs [0xA0000] = .ok [⟨.normal, 0xA0000⟩]) := by decide +kernel
/-- R50: SUSP# is ignored with USE_SUSP = 0. -/
theorem test_susp_ignored : nextWith (step { atReturn [0xCB] with inputs := [{ quiet with susp := true }] })
    (fun t => t.base.eip == 0x1234 && t.susp) = true := by decide +kernel
/-- The word of a table row, placed and run as the first instruction after reset: it does not exist there (R170). -/
theorem test_withFetchWord : nextWith (step (State.reset.withFetchWord 16 0x0FAA))
    (fun t => t.base.eip == 0 && !t.inSmm) = true := by decide +kernel

/-! ### Premises: encoding -/

/-- The cells of `n` addresses in a row. -/
def cellsAt (st : StoreId) (a : Dword) (n : Nat) : List Loc := (List.range n).map fun k => ⟨st, a + BitVec.ofNat 32 k⟩

/-- The header pointer of the standard region. -/
def stdTop : Dword := 0x0006C000

theorem placedBelow_of {s : State} {st : StoreId} {top : Dword} {n : Nat}
    (h : ∀ k, k < n → s.locate (top - BitVec.ofNat 32 (k + 1)) = .ok ⟨st, top - BitVec.ofNat 32 (k + 1)⟩) :
    s.placedBelow st top n := fun k h1 h2 => by
  have := h (k - 1) (by omega); rwa [show k - 1 + 1 = k by omega] at this

theorem writableBelow_of {s : State} {st : StoreId} {top : Dword} {n : Nat}
    (h : ∀ k, k < n → s.checkWrite (top - BitVec.ofNat 32 (k + 1)) ⟨st, top - BitVec.ofNat 32 (k + 1)⟩ = .ok ()) :
    s.writableBelow st top n := fun k h1 h2 => by
  have := h (k - 1) (by omega); rwa [show k - 1 + 1 = k by omega] at this

theorem test_premises_DecodeOfEncode :
    (Instr.svdc [.seg .cs] 3 (.mem (.a16 (.abs 0x4E)))).encodable false = true ∧
    (Instr.rsts [] 7 (.mem (.a32 (.sibAbs 3 .esp 0xFFFFFFFF)))).encodable true = true ∧
    (Instr.smint []).encodable true = true := by decide
theorem test_premises_EncodeOfDecode : decode true [0x0F, 0x37, 0x44, 0x24, 0x80, 0x90] =
    .ok (.wrshr [] 0 (.mem (.a32 (.sib 0 .esp .esp (.d8 0x80)))), [0x90]) := by decide

/-- `rdshr eax` in the handler. -/
def atRdshr : State := inSmmMem handler 0x68000 [0x0F, 0x36, 0xC0]

theorem goesOn_of {s : State}
    (h : s.boundary = none ∧ s.base.activity = .running ∧ s.settled.suspended = false) : s.goesOn := h

theorem test_premises_StepRunsDecoded : atRdshr.goesOn ∧ atRdshr.base.dr7.extractLsb' 0 8 = 0 ∧
    (Instr.rdshr [] 0 (.reg .eax)).encodable atRdshr.base.default32 = true ∧
    (Instr.rdshr [] 0 (.reg .eax)).pre.length < 2 ^ 32 ∧
    (∀ k, (h : k < (encode (Instr.rdshr [] 0 (.reg .eax))).length) →
      atRdshr.settled.fetchByte (atRdshr.base.eip + BitVec.ofNat 32 k) =
        .ok ((encode (Instr.rdshr [] 0 (.reg .eax)))[k])) :=
  ⟨goesOn_of (by decide +kernel), by decide +kernel⟩

/-- `out 80h, al` in the program. -/
def atOut : State := inNormalMem appPin 0x20100 [0xE6, 0x80]

theorem test_premises_StepRunsBaseInstr : atOut.goesOn ∧ atOut.base.dr7.extractLsb' 0 8 = 0 ∧
    decode atOut.base.default32 atOut.settled.fetch.bytes = .error .notSmm ∧
    decodeBase atOut.base.default32 atOut.settled.fetch.bytes = some (.outPort .byte (.imm 0x80), 2) :=
  ⟨goesOn_of (by decide +kernel), by decide +kernel⟩

/-! ### Premises: operands -/

theorem readsFrom_handler (n : Nat) (h : n = 10 ∨ n = 4) :
    handler.readsFrom [.seg .cs] (.a16 (.abs 0x4E)) n (cellsAt .smm 0x6804E n) :=
  ⟨(cellsAt .smm 0x6804E n).map (·.addr), by rcases h with rfl | rfl <;> decide +kernel,
    by rcases h with rfl | rfl <;> decide +kernel⟩

theorem test_premises_EffectiveAddresses : GReg.ebp ≠ .esp ∧
    (Addr32.sib 1 .ebx .eax (.d8 0xFE)).ea ⟨0x10, 0, 0, 0x20, 0, 0, 0, 0⟩ = 0x4E ∧
    (Addr16.ind .bxsi (.d8 0xFF)).ea ⟨0, 0, 0, 0xFFFF, 0, 0, 0x10002, 0⟩ = 0 := by decide
theorem test_premises_OperandAddresses : handler.base.realMode = true ∧ handler.base.paging = false ∧ handler.a20m = false ∧
    handler.operandCells [.seg .cs] (.a16 (.abs 0x4E)) 10 = .ok (cellsAt .smm 0x6804E 10) ∧
    (cellsAt .smm 0x6804E 10)[9]? = some ⟨.smm, 0x68057⟩ ∧
    handler.operandCells [] (.a32 (.abs 0xFFFC)) 4 = .ok (cellsAt .normal 0xFFFC 4) ∧
    (cellsAt .normal 0xFFFC 4)[0]? = some ⟨.normal, 0xFFFC⟩ := by decide +kernel
theorem test_premises_OperandAddresses_read : handler.readsFrom [.seg .cs] (.a16 (.abs 0x4E)) 10 (cellsAt .smm 0x6804E 10) :=
  readsFrom_handler 10 (.inl rfl)
/-- R171, R144: an override counts; without one `[bp+di]` is in SS and `[bx]` in DS. -/
theorem test_premises_OperandAddresses_segment : Pfx.seg .cs ∈ [Pfx.addrSize, .seg .cs] ∧ (∀ n, Pfx.seg n ∉ [Pfx.addrSize]) ∧
    MemArg.segment [.addrSize, .seg .cs] (.a16 (.ind .bp .none)) = .cs ∧
    MemArg.segment [] (.a16 (.ind .bpdi .none)) = .ss ∧ MemArg.segment [] (.a16 (.ind .bx .none)) = .ds ∧
    MemArg.segment [] (.a32 (.sib 0 .ebp .esp .none)) = .ss ∧ MemArg.segment [] (.a32 (.sib 0 .ebp .eax .none)) = .ds :=
  ⟨by decide, fun n => by cases n <;> decide, by decide⟩
theorem test_premises_Mem80CellsDistinct : handler.base.realMode = true ∧ handler.base.paging = false ∧
    handler.a20m = false ∧
    handler.operandCells [] (.a16 (.abs 0xFFFA)) 10 = .ok (cellsAt .normal 0xFFFA 6 ++ cellsAt .normal 0 4) := by
  decide +kernel

/-! ### Premises: when the instructions exist -/

/-- R170: no operand byte is examined: SVDC cut off after its opcode, and SMINT where it does not exist. -/
theorem test_premises_InvalidOpcodeOutsideSmmInstrValid : appPin.smmInstrValid = false ∧
    (Instr.rsm []).op ≠ .smint ∧ opcodeRead [0x2E, 0x0F, 0x78] = some .svdc ∧
    opcodeRead [0x0F, 0x38] = some .smint ∧ handler.smintValid = false := by decide +kernel
theorem test_premises_SmintValidity : app.smintValid = true ∧ handler.smintValid = false := by decide +kernel
theorem test_premises_InvalidOpcodeKeepsSmmState : ∃ t, raiseInvalidOpcode appPin = .next t ∧ true = true :=
  next_of (p := fun _ => true) (by decide +kernel)
/-- Vector 6; and the table's last entry, the platform's vector FFh of an INTR. -/
theorem test_premises_RealModeDelivery : app.base.realMode = true ∧ app.base.paging = false ∧
    (∀ e ∈ [BaseEvent.invalidOpcode, .nmi, .intr 0xFF],
      4 * e.vector.toNat + 3 ≤ app.base.idtr.limit.toNat ∧
        app.readAccess (physAddrs (app.base.idtr.base + BitVec.ofNat 32 (4 * e.vector.toNat)) 4) = .ok [0, 0, 0, 0]) ∧
    app.pushAddrs 2 = .ok [0xFFFE, 0xFFFF] ∧ app.pushAddrs 4 = .ok [0xFFFC, 0xFFFD] ∧
    app.pushAddrs 6 = .ok [0xFFFA, 0xFFFB] ∧ app.writableLocs [0xFFFE, 0xFFFF] = .ok (cellsAt .normal 0xFFFE 2) ∧
    app.writableLocs [0xFFFC, 0xFFFD] = .ok (cellsAt .normal 0xFFFC 2) ∧
    app.writableLocs [0xFFFA, 0xFFFB] = .ok (cellsAt .normal 0xFFFA 2) ∧
    (cellsAt .normal 0xFFFE 2 ++ cellsAt .normal 0xFFFC 2 ++ cellsAt .normal 0xFFFA 2).Nodup := by decide +kernel
theorem test_premises_RsdcCsRaises : prefixesDefined [.seg .ds, .addrSize] = true := by decide
theorem test_premises_UndefinedEncodingsRefused :
    (handler.smmInstrValid = true ∧ (Instr.rsdc [] 7 (.mem (.a16 (.abs 0)))).op ≠ .smint ∧
      (Instr.rsdc [] 7 (.mem (.a16 (.abs 0)))).fieldsDefined = false) ∧
    (app.smmInstrValid = true ∧ app.smintValid = true ∧ prefixesDefined (Instr.smint [.lock]).pre = false) := by
  decide +kernel

/-! ### Premises: save and restore -/

theorem test_premises_SvdcStores : handler.smmInstrValid = true ∧ prefixesDefined [.seg .cs] = true ∧
    SegName.ofNum 5 = some .gs ∧ SegName.gs ≠ .cs ∧
    handler.operandCells [.seg .cs] (.a16 (.abs 0x4E)) 10 = .ok (cellsAt .smm 0x6804E 10) ∧
    (cellsAt .smm 0x6804E 10).Nodup := by decide +kernel

theorem test_premises_RsdcLoads : handler.smmInstrValid = true ∧ prefixesDefined [.seg .cs] = true ∧
    SegName.ofNum 0 = some .es ∧ SegName.es ≠ .cs ∧
    handler.readsFrom [.seg .cs] (.a16 (.abs 0x4E)) 10 (cellsAt .smm 0x6804E 10) :=
  ⟨by decide +kernel, by decide, by decide, by decide, readsFrom_handler 10 (.inl rfl)⟩
theorem test_premises_SvldtStores_SvtsStores : handler.smmInstrValid = true ∧ prefixesDefined [.seg .cs] = true ∧
    handler.operandCells [.seg .cs] (.a16 (.abs 0x4E)) 10 = .ok (cellsAt .smm 0x6804E 10) := by decide +kernel
theorem test_premises_RsldtLoads_RstsLoads : handler.smmInstrValid = true ∧ prefixesDefined [.seg .cs] = true ∧
    handler.readsFrom [.seg .cs] (.a16 (.abs 0x4E)) 10 (cellsAt .smm 0x6804E 10) :=
  ⟨by decide +kernel, by decide, readsFrom_handler 10 (.inl rfl)⟩
theorem test_premises_SvdcRsdcRoundTrip : handler.smmInstrValid = true ∧ prefixesDefined [.seg .cs] = true ∧
    SegName.ofNum 3 = some .ds ∧ SegName.ds ≠ .cs ∧ handler.base.realMode = true ∧ handler.base.paging = false ∧
    handler.a20m = false ∧
    handler.operandCells [.seg .cs] (.a16 (.abs 0x4E)) 10 = .ok (cellsAt .smm 0x6804E 10) := by decide +kernel

/-! ### Premises: SMHR -/

theorem test_premises_RdshrGivesSmhr_WrshrLoadsSmhr : handler.smmInstrValid = true ∧ app.smmInstrValid = true ∧
    prefixesDefined [] = true := by decide +kernel
theorem test_premises_RdshrGivesSmhr_memory : handler.smmInstrValid = true ∧ prefixesDefined [.seg .cs] = true ∧
    handler.operandCells [.seg .cs] (.a16 (.abs 0x4E)) 4 = .ok (cellsAt .smm 0x6804E 4) ∧
    (cellsAt .smm 0x6804E 4).Nodup := by decide +kernel
theorem test_premises_WrshrLoadsSmhr_memory : handler.smmInstrValid = true ∧ prefixesDefined [.seg .cs] = true ∧
    handler.readsFrom [.seg .cs] (.a16 (.abs 0x4E)) 4 (cellsAt .smm 0x6804E 4) :=
  ⟨by decide +kernel, by decide, readsFrom_handler 4 (.inr rfl)⟩

/-! ### Premises: entry and return -/

theorem app_headerFits : app.headerFits .smm :=
  ⟨placedBelow_of (by decide +kernel), writableBelow_of (by decide +kernel)⟩

/-- The program interrupted by an edge of SMI#, running or halted. -/
def interrupted (a : Activity) : State :=
  { appPin with base := { appPin.base with activity := a }, inputs := [{ quiet with smiLow := true }] }

theorem interrupted_headerFits (a : Activity) : (interrupted a).settled.headerFits .smm :=
  ⟨placedBelow_of (by cases a with | halted b => cases b <;> decide +kernel | _ => decide +kernel),
    writableBelow_of (by cases a with | halted b => cases b <;> decide +kernel | _ => decide +kernel)⟩

theorem test_premises_SmintEnters : app.smintValid = true ∧ prefixesDefined [] = true ∧ app.headerFits .smm :=
  ⟨by decide +kernel, by decide, app_headerFits⟩
theorem test_premises_PinEnters : ∀ a ∈ [Activity.running, .halted true, .shutdown],
    (interrupted a).pins.reset = false ∧ (interrupted a).pins.warmReset = false ∧ (interrupted a).smiTaken = true ∧
      (interrupted a).settled.headerFits .smm := fun a ha =>
  ⟨rfl, rfl, by revert a; decide +kernel, interrupted_headerFits a⟩
theorem test_premises_EntryPointer : handler.smhr.getLsbD 0 = true ∧ app.smhr.getLsbD 0 = false ∧
    app.entryTop = stdTop := by decide +kernel
theorem test_premises_RsmResumes : (withHeader handler).smmInstrValid = true ∧ prefixesDefined [] = true ∧
    (withHeader handler).smhr.getLsbD 0 = true ∧ (withHeader handler).placedBelow .smm (hdrTop (withHeader handler).smhr) 0x24 ∧
    (withHeader handler).fieldIs .smm (hdrTop (withHeader handler).smhr - 0x04) 4 (0x400#32).toNat ∧
    (withHeader handler).fieldIs .smm (hdrTop (withHeader handler).smhr - 0x08) 4 (0x202#32).toNat ∧
    (withHeader handler).fieldIs .smm (hdrTop (withHeader handler).smhr - 0x0C) 4 (0x10#32).toNat ∧
    (withHeader handler).fieldIs .smm (hdrTop (withHeader handler).smhr - 0x14) 4 (0x102#32).toNat ∧
    (withHeader handler).fieldIs .smm (hdrTop (withHeader handler).smhr - 0x18) 2 (0x2000#16).toNat ∧
    (withHeader handler).fieldIs .smm (hdrTop (withHeader handler).smhr - 0x20) 8 (0x000093020000FFFF#64).toNat ∧
    (withHeader handler).fieldIs .smm (hdrTop (withHeader handler).smhr - 0x24) 4 (0x9#32).toNat :=
  ⟨by decide +kernel, by decide, by decide +kernel, placedBelow_of (by decide +kernel),
    by unfold State.fieldIs; decide +kernel, by unfold State.fieldIs; decide +kernel,
    by unfold State.fieldIs; decide +kernel, by unfold State.fieldIs; decide +kernel,
    by unfold State.fieldIs; decide +kernel, by unfold State.fieldIs; decide +kernel,
    by unfold State.fieldIs; decide +kernel⟩
theorem test_premises_RsmNeedsValidSmhr : app.smmInstrValid = true ∧ prefixesDefined [] = true ∧
    app.smhr.getLsbD 0 = false := by decide +kernel
theorem test_premises_EntryThenResume : app.cfg.smmConfigured = true ∧
    (smintArgs app 2).nextIp = some 0x102 ∧ app.headerFits .smm :=
  ⟨by decide +kernel, by decide +kernel, app_headerFits⟩

/-! ### Premises: the boundary -/

theorem test_premises_PinIgnored : appPin.smiPinEnabled = true ∧ app.smiPinEnabled = false := by decide +kernel
theorem test_premises_SlRecognition : appPin.cfg.smmMode = false ∧ appPin.smiPinEnabled = true ∧
    (interrupted .running).smiTaken = true ∧
    ({ handler with inputs := [{ quiet with smiLow := true }] } : State).smiTaken = false ∧
    ({ handler with inputs := [{ quiet with smiLow := true }] } : State).smiLatchAfter = true ∧
    ({ interrupted .running with cfgIndex := some 0xC1 } : State).smiLatchAfter = true ∧
    ({ handler with smiLatched := true } : State).smiPinEnabled = true ∧
    ({ handler with smiLatched := true } : State).smiTaken = false ∧
    ({ interrupted .running with debugTrap := true } : State).debugServed = true ∧
    ({ interrupted .running with debugTrap := true } : State).smiTaken = false := by decide +kernel

/-- In a handler, Cyrix Enhanced mode, N as given, SMI# low for a while. -/
def enhanced (n : Bool) : State :=
  { handler with
    cfg := { stdCfg 0x82 with ccr6 := if n then 0x41 else 0x01 }, smiLow := true
    inputs := [{ quiet with smiLow := true }] }

theorem test_premises_EnhancedRecognition : (enhanced true).cfg.smmMode = true ∧ (enhanced true).smiTaken = true ∧
    (enhanced false).smiTaken = false := by decide +kernel
/-- The handler with an NMI at the boundary. -/
def atNmi : State := { atRdshr with inputs := [{ quiet with nmi := true }] }

theorem test_premises_NmiHeldInSmm : atNmi.inSmm = true ∧ atNmi.cfg.ccr3.getLsbD 1 = false ∧ atNmi.pins.reset = false ∧
    atNmi.pins.warmReset = false ∧ atNmi.pins.nmi = true ∧ ∃ t, step atNmi = .next t ∧ t.nmiLatched = true :=
  ⟨by decide +kernel, by decide +kernel, by decide +kernel, by decide +kernel, by decide +kernel,
    next_of (p := fun t => t.nmiLatched) (by decide +kernel)⟩
theorem test_premises_NmiDelivered :
    (∀ s ∈ [({ app with inputs := [{ quiet with nmi := true }] } : State), { app with nmiLatched := true },
        { handler with cfg := { stdCfg 0x82 with ccr3 := 0x02 }, nmiLatched := true }],
      s.pins.reset = false ∧ s.pins.warmReset = false ∧ s.smiTaken = false ∧
        (s.inSmm = false ∨ s.cfg.ccr3.getLsbD 1 = true) ∧ (s.pins.nmi = true ∨ s.nmiLatched = true) ∧
        s.base.activity ≠ .shutdown) ∧
    (∃ t, step { appPin with base := { appPin.base with activity := .halted true }, nmiLatched := true } = .next t ∧
      (t.base.activity == .running && !t.nmiLatched) = true) ∧
    (let s : State := { appPin with debugTrap := true, nmiLatched := true };
      s.pins.reset = false ∧ s.pins.warmReset = false ∧ s.smiTaken = false ∧ s.inSmm = false ∧ s.nmiLatched = true ∧
        s.base.activity ≠ .shutdown) :=
  ⟨by decide +kernel, next_of (p := fun t => t.base.activity == .running && !t.nmiLatched) (by decide +kernel),
    by decide +kernel⟩
theorem test_premises_EntryMasksIntrAndBreakpoints : ∃ t, app.enterSmm (smintArgs app 2) = .ok t :=
  ⟨_, State.enterSmm_fits app_headerFits⟩

/-! ### Premises: memory -/

/-- R104, R66: the first and the last address of the region, and those beside it. -/
theorem test_premises_Routing : (handler.cfg.smarOn = true ∧ handler.cfg.smarAligned = true) ∧
    handler.locate 0x68000 = .ok ⟨.smm, 0x68000⟩ ∧ handler.locate 0x6BFFF = .ok ⟨.smm, 0x6BFFF⟩ ∧
    handler.locate 0x67FFF = .ok ⟨.normal, 0x67FFF⟩ ∧ handler.locate 0x6C000 = .ok ⟨.normal, 0x6C000⟩ ∧
    app.locate 0x68000 = .ok ⟨.smm, 0x68000⟩ ∧ appPin.locate 0x68000 = .ok ⟨.normal, 0x68000⟩ ∧
    handler.locateAccess [0x6BFFF, 0x6C000] = .error .regionStraddle := by decide +kernel
theorem test_region : handler.cfg.inSmar 0x68000 = true ∧ handler.cfg.inSmar 0x6BFFF = true ∧
    handler.cfg.inSmar 0x67FFF = false ∧ handler.cfg.inSmar 0x6C000 = false ∧
    CfgRegs.inSmar { stdCfg 0x82 with arrCE := 0, arrCF := 0x0F } 0xFFFFFFFF = true ∧
    CfgRegs.inSmar { stdCfg 0x82 with arrCF := 0x80 } 0x68000 = false := by decide +kernel
theorem test_premises_RegionTest : (stdCfg 0x82).arrCF.toNat % 16 = 3 ∧ (stdCfg 0x82).smarSize = 0x4000 ∧
    (stdCfg 0x82).smarBase = 0x68000 ∧ (0xFF : Byte).toNat % 16 = 15 ∧ (0xF0 : Byte).toNat % 16 = 0 ∧
    (0x81 : Byte).toNat % 16 ≠ 0 := by decide
theorem test_premises_WriteThenRead :
    handler.writableLocs (([(0x6BFFE, 1), (0x6BFFF, 2)] : List (Dword × Byte)).map Prod.fst) =
      .ok (cellsAt .smm 0x6BFFE 2) ∧ (cellsAt .smm 0x6BFFE 2).Nodup ∧
    handler.writeAccess [(0x6BFFE, 1), (0x6BFFF, 2)] = .ok (handler.writeLocs [(⟨.smm, 0x6BFFE⟩, 1), (⟨.smm, 0x6BFFF⟩, 2)]) := by
  decide +kernel

/-- WP_ARR3 set: by SM3, or by ARREN. -/
def protectedBy (ccr1 ccr5 : Byte) : State := { app with cfg := { stdCfg ccr1 with ccr6 := 0x02, ccr5 := ccr5 } }

theorem test_premises_WriteProtection :
    (∀ x ∈ [(protectedBy 0x86 0, (0x68000 : Dword)), (protectedBy 0 0x20, 0x6BFFF)],
      x.1.inSmm = false ∧ x.1.cfg.ccr6.getLsbD 1 = true ∧
        (x.1.cfg.ccr1.getLsbD 7 = true ∨ x.1.cfg.ccr5.getLsbD 5 = true) ∧ x.1.cfg.smarAligned = true ∧
        x.1.cfg.inArr3 x.2 = true) ∧
    (protectedBy 0x86 0).locate 0x68000 = .ok ⟨.smm, 0x68000⟩ ∧
    (protectedBy 0 0x20).locate 0x6BFFF = .ok ⟨.normal, 0x6BFFF⟩ ∧
    (protectedBy 0 0x20).locateAccess ([(0x67FFF, 1), (0x68000, 2)].map Prod.fst) =
      .ok [⟨.normal, 0x67FFF⟩, ⟨.normal, 0x68000⟩] ∧
    (protectedBy 0x86 0).locateAccess ([((0x67FFF : Dword), (1 : Byte)), (0x68000, 2)].map Prod.fst) =
      .error .regionStraddle := by decide +kernel
theorem test_premises_StepKeepsMemoriesWf : atRdshr.memoriesWf ∧ ∃ t, step atRdshr = .next t ∧ true = true :=
  ⟨by decide +kernel, next_of (p := fun _ => true) (by decide +kernel)⟩

/-! ### Premises: configuration and the base instructions -/

theorem test_premises_IndexPort :
    (∀ x ∈ [((0x21 : Word16), Width.word), (0x22, .word), (0x23, .dword), (0x1F, .dword)],
      x.2 ≠ .byte ∧ x.1.toNat ≤ 0x23 ∧ 0x22 < x.1.toNat + x.2.bytes) := by decide
theorem test_premises_ConfigWrite : ((locked 1).cfg.ccr3.getLsbD 0 && !(locked 1).inSmm) = true ∧
    (app.cfg.ccr3.getLsbD 0 && !app.inSmm) = false ∧ (0x01 : Byte).getLsbD 0 ≠ handler.cfg.ccr6.getLsbD 0 ∧
    handler.inSmm = true ∧ (0x40 : Byte).getLsbD 0 = handler.cfg.ccr6.getLsbD 0 ∧
    (0xFE : Byte) ∉ [0xC0, 0xC1, 0xC2, 0xC3, 0xCD, 0xCE, 0xCF, 0xE8, 0xE9, 0xEA] := by decide +kernel
theorem test_premises_DataPort :
    ({ app with cfgIndex := some 0xC1 } : State).cfgIndex = some 0xC1 ∧ accessible app.cfg 0xC1 = .ok true ∧
    State.cfgWrite { app with cfgIndex := some 0xC1 } 0xC1 0x82 =
      .ok { app with cfgIndex := some 0xC1, cfg := { app.cfg with ccr1 := 0x82 } } ∧
    cfgRead app.cfg 0xC1 = .ok 0x86 ∧ accessible (locked 0x10).cfg 0xD0 = .ok true ∧
    cfgRead (locked 0x10).cfg 0xD0 = .error .undefinedConfigIndex ∧
    (0xCC : Byte) ∉ [0xC0, 0xC1, 0xC2, 0xC3, 0xCD, 0xCE, 0xCF, 0xE8, 0xE9, 0xEA] ∧ app.cfgIndex = none := by decide +kernel
theorem test_premises_AccessibleIndexes :
    app.cfg.mapen = 0 ∧ (locked 0x10).cfg.mapen = 1 ∧
    ((locked 0x20).cfg.mapen ≠ 0 ∧ (locked 0x20).cfg.mapen ≠ 1) ∧
    ((locked 0xF0).cfg.mapen ≠ 0 ∧ (locked 0xF0).cfg.mapen ≠ 1) ∧
    [(0xBF : Byte), 0xD0, 0xFD].all (fun i => accessible app.cfg i == .ok false) = true ∧
    [(0xC0 : Byte), 0xCF, 0xFE, 0xFF].all (fun i => accessible app.cfg i == .ok true) = true := by decide +kernel
theorem test_premises_OutDescribed : app.base.realMode = true ∧
    app.ioWrite (PortArg.value app.base.gpr .dx) .word (app.base.gpr.part .word 0) =
      .ok (app.offChipWrite 0x600 .word 0) := by decide +kernel
theorem test_premises_RepOutsIteration :
    let s : State := { app with base := { app.base with gpr := { app.base.gpr with ecx := 1, esi := 0xFFFF } } }
    s.base.realMode = true ∧ s.base.gpr.sized false .ecx ≠ 0 ∧
    s.segRead (s.base.seg.get ((overrideSeg []).getD .ds)) (stringOffsets false (s.base.gpr.sized false .esi) Width.byte.bytes) =
      .ok [0] ∧
    s.ioWrite (s.base.gpr.get16 .edx) .byte (BitVec.ofNat 32 (ofLE [0])) = .ok (s.offChipWrite 0x600 .byte 0) := by
  decide +kernel
/-- The application in protected mode with an empty GDT. -/
def noGdtState : State := { app with base := { app.base with cr0 := 0x11, gdtr := ⟨0, 0⟩ } }

theorem test_premises_HaltAndShutdown : app.base.cpl = 0 ∧ noGdtState.base.cr0.getLsbD 0 = true ∧
    noGdtState.base.eflags.getLsbD 17 = false ∧ noGdtState.noGdt = true ∧
    ({ noGdtState with base := { noGdtState.base with gdtr := ⟨6, 0⟩ } } : State).noGdt = true ∧
    noGdtState.readRm .word (.reg .eax) [] = .ok 0 := by decide
/-- R235: MOV DS,AX in protected mode with no GDT shuts the core down where it is. -/
theorem test_shutdown : (noGdtState.baseEffect (.loadSeg 3 (.reg .eax) []) 2).toOption.map (·.regs.activity) =
    some .shutdown := by decide

theorem test_premises_ReturnsReloadCs : (atReturn []).popValue 0 Width.word.bytes = .ok 0x1234 ∧
    (atReturn []).base.realMode = true ∧ (atReturn []).popValue Width.word.bytes Width.word.bytes = .ok 0x3000 ∧
    (atReturn []).popValue (2 * Width.word.bytes) Width.word.bytes = .ok 0x202 := by decide +kernel
/-- R234: both cases of WAIT, and the two forms an operand size can give outside real mode. -/
theorem test_premises_FpuStateKept : app.base.cr0.getLsbD 2 = false ∧ app.base.cr0.getLsbD 3 = false ∧
    app.base.fpu.pendingUnmasked = false ∧
    ({ app with base := { app.base with fpu := ⟨[], true⟩ } } : State).base.fpu.pendingUnmasked = true ∧
    FpuForm.full ⟨true, true⟩ = true ∧ FpuForm.full ⟨false, true⟩ = false ∧ FpuForm.full ⟨true, false⟩ = false := by
  decide
/-- Each clause on the image at its first byte, the pending bit's own byte among the cases. -/
theorem test_premises_FpuStateKept_image : ∃ (f : Fpu) (form : FpuForm) (x : Byte) (b : Nat) (bs : List Byte), form.full = true ∧ 0 < form.imageSize ∧
    f.image[0]? = some x ∧
    (0 = form.pendingPlace.1 → x.getLsbD form.pendingPlace.2 = f.pendingUnmasked) ∧ b < 8 ∧ (0, b) ≠ form.pendingPlace ∧
    bs.length = form.imageSize := by
  have h := FpuForm.pendingPlace_lt ⟨true, true⟩
  have hx : ∀ j, j < 8 → (0xFF : Byte).getLsbD j = true := by decide
  refine ⟨⟨[0xFF], true⟩, ⟨true, true⟩, 0xFF, if (FpuForm.pendingPlace ⟨true, true⟩).2 = 0 then 1 else 0,
    List.replicate (FpuForm.imageSize ⟨true, true⟩) 0, rfl, by omega, rfl, fun _ => hx _ h.2, by split <;> omega, ?_, by simp⟩
  intro he
  have := congrArg Prod.snd he
  dsimp only at this
  split at this <;> omega

/-! ### Premises: rules of the whole machine -/

/-- A write to CCR1 of all ones under the lock, in the program. -/
def lockedOut : State :=
  inNormalMem
    { locked 1 with
      cfgIndex := some 0xC1
      base := { (locked 1).base with gpr := { (locked 1).base.gpr with eax := 0xFF } } }
    0x20100 [0xE6, 0x23]

theorem test_premises_ResetPinDisablesSmm : ({ handler with inputs := [{ quiet with reset := true }] } : State).pins.reset = true := by
  decide
theorem test_premises_LockHoldsSettings_LockStaysSet : lockedOut.cfg.smiLock = true ∧ lockedOut.inSmm = false ∧
    lockedOut.pins.reset = false ∧
    ∃ t, step lockedOut = .next t ∧ (t.cfg.ccr1 == 0xF3) = true :=
  ⟨by decide +kernel, by decide +kernel, by decide +kernel,
    next_of (p := fun t => t.cfg.ccr1 == 0xF3) (by decide +kernel)⟩
theorem test_premises_NormalMode : atOut.inSmm = false ∧ atOut.cfg.smac = false ∧ atOut.smiTaken = false ∧
    ∃ t, step atOut = .next t ∧ (!t.inSmm) = true :=
  ⟨by decide +kernel, by decide +kernel, by decide +kernel, next_of (p := fun t => !t.inSmm) (by decide +kernel)⟩
theorem test_premises_SmmEnteredOnlyBySmiRsmOrWarmReset_OnlyTheseChangeSmhr : appPin.inSmm = false ∧
    ∃ t, step (interrupted .running) = .next t ∧ (t.inSmm && t.smhr != (interrupted .running).smhr) = true :=
  ⟨by decide, next_of (p := fun t => t.inSmm && t.smhr != (interrupted .running).smhr) (by decide +kernel)⟩
/-- WRSHR and a write to ARR3 change SMHR as well. -/
theorem test_premises_OnlyTheseChangeSmhr :
    (∃ t, step (inSmmMem handler 0x68000 [0x0F, 0x37, 0xC0]) = .next t ∧ (t.smhr == 0) = true) ∧
    ∃ t, step (inSmmMem { handler with cfgIndex := some 0xCF } 0x68000 [0xE6, 0x23]) = .next t ∧
      (t.smhr == 0x0006C000) = true :=
  ⟨next_of (p := fun t => t.smhr == 0) (by decide +kernel),
    next_of (p := fun t => t.smhr == 0x0006C000) (by decide +kernel)⟩

/-- RSM at the handler's first byte. -/
def atRsm : State := inSmmMem (withHeader handler) 0x68000 [0x0F, 0xAA]

theorem test_premises_OnlyRsmLeavesSmm : atRsm.inSmm = true ∧ atRsm.runs (.rsm []) ∧
    ∃ t, step atRsm = .next t ∧ t.inSmm = false := by
  refine ⟨by decide, ⟨goesOn_of (by decide +kernel), by decide +kernel, by decide +kernel⟩, ?_⟩
  have hb : atRsm.boundary = none := by decide +kernel
  have ha : atRsm.settled.base.activity = .running := by decide +kernel
  have hs : atRsm.settled.suspended = false := by decide +kernel
  have hm : atRsm.settled.debugMatch = .none := by decide +kernel
  have hd : decode atRsm.settled.base.default32 atRsm.settled.fetch.bytes = .ok (.rsm [], List.replicate 14 0) := by
    decide +kernel
  have hv : atRsm.settled.afterFetch.smmInstrValid = true := by decide +kernel
  have hh : smhrValid atRsm.settled.afterFetch.smhr = true := by decide +kernel
  have hr : atRsm.settled.afterFetch.readHeader (hdrTop atRsm.settled.afterFetch.smhr) =
      .ok ⟨0x400, 0x202, 0x10, 0x102, 0x2000, 0x000093020000FFFF, 9⟩ := by decide +kernel
  refine ⟨atRsm.settled.afterFetch.resumed ⟨0x400, 0x202, 0x10, 0x102, 0x2000, 0x000093020000FFFF, 9⟩, ?_, ?_⟩
  · have hf : atRsm.settled.afterFetch.base.default32 = atRsm.settled.base.default32 := by decide +kernel
    simp only [step, hb, State.proceed, ha, hs, State.runInstruction,
      State.underBreakpoints, hm, State.runCode, hf, hd, exec, execRsm, whenValid, hv,
      State.resumeFromSmm, hh, hr]
    rfl
  · have h : ∀ p, 5 ≤ p → p ≤ 31 → (9#32).getLsbD p = false := by
      intro p h1 h2; interval_cases p <;> rfl
    exact h _ hdrNPos_range.1 hdrNPos_range.2.1
theorem test_premises_NwLocked : ({ atOut with cfg := { atOut.cfg with ccr2 := 0x04 } } : State).cfg.ccr2.getLsbD 2 = true ∧
    ∃ t, step { atOut with cfg := { atOut.cfg with ccr2 := 0x04 } } = .next t ∧ (!t.base.cr0.getLsbD 29) = true :=
  ⟨by decide, next_of (p := fun t => !t.base.cr0.getLsbD 29) (by decide +kernel)⟩

/-! ### The header of B4.1 -/

/-- B4.1: the fields the vector states, as SMINT leaves them, and the flags dword's determined bits. -/
theorem test_smint_header : ∃ t f, app.enterSmm (smintArgs app 2) = .ok t ∧
    t.fieldIs .smm (stdTop - 0x04) 4 0x400 ∧ t.fieldIs .smm (stdTop - 0x08) 4 0x202 ∧
    t.fieldIs .smm (stdTop - 0x0C) 4 0x10 ∧ t.fieldIs .smm (stdTop - 0x14) 4 0x102 ∧
    t.fieldIs .smm (stdTop - 0x18) 2 0x2000 ∧ t.fieldIs .smm (stdTop - 0x20) 8 0x000093020000FFFF ∧
    t.fieldIs .smm (stdTop - 0x24) 4 (BitVec.toNat (w := 32) f) ∧
    f.getLsbD 0 = true ∧ f.getLsbD 3 = true ∧ f.getLsbD 4 = false := by
  have hb := entryFlags_bits app (smintArgs app 2) (app.drawn 2 32) ((app.drawn 3 1).getLsbD 0)
  have ht : app.entryTop = stdTop := by decide +kernel
  refine ⟨_, entryFlags app (smintArgs app 2) (app.drawn 2 32) ((app.drawn 3 1).getLsbD 0),
    State.enterSmm_fits app_headerFits, ?_⟩
  rw [ht]
  have key : ∀ d n v, (d, n, v) ∈ headerFields app (smintArgs app 2) →
      State.fieldIs (app.entering.writeLocs (headerCells app (smintArgs app 2) .smm stdTop)) .smm
        (stdTop - BitVec.ofNat 32 d) n v := fun d n v h => headerCells_field h
  exact ⟨key _ _ _ (List.mem_of_getElem? (i := 0) rfl), key _ _ _ (List.mem_of_getElem? (i := 1) rfl),
    key _ _ _ (List.mem_of_getElem? (i := 2) rfl), key _ _ _ (List.mem_of_getElem? (i := 4) rfl),
    key _ _ _ (List.mem_of_getElem? (i := 6) rfl), key _ _ _ (List.mem_of_getElem? (i := 7) rfl),
    key _ _ _ (List.mem_of_getElem? (i := 8) rfl), hb.1.trans (by decide +kernel), hb.2.1.trans (by decide),
    hb.2.2.1.trans (by decide)⟩

end Sys2Proof.Machine.Tests
end

section
/-!
Accesses by physical address and memory operands (settles O38, O7): what a write access stored is read back, and at
which addresses the bytes of a memory operand lie.
-/
namespace Sys2Proof

/-! ### The segment in force (R141, R144, R145, R171) -/

theorem mem_overrides {pre : List Pfx} {n : SegName} : n ∈ overrides pre ↔ .seg n ∈ pre := by
  induction pre with
  | nil => simp [overrides]
  | cons p ps ih => cases p <;> simp [overrides, ih]

theorem overrideSeg_of_overrides_nil {pre : List Pfx} (h : overrides pre = []) : overrideSeg pre = none := by
  simp [overrideSeg, h]

/-- Whichever of several overrides is chosen (log entry 24), it is one of them. -/
theorem overrideSeg_of_overrides_cons {pre : List Pfx} {n : SegName} {ns : List SegName} (h : overrides pre = n :: ns) :
    ∃ m ∈ overrides pre, overrideSeg pre = some m := by
  simp only [overrideSeg, h]
  split
  · exact ⟨n, by simp, rfl⟩
  · have hlt : Config.segOverrideChoice (n :: ns) % (n :: ns).length < (n :: ns).length := Nat.mod_lt _ (by simp)
    refine ⟨_, ?_, rfl⟩
    rw [List.getD_eq_getElem _ _ hlt]
    exact List.getElem_mem hlt

theorem MemArg.segment_of_no_override {pre : List Pfx} (m : MemArg) (h : ∀ n, .seg n ∉ pre) :
    m.segment pre = m.defaultSeg := by
  have hnil : overrides pre = [] := List.eq_nil_iff_forall_not_mem.2 fun n hn => h n (mem_overrides.1 hn)
  rw [MemArg.segment, overrideSeg_of_overrides_nil hnil, Option.getD_none]

theorem MemArg.segment_mem_of_override {pre : List Pfx} (m : MemArg) (h : ∃ n, .seg n ∈ pre) :
    .seg (m.segment pre) ∈ pre := by
  obtain ⟨n, hn⟩ := h
  obtain ⟨k, ks, hcons⟩ := List.exists_cons_of_ne_nil (List.ne_nil_of_mem (mem_overrides.2 hn))
  obtain ⟨o, ho, hs⟩ := overrideSeg_of_overrides_cons hcons
  rw [MemArg.segment, hs, Option.getD_some]
  exact mem_overrides.1 ho

theorem MemArg.defaultSeg_a16_ind (b : Base16) (d : Disp16) :
    (MemArg.a16 (.ind b d)).defaultSeg = if b = .bp ∨ b = .bpsi ∨ b = .bpdi then .ss else .ds := by
  cases b <;> rfl

theorem MemArg.defaultSeg_a32_ind (r : GReg) (d : Disp32) :
    (MemArg.a32 (.ind r d)).defaultSeg = if r = .esp ∨ r = .ebp then .ss else .ds := by
  cases r <;> rfl

theorem MemArg.defaultSeg_a32_sib (scale : BitVec 2) (index base : GReg) (d : Disp32) :
    (MemArg.a32 (.sib scale index base d)).defaultSeg = if base = .esp ∨ base = .ebp then .ss else .ds := by
  cases base <;> rfl

namespace Machine

/-! ### The addresses of cells (R104, R106) -/

/-- While A20M# is not asserted an address is routed to a cell at that address, in whichever memory. -/
theorem State.locate_addr {s : State} (ha : s.a20m = false) {pa : Dword} {l : Loc} (h : s.locate pa = .ok l) :
    l.addr = pa := by
  rcases State.locate_ok h with ⟨rfl, -⟩ | ⟨rfl, -⟩
  · rfl
  · simp [State.maskedAddr, ha]

theorem State.locateAccess_addrs {s : State} (ha : s.a20m = false) {pas : List Dword} {ls : List Loc}
    (h : s.locateAccess pas = .ok ls) : ls.map Loc.addr = pas := by
  have hf := State.locateAccess_ok h
  clear h
  induction hf with
  | nil => rfl
  | cons hl _ ih => rw [List.map_cons, State.locate_addr ha hl, ih]

/-- A store to an operand and a read of one reach cells in the same way: through the segment, then by routing. -/
theorem State.operandAccess_ok {s : State} {pre : List Pfx} {m : MemArg} {n : Nat} {cells : List Loc}
    (h : s.operandCells pre m n = .ok cells ∨ s.readsFrom pre m n cells) :
    ∃ k pas, s.segAddrs (s.operandSeg pre m) k (m.offsets s.base.gpr n) = .ok pas ∧
      s.locateAccess pas = .ok cells := by
  rcases h with h | ⟨pas, hp, hl⟩
  · obtain ⟨pas, hp, hw⟩ := State.segWriteLocs_ok h
    exact ⟨_, pas, hp, (State.writableLocs_ok hw).1⟩
  · exact ⟨_, pas, hp, hl⟩

/-- R171: without paging and A20M#, an operand's cells lie at the segment's base plus the operand's offsets. -/
theorem State.operandAccess_addrs {s : State} (hp : s.base.paging = false) (ha : s.a20m = false) {pre : List Pfx}
    {m : MemArg} {n : Nat} {cells : List Loc} (h : s.operandCells pre m n = .ok cells ∨ s.readsFrom pre m n cells) :
    cells.map Loc.addr = (List.range n).map fun k => (s.operandSeg pre m).base + m.offset s.base.gpr k := by
  obtain ⟨_, pas, hs, hl⟩ := State.operandAccess_ok h
  rw [State.locateAccess_addrs ha hl, State.segAddrs_off hp hs, MemArg.offsets, List.map_map]
  rfl

theorem State.operandAccess_getElem? {s : State} (hp : s.base.paging = false) (ha : s.a20m = false) {pre : List Pfx}
    {m : MemArg} {n : Nat} {cells : List Loc} (h : s.operandCells pre m n = .ok cells ∨ s.readsFrom pre m n cells)
    {k : Nat} {l : Loc} (hk : cells[k]? = some l) :
    k < n ∧ l.addr = (s.operandSeg pre m).base + m.offset s.base.gpr k := by
  have hmap := congrArg (·[k]?) (State.operandAccess_addrs hp ha h)
  simp only [List.getElem?_map, hk, Option.map_some] at hmap
  obtain ⟨j, hj, he⟩ := Option.map_eq_some_iff.1 hmap.symm
  obtain ⟨hlt, rfl⟩ := List.getElem?_eq_some_iff.1 hj
  rw [List.getElem_range] at he
  exact ⟨by simpa using hlt, he.symm⟩

/-! ### Reading what a write access stored (R123) -/

theorem State.locateAccess_writeLocs (s : State) (xs : List (Loc × Byte)) :
    (s.writeLocs xs).locateAccess = s.locateAccess :=
  State.locateAccess_congr (State.locate_congr (by simp) (by simp) (by simp))

theorem State.writeAccess_eq {s : State} {acc : List (Dword × Byte)} {cells : List Loc}
    (h : s.writableLocs (acc.map Prod.fst) = .ok cells) :
    s.writeAccess acc = .ok (s.writeLocs (cells.zip (acc.map Prod.snd))) := by
  simp [State.writeAccess, h]

/-- Distinct cells written with as many bytes hold these bytes, in order. -/
theorem State.map_readLoc_writeLocs_zip (s : State) {cells : List Loc} {bs : List Byte} (hd : cells.Nodup)
    (hl : cells.length = bs.length) : cells.map (s.writeLocs (cells.zip bs)).readLoc = bs := by
  apply List.ext_getElem (by simpa using hl)
  intro k hk hb
  have hk : k < cells.length := by simpa using hk
  rw [List.getElem_map, State.readLoc_writeLocs_zip hd hl (List.getElem?_eq_getElem hk),
    List.getElem?_eq_getElem hb, Option.getD_some]

/-! ### The statements -/

/-- Settles O38: the write leaves routing as it was, so the read goes to the cells the write went to. -/
theorem writeThenRead : Obligations.WriteThenRead := by
  intro s t acc cells hw hd ht
  rw [State.writeAccess_eq hw] at ht
  injection ht with ht
  subst ht
  have hl : s.locateAccess (acc.map Prod.fst) = .ok cells := (State.writableLocs_ok hw).1
  have hlen : cells.length = (acc.map Prod.snd).length := by
    simpa using (State.locateAccess_ok hl).length_eq.symm
  refine ⟨?_, State.sameMemoryOutside_writeLocs s cells _⟩
  simp only [State.readAccess, State.locateAccess_writeLocs, hl, State.map_readLoc_writeLocs_zip s hd hlen]

/-- Settles O7: a cell lies at its physical address, the segment's base plus the operand's offset, and the segment
is an override's wherever there is one. -/
theorem operandAddresses : Obligations.OperandAddresses := by
  refine ⟨fun s pre m n k cells l _ hp ha h hk => ?_, fun pre m => ⟨m.segment_mem_of_override, fun h => ?_⟩⟩
  · obtain ⟨hlt, haddr⟩ := State.operandAccess_getElem? hp ha h hk
    refine ⟨hlt, haddr.trans ?_⟩
    cases m <;> rfl
  · rw [m.segment_of_no_override h]
    match m with
    | .a16 (.ind b d) => exact MemArg.defaultSeg_a16_ind b d
    | .a32 (.ind r d) => exact MemArg.defaultSeg_a32_ind r d
    | .a32 (.sib scale index r d) => exact MemArg.defaultSeg_a32_sib scale index r d
    | .a16 (.abs _) | .a32 (.abs _) | .a32 (.sibAbs _ _ _) => rfl

end Machine

end Sys2Proof
end

section
/-!
From the bytes at EIP to the instruction's meaning (settles O4): a fetch reads an encoding whole, the decoder gives the
instruction back whatever bytes follow, and the step runs it.
-/
namespace Sys2Proof

/-! ### Decoding an encoding, whatever follows it (R140 to R149, R158) -/

theorem decode_encode_append {d32 : Bool} {i : Instr} (h : i.encodable d32 = true) (rest : List Byte) :
    decode d32 (encode i ++ rest) = .ok (i, rest) := by
  have hscan : scanPrefixes (encode i ++ rest) = (i.pre, 0x0F :: i.op.byte :: (i.encodeTail ++ rest)) := by
    simp only [encode, List.append_assoc, List.cons_append, scanPrefixes_map]
  simp only [decode, hscan, if_true, SmmOp.ofByte_byte]
  exact decodeOp_encode d32 i h rest

theorem RmArg.addressBytes_le (rm : RmArg) : rm.addressBytes ≤ 5 := by
  unfold RmArg.addressBytes
  split <;> omega

/-- R158: at most a mod r/m byte, a SIB byte and four displacement bytes follow the opcode. -/
theorem Instr.encodeTail_length_le (i : Instr) : i.encodeTail.length ≤ 6 := by
  cases i with
  | smint | rsm => simp [Instr.encodeTail]
  | _ =>
    rename_i reg rm
    have := rm.addressBytes_le
    simp only [Instr.encodeTail, encodeModRm_length]
    omega

namespace Machine

/-! ### Fetching (R140) -/

/-- The bytes a fetch finds from an offset of CS upward begin with these. -/
def State.codeIs (s : State) (off : Dword) (bs : List Byte) : Prop :=
  ∀ k, (h : k < bs.length) → s.fetchByte (off + BitVec.ofNat 32 k) = .ok bs[k]

theorem State.codeIs_cons {s : State} {off : Dword} {b : Byte} {bs : List Byte} (h : s.codeIs off (b :: bs)) :
    s.fetchByte off = .ok b ∧ s.codeIs (off + 1) bs := by
  refine ⟨(congrArg s.fetchByte (BitVec.add_zero off)).symm.trans (h 0 (by simp)), fun k hk => ?_⟩
  have hoff : off + 1 + BitVec.ofNat 32 k = off + BitVec.ofNat 32 (k + 1) := by
    rw [Nat.add_comm k 1, BitVec.ofNat_add, BitVec.add_assoc]; rfl
  rw [hoff, h (k + 1) (by simpa using hk), List.getElem_cons_succ]

/-- A fetch of at least as many bytes reads all of them, and perhaps more. -/
theorem State.fetchTail_reads {s : State} {bs : List Byte} {n : Nat} {off : Dword} (hn : bs.length ≤ n)
    (h : s.codeIs off bs) : ∃ rest, (s.fetchTail n off).bytes = bs ++ rest := by
  induction bs generalizing n off with
  | nil => exact ⟨_, rfl⟩
  | cons b bs ih =>
    obtain ⟨m, rfl⟩ := Nat.exists_eq_add_one_of_ne_zero (Nat.ne_of_gt (Nat.lt_of_lt_of_le (by simp) hn))
    obtain ⟨hb, hbs⟩ := State.codeIs_cons h
    obtain ⟨rest, hr⟩ := ih (by simpa using hn) hbs
    exact ⟨rest, by simp only [State.fetchTail, hb, hr, List.cons_append]⟩

/-- A fetch that may read one byte more than the prefixes reads them, the escape byte and the bytes after it. -/
theorem State.fetchFrom_reads {s : State} {ps : List Pfx} {bs : List Byte} {n : Nat} {off : Dword}
    (hn : ps.length < n) (hb : bs.length ≤ Config.tailWindow) (h : s.codeIs off (ps.map Pfx.byte ++ 0x0F :: bs)) :
    ∃ rest, (s.fetchFrom n off).bytes = ps.map Pfx.byte ++ 0x0F :: bs ++ rest := by
  obtain ⟨m, rfl⟩ := Nat.exists_eq_add_one_of_ne_zero (Nat.ne_of_gt (Nat.zero_lt_of_lt hn))
  induction ps generalizing m off with
  | nil =>
    obtain ⟨hesc, hbs⟩ := State.codeIs_cons h
    obtain ⟨rest, hr⟩ := State.fetchTail_reads hb hbs
    exact ⟨rest, by simp only [State.fetchFrom, hesc, Pfx.ofByte_escape, hr, List.map_nil, List.nil_append,
      List.cons_append]⟩
  | cons p ps ih =>
    obtain ⟨hp, hps⟩ := State.codeIs_cons h
    have hm : ps.length < m := by simpa using hn
    obtain ⟨j, rfl⟩ := Nat.exists_eq_add_one_of_ne_zero (Nat.ne_of_gt (Nat.zero_lt_of_lt hm))
    obtain ⟨rest, hr⟩ := ih hps j hm
    refine ⟨rest, ?_⟩
    rw [State.fetchFrom, hp]
    simp only [Pfx.ofByte_byte, hr, List.map_cons, List.cons_append]

theorem State.fetch_reads_encode {s : State} {i : Instr} (hn : i.pre.length < 2 ^ 32)
    (h : s.codeIs s.base.eip (encode i)) : ∃ rest, s.fetch.bytes = encode i ++ rest := by
  refine State.fetchFrom_reads hn ?_ h
  have := i.encodeTail_length_le
  rw [List.length_cons, Config.tailWindow]
  omega

/-! ### Running (R268, R303) -/

/-- Code that begins with an instruction's encoding runs as that instruction. -/
theorem State.runCode_encode {s : State} {c : Fetched} {i : Instr} {rest : List Byte}
    (h : i.encodable s.base.default32 = true) (hc : c.bytes = encode i ++ rest) : s.runCode c = exec i s := by
  simp only [State.runCode, hc, decode_encode_append h]

/-- Where the instruction stream goes on, a step is the fetched code's run under the debug registers. -/
theorem State.goesOn.step_eq {s : State} (h : s.goesOn) :
    step s = s.settled.underBreakpoints (s.settled.afterFetch.runCode s.settled.fetch) := by
  obtain ⟨hb, ha, hs⟩ := h
  simp only [step, hb, State.proceed, State.settled_base, ha, hs, State.runInstruction, Bool.false_eq_true, if_false]

/-- While bits 7 to 0 of DR7 are clear the debug registers change nothing (R30). -/
theorem State.underBreakpoints_off {s : State} (h : s.base.dr7.extractLsb' 0 8 = 0) (o : Out) :
    s.underBreakpoints o = o := by
  have hm : s.debugMatch = .none := by simp [State.debugMatch, BaseRegs.breakpointsOn, h]
  simp only [State.underBreakpoints, hm]

/-! ### The statement -/

/-- Settles O4: the fetch reads the whole encoding, from which the decoder gives the instruction back. -/
theorem stepRunsDecoded : Obligations.StepRunsDecoded := by
  intro s i hgo henc hpre hcode
  obtain ⟨rest, hfetch⟩ := State.fetch_reads_encode (s := s.settled) hpre hcode
  have hrun : s.settled.afterFetch.runCode s.settled.fetch = exec i s.settled.afterFetch :=
    State.runCode_encode (by simpa using henc) hfetch
  have hstep : step s = s.settled.underBreakpoints (exec i s.settled.afterFetch) := by rw [hgo.step_eq, hrun]
  exact ⟨hstep, fun hdr => hstep.trans (State.underBreakpoints_off (s := s.settled) hdr _)⟩

end Machine

end Sys2Proof
end

section
/-!
What one step can change, field by field (settles O53, O54, O59, O60, O33): every step that samples no reset is one
shared effect on the settled state, and each effect keeps the configuration, SMHR, CR0.NW and the NMI latch but where
the spec names the exception.
-/
namespace Sys2Proof.Machine

/-! ### The effects a step is made of -/

/-- What an instruction, an event or an entry begins with at this boundary: the settled state, but for EIP, the I/O
record and the draw counter. -/
structure State.Begins (s r : State) : Prop where
  cr0 : r.base.cr0 = s.base.cr0
  cfg : r.cfg = s.cfg
  cfgIndex : r.cfgIndex = s.cfgIndex
  inSmm : r.inSmm = s.inSmm
  smhr : r.smhr = s.smhr
  nmiLatched : r.nmiLatched = s.settled.nmiLatched

theorem State.settled_begins (s : State) : s.Begins s.settled := ⟨rfl, rfl, rfl, rfl, rfl, rfl⟩

theorem State.afterFetch_begins (s : State) : s.Begins s.settled.afterFetch :=
  ⟨by simp, by simp, by simp, by simp, by simp, by simp⟩

theorem State.Begins.advance {s r : State} (h : s.Begins r) (len : Nat) : s.Begins (r.advance len) :=
  ⟨h.cr0, h.cfg, h.cfgIndex, h.inSmm, h.smhr, h.nmiLatched⟩

/-- The shared operations that a step without a reset is made of, each with what it answered. -/
inductive Effect (s t : State) : Prop where
  /-- A core that waits. -/
  | wait (n : Nat) (h : t = { s with draws := n })
  /-- An outcome of `Base`, the delivery of an event included. -/
  | base (o : BaseOutcome) (h : s.applyBase o = .ok t)
  /-- An SMM entry (R270). -/
  | enter (a : EntryArgs) (h : s.enterSmm a = .ok t)
  /-- RSM (R192). -/
  | resume (h : s.resumeFromSmm = .ok t)
  /-- WRSHR (R211). -/
  | wrshr (v : Dword) (len : Nat) (h : t = State.advance { s with smhr := v } len)
  /-- Another of the ten instructions. -/
  | loc (h : LocalEffect s t)
  /-- An I/O instruction (R227). -/
  | io (h : IoEffect s t)

theorem Effect.of_exec {i : Instr} {s t : State} (h : exec i s = .next t) : Effect s t := by
  rcases exec_next h with ⟨o, h⟩ | h | ⟨_, _, _, v, len, -, -, h⟩ | ⟨_, -, -, h⟩ | ⟨_, -, -, h⟩
  · exact .base o h
  · exact .loc h
  · exact .wrshr v len h
  · exact .enter _ h
  · exact .resume h

/-- A step that samples no reset is one effect, with a breakpoint perhaps pending after it. -/
theorem step_effect {s t : State} (hr : s.pins.reset = false) (hw : s.pins.warmReset = false)
    (h : step s = .next t) : ∃ r u d, s.Begins r ∧ Effect r u ∧ t = { u with debugTrap := d } := by
  have settled : Effect s.settled t → ∃ r u d, s.Begins r ∧ Effect r u ∧ t = { u with debugTrap := d } :=
    fun he => ⟨_, t, t.debugTrap, s.settled_begins, he, rfl⟩
  replace h := step_next h
  rcases h with ⟨h, -⟩ | ⟨-, h, -⟩ | ⟨-, -, -, h⟩ | ⟨-, -, -, h⟩
  · simp [hr] at h
  · simp [hw] at h
  · exact settled (.enter _ h)
  · rcases h with ⟨n, h⟩ | ⟨o, h⟩ | ⟨u, d, -, rfl, h⟩
    · exact settled (.wait n h)
    · exact settled (.base o h)
    · rcases h with ⟨i, -, h⟩ | h | ⟨o, h⟩ | ⟨o, len, h⟩
      · exact ⟨_, u, d, s.afterFetch_begins, .of_exec h, rfl⟩
      · exact ⟨_, u, d, s.afterFetch_begins, .io h, rfl⟩
      · exact ⟨_, u, d, s.afterFetch_begins, .base o h, rfl⟩
      · exact ⟨_, u, d, s.afterFetch_begins.advance len, .base o h, rfl⟩

/-! ### What each effect keeps -/

theorem State.applyBase_keeps {s t : State} {o : BaseOutcome} (h : s.applyBase o = .ok t) :
    t.cfg = s.cfg ∧ t.smhr = s.smhr ∧ t.nmiLatched = s.nmiLatched ∧ t.base = guardRegs s.cfg s.base o.regs := by
  obtain ⟨xs, st, -, rfl⟩ := State.applyBase_ok h
  exact ⟨by simp, by simp, by simp, rfl⟩

theorem LocalEffect.keeps {s t : State} (h : LocalEffect s t) :
    t.cfg = s.cfg ∧ t.smhr = s.smhr ∧ t.nmiLatched = s.nmiLatched ∧ t.base.cr0 = s.base.cr0 := by
  obtain ⟨xs, b, -, rfl, hcr0, -, -⟩ := h
  exact ⟨by simp, by simp, by simp, hcr0⟩

theorem State.enterSmm_keeps {s t : State} {a : EntryArgs} (h : s.enterSmm a = .ok t) :
    t.cfg = s.cfg.setNest false ∧ t.smhr = smhrForEntry s.cfg s.smhr ∧ t.nmiLatched = s.nmiLatched ∧
      t.base = entryRegs s.cfg s.base := by
  obtain ⟨xs, -, rfl⟩ := State.enterSmm_ok h
  exact ⟨rfl, by simp, by simp, rfl⟩

theorem State.resumeFromSmm_keeps {s t : State} (h : s.resumeFromSmm = .ok t) :
    t.cfg = s.cfg.setNest true ∧ t.smhr = s.smhr ∧ t.nmiLatched = s.nmiLatched ∧
      ∃ hd, t.base = resumeRegs s.cfg s.base hd := by
  obtain ⟨-, hd, -, rfl⟩ := State.resumeFromSmm_ok h
  exact ⟨rfl, rfl, rfl, hd, rfl⟩

theorem IoEffect.keeps {s t : State} (h : IoEffect s t) :
    (∃ u, PortEffect s u ∧ t.cfg = u.cfg) ∧ (t.smhr = s.smhr ∨ s.wroteArr3 t) ∧ t.nmiLatched = s.nmiLatched ∧
      t.base.cr0 = s.base.cr0 := by
  obtain ⟨u, xs, b, io, hp, -, rfl, hcr0, -, -, hsmhr⟩ := h
  exact ⟨⟨u, hp, by simp⟩, hsmhr, by simpa using hp.nmiLatched, hcr0⟩

/-- The configuration after an effect: as before, CCR6.N written by an entry or RSM, or what a port write made of it. -/
theorem Effect.cfg {s t : State} (h : Effect s t) :
    t.cfg = s.cfg ∨ (∃ n, t.cfg = s.cfg.setNest n) ∨ ∃ u, PortEffect s u ∧ t.cfg = u.cfg := by
  cases h with
  | wait n h => exact .inl (by rw [h])
  | base o h => obtain ⟨hcfg, -⟩ := State.applyBase_keeps h; exact .inl hcfg
  | enter a h => obtain ⟨hcfg, -⟩ := State.enterSmm_keeps h; exact .inr (.inl ⟨_, hcfg⟩)
  | resume h => obtain ⟨hcfg, -⟩ := State.resumeFromSmm_keeps h; exact .inr (.inl ⟨_, hcfg⟩)
  | wrshr v len h => exact .inl (by rw [h]; rfl)
  | loc h => obtain ⟨hcfg, -⟩ := h.keeps; exact .inl hcfg
  | io h => obtain ⟨hport, -⟩ := h.keeps; exact .inr (.inr hport)

theorem Effect.nmiLatched {s t : State} (h : Effect s t) : t.nmiLatched = s.nmiLatched := by
  cases h with
  | wait n h => rw [h]
  | base o h => obtain ⟨-, -, hnmi, -⟩ := State.applyBase_keeps h; exact hnmi
  | enter a h => obtain ⟨-, -, hnmi, -⟩ := State.enterSmm_keeps h; exact hnmi
  | resume h => obtain ⟨-, -, hnmi, -⟩ := State.resumeFromSmm_keeps h; exact hnmi
  | wrshr v len h => rw [h]; rfl
  | loc h => obtain ⟨-, -, hnmi, -⟩ := h.keeps; exact hnmi
  | io h => obtain ⟨-, -, hnmi, -⟩ := h.keeps; exact hnmi

/-- R49: while LOCK_NW is set a new value of CR0 has the old NW. -/
theorem keepNw_nw {c : CfgRegs} (h : c.lockNw = true) (old new : Dword) :
    (keepNw c old new).getLsbD cr0Nw = old.getLsbD cr0Nw := by
  rw [keepNw, if_pos h, getLsbD_setBit, if_pos ⟨rfl, by decide⟩]

theorem Effect.nw {s t : State} (h : Effect s t) (hl : s.cfg.lockNw = true) :
    t.base.cr0.getLsbD cr0Nw = s.base.cr0.getLsbD cr0Nw := by
  cases h with
  | wait n h => rw [h]
  | base o h => obtain ⟨-, -, -, hb⟩ := State.applyBase_keeps h; rw [hb]; exact keepNw_nw hl _ _
  | enter a h => obtain ⟨-, -, -, hb⟩ := State.enterSmm_keeps h; rw [hb]; exact keepNw_nw hl _ _
  | resume h => obtain ⟨-, -, -, hd, hb⟩ := State.resumeFromSmm_keeps h; rw [hb]; exact keepNw_nw hl _ _
  | wrshr v len h => rw [h]; rfl
  | loc h => obtain ⟨-, -, -, hcr0⟩ := h.keeps; rw [hcr0]
  | io h => obtain ⟨-, -, -, hcr0⟩ := h.keeps; rw [hcr0]

/-- Of the ten instructions only WRSHR and SMINT touch SMHR, the latter as an entry does (R213). -/
theorem exec_smhr {i : Instr} {s t : State} (h : exec i s = .next t) :
    t.smhr = s.smhr ∨ (∃ pre reg rm, i = .wrshr pre reg rm) ∨
      ∃ pre, i = .smint pre ∧ t.smhr = smhrForEntry s.cfg s.smhr := by
  rcases exec_next h with ⟨o, h⟩ | h | ⟨pre, reg, rm, _, _, hi, -⟩ | ⟨pre, hi, -, h⟩ | ⟨pre, -, -, h⟩
  · obtain ⟨-, hsmhr, -⟩ := State.applyBase_keeps h; exact .inl hsmhr
  · obtain ⟨-, hsmhr, -⟩ := h.keeps; exact .inl hsmhr
  · exact .inr (.inl ⟨pre, reg, rm, hi⟩)
  · obtain ⟨-, hsmhr, -⟩ := State.enterSmm_keeps h; exact .inr (.inr ⟨pre, hi, hsmhr⟩)
  · obtain ⟨-, hsmhr, -⟩ := State.resumeFromSmm_keeps h; exact .inl hsmhr

/-! ### What a step keeps -/

/-- The configuration after a step that samples no RESET. -/
theorem step_cfg {s t : State} (hr : s.pins.reset = false) (h : step s = .next t) :
    t.cfg = s.cfg ∨ (∃ n, t.cfg = s.cfg.setNest n) ∨ ∃ r u, s.Begins r ∧ PortEffect r u ∧ t.cfg = u.cfg := by
  cases hw : s.pins.warmReset with
  | true =>
    rcases step_next h with ⟨h, -⟩ | ⟨-, -, rfl⟩ | ⟨-, h, -⟩ | ⟨-, h, -⟩
    · simp [hr] at h
    · exact .inl (by simp)
    · simp [hw] at h
    · simp [hw] at h
  | false =>
    obtain ⟨r, u, d, hb, he, rfl⟩ := step_effect hr hw h
    rcases he.cfg with hc | ⟨n, hc⟩ | ⟨v, hp, hc⟩
    · exact .inl (hc.trans hb.cfg)
    · exact .inr (.inl ⟨n, by rw [← hb.cfg]; exact hc⟩)
    · exact .inr (.inr ⟨r, v, hb, hp, hc⟩)

/-- Inside SMM with NMI_EN clear no NMI is served, so one that has arrived is latched at the boundary (R278). -/
theorem State.settled_holds_nmi {s : State} (hi : s.inSmm = true) (he : s.cfg.nmiEn = false)
    (ha : s.nmiArrived = true) : s.settled.nmiLatched = true := by
  have hserved : s.nmiServed = false := by simp [State.nmiServed, hi, he]
  simp [ha, hserved]

theorem CfgRegs.setNest_keeps (c : CfgRegs) (n : Bool) :
    (c.setNest n).lockedSettings = c.lockedSettings ∧ (c.setNest n).smiLock = c.smiLock := ⟨rfl, rfl⟩

/-- An access that changed SMHR is the same seen from the state the step began in. -/
theorem State.Begins.wroteArr3 {s r t : State} (hb : s.Begins r) (h : r.wroteArr3 t) : s.wroteArr3 t := by
  obtain ⟨idx, i, hidx, harr, hlock, hsmhr, hrest⟩ := h
  refine ⟨idx, i, hb.cfgIndex ▸ hidx, harr, ?_, hb.smhr ▸ hsmhr, hrest⟩
  simpa [State.configLocked, hb.cfg, hb.inSmm] using hlock

/-- A valid pointer is used as it stands, so an entry that changes SMHR found its valid bit clear (R68). -/
theorem smhrForEntry_ne {c : CfgRegs} {v : Dword} (h : smhrForEntry c v ≠ v) : v.getLsbD 0 = false := by
  by_contra hv
  exact h (by rw [smhrForEntry, smhrValid, if_pos (by simpa using hv)])

/-- What changes SMHR where no reset and no SMI is served at the boundary (R213). -/
theorem step_instruction_smhr {s u : State} (hgo : s.goesOn) (hne : u.smhr ≠ s.smhr)
    (h : (∃ i, s.runs i ∧ exec i s.settled.afterFetch = .next u) ∨ IoEffect s.settled.afterFetch u ∨
      (∃ o, s.settled.afterFetch.applyBase o = .ok u) ∨
      ∃ o len, (s.settled.afterFetch.advance len).applyBase o = .ok u) :
    (s.smhr.getLsbD 0 = false ∧ u.smhr = smhrForEntry s.cfg s.smhr ∧ ∃ pre, s.runs (.smint pre)) ∨
      (∃ pre reg rm, s.runs (.wrshr pre reg rm)) ∨ (s.goesOn ∧ s.wroteArr3 u) := by
  have hb := s.afterFetch_begins
  rcases h with ⟨i, hi, h⟩ | h | ⟨o, h⟩ | ⟨o, len, h⟩
  · rcases exec_smhr h with hm | ⟨pre, reg, rm, rfl⟩ | ⟨pre, rfl, hm⟩
    · exact absurd (hm.trans hb.smhr) hne
    · exact .inr (.inl ⟨pre, reg, rm, hi⟩)
    · rw [hb.cfg, hb.smhr] at hm
      exact .inl ⟨smhrForEntry_ne (hm ▸ hne), hm, pre, hi⟩
  · obtain ⟨-, hm | hw, -⟩ := h.keeps
    · exact absurd (hm.trans hb.smhr) hne
    · exact .inr (.inr ⟨hgo, hb.wroteArr3 hw⟩)
  · obtain ⟨-, hm, -⟩ := State.applyBase_keeps h
    exact absurd (hm.trans hb.smhr) hne
  · obtain ⟨-, hm, -⟩ := State.applyBase_keeps h
    exact absurd (hm.trans (hb.advance len).smhr) hne

/-! ### The statements -/

/-- Settles O53: CCR6.N is no protected setting, and a port write finds the lock in force. -/
theorem lockHoldsSettings : Obligations.LockHoldsSettings := by
  intro s t hlock hsmm hr h
  rcases step_cfg hr h with hc | ⟨n, hc⟩ | ⟨r, u, hb, hp, hc⟩
  · rw [hc]
  · obtain ⟨hset, -⟩ := s.cfg.setNest_keeps n
    rw [hc, hset]
  · rw [hc, hp.locked (by simp [State.configLocked, hb.cfg, hb.inSmm, hlock, hsmm]), hb.cfg]

/-- Settles O54: of what changes the configuration only a port write reaches CCR3, and it never clears SMI_LOCK. -/
theorem lockStaysSet : Obligations.LockStaysSet := by
  intro s t hlock hr h
  rcases step_cfg hr h with hc | ⟨n, hc⟩ | ⟨r, u, hb, hp, hc⟩
  · rw [hc, hlock]
  · obtain ⟨-, hset⟩ := s.cfg.setNest_keeps n
    rw [hc, hset, hlock]
  · rw [hc, hp.smiLock (by rw [hb.cfg, hlock])]

/-- Settles O60: every effect that writes CR0 keeps its NW under the lock. -/
theorem nwLocked : Obligations.NwLocked := by
  intro s t hlock hr hw h
  obtain ⟨r, u, d, hb, he, rfl⟩ := step_effect hr hw h
  rw [← hb.cr0]
  exact he.nw (by rw [hb.cfg]; exact hlock)

/-- Settles O33: the boundary latches the NMI, and no effect touches the latch. -/
theorem nmiHeldInSmm : Obligations.NmiHeldInSmm := by
  intro s t hsmm hen hr hw hnmi h
  obtain ⟨r, u, d, hb, he, rfl⟩ := step_effect hr hw h
  have harrived : s.nmiArrived = true := by simpa [State.nmiArrived] using hnmi
  calc u.nmiLatched = r.nmiLatched := he.nmiLatched
    _ = s.settled.nmiLatched := hb.nmiLatched
    _ = true := State.settled_holds_nmi hsmm hen harrived

/-- Settles O59: the cases of a step, RESET, an entry by the pin and the instruction stream being the ones that touch
SMHR. -/
theorem onlyTheseChangeSmhr : Obligations.OnlyTheseChangeSmhr := by
  intro s t h hne
  replace h := step_next h
  rcases h with ⟨hr, rfl⟩ | ⟨-, -, rfl⟩ | ⟨-, -, hs, h⟩ | ⟨-, -, -, ⟨n, rfl⟩ | ⟨o, h⟩ | ⟨u, d, hgo, rfl, h⟩⟩
  · exact .inl ⟨hr, by rw [State.hardReset_smhr]; decide⟩
  · exact absurd (by simp) hne
  · obtain ⟨-, hm, -⟩ := State.enterSmm_keeps h
    exact .inr (.inl ⟨smhrForEntry_ne (hm ▸ hne), hm, .inl hs⟩)
  · exact absurd rfl hne
  · obtain ⟨-, hm, -⟩ := State.applyBase_keeps h
    exact absurd hm hne
  · rcases step_instruction_smhr (u := u) hgo hne h with ⟨hv, hm, hi⟩ | h
    · exact .inr (.inl ⟨hv, hm, .inr hi⟩)
    · exact .inr (.inr h)

end Sys2Proof.Machine
end

section
/-!
The SMM address region and what rests on it (settles O37, O26, O39, O27): base and size of the region, the pointer an
entry uses, writes that WP_ARR3 refuses, and the header that RSM reads back.
-/
namespace Sys2Proof.Machine

/-! ### Base and size (R64, R65) -/

theorem toNat_append_eq {m n : Nat} (x : BitVec m) (y : BitVec n) : (x ++ y).toNat = x.toNat * 2 ^ n + y.toNat := by
  rw [BitVec.toNat_append, ← Nat.shiftLeft_add_eq_or_of_lt y.isLt, Nat.shiftLeft_eq]

theorem CfgRegs.smarBase_toNat (c : CfgRegs) :
    c.smarBase.toNat = c.arrCD.toNat * 2 ^ 24 + c.arrCE.toNat * 2 ^ 16 + c.arrCF.toNat / 16 * 2 ^ 12 := by
  have hcf := c.arrCF.isLt
  simp only [CfgRegs.smarBase, toNat_append_eq, BitVec.extractLsb'_toNat, Nat.shiftRight_eq_div_pow, BitVec.toNat_ofNat]
  omega

theorem CfgRegs.arr3SizeCode_toNat (c : CfgRegs) : c.arr3SizeCode.toNat = c.arrCF.toNat % 16 := by
  simp [CfgRegs.arr3SizeCode]

theorem CfgRegs.arr3SizeCode_eq_iff (c : CfgRegs) (k : BitVec 4) :
    c.arr3SizeCode = k ↔ c.arrCF.toNat % 16 = k.toNat := by
  rw [← BitVec.toNat_inj, c.arr3SizeCode_toNat]

/-- D8: every SIZE code but 0 selects a power of two from 4 KBytes to 4 GBytes. -/
theorem arr3Size_pow {code : BitVec 4} (h : code ≠ 0) : ∃ e, 12 ≤ e ∧ e ≤ 32 ∧ arr3Size code = 2 ^ e := by
  unfold arr3Size
  rw [if_neg h]
  split
  · exact ⟨14, by omega, by omega, rfl⟩
  · split
    · exact ⟨32, by omega, by omega, rfl⟩
    · exact ⟨_, by omega, by omega, rfl⟩

theorem arr3Size_dvd (code : BitVec 4) : 4 ∣ arr3Size code := by
  by_cases h : code = 0
  · simp [arr3Size, h]
  · obtain ⟨e, he, -, hs⟩ := arr3Size_pow h
    exact hs ▸ pow_dvd_pow 2 (show 2 ≤ e by omega)

theorem CfgRegs.smarOn_iff (c : CfgRegs) : c.smarOn = true ↔ c.ccr1.getLsbD 7 = true ∧ c.arrCF.extractLsb' 0 4 ≠ 0 := by
  simp [CfgRegs.smarOn, CfgRegs.sm3, CfgRegs.arr3SizeCode]

theorem CfgRegs.inSmar_iff (c : CfgRegs) (pa : Dword) : c.inSmar pa = true ↔
    c.smarOn = true ∧ c.smarBase.toNat ≤ pa.toNat ∧ pa.toNat - c.smarBase.toNat < c.smarSize := by
  simp [CfgRegs.inSmar, CfgRegs.smarOn, CfgRegs.inArr3, and_assoc]

/-! ### The pointer of an entry (R67, R68) -/

/-- `HdrTop` clears the two low bits. -/
theorem hdrTop_low (v : Dword) : (hdrTop v).getLsbD 0 = false ∧ (hdrTop v).getLsbD 1 = false := by
  simp only [hdrTop, BitVec.getLsbD_append]
  exact ⟨rfl, rfl⟩

theorem hdrTop_append (x : BitVec 30) (y : BitVec 2) : hdrTop (x ++ y) = x ++ 0#2 := by
  rw [hdrTop, BitVec.extractLsb'_append_eq_left]

/-- A dword-aligned pointer is its own `HdrTop`. -/
theorem hdrTop_of_aligned {v : Dword} (h : 4 ∣ v.toNat) : hdrTop v = v := by
  apply BitVec.eq_of_toNat_eq
  have := v.isLt
  simp only [hdrTop, toNat_append_eq, BitVec.extractLsb'_toNat, Nat.shiftRight_eq_div_pow, BitVec.toNat_ofNat]
  omega

/-- The region's top, modulo 2^32, is dword aligned, base and size being so. -/
theorem CfgRegs.smarTop_aligned (c : CfgRegs) : 4 ∣ (c.smarBase + BitVec.ofNat 32 c.smarSize).toNat := by
  have hsize : 4 ∣ c.smarSize := arr3Size_dvd _
  rw [BitVec.toNat_add, BitVec.toNat_ofNat, c.smarBase_toNat]
  omega

/-! ### The header that RSM reads (R192) -/

/-- A field of a header placed in one memory, read back at its width. -/
theorem State.memRead_header {s : State} {st : StoreId} {top d : Dword} {m n w : Nat} {v : BitVec w}
    (hp : s.placedBelow st top m) (hn : n ≤ d.toNat) (hd : d.toNat ≤ m) (hw : 256 ^ n = 2 ^ w)
    (hf : s.fieldIs st (top - d) n v.toNat) : s.memRead (top - d) n = .ok v.toNat := by
  have hofNat : d = BitVec.ofNat 32 d.toNat := by simp
  rw [hofNat] at hf ⊢
  rw [State.memRead_below hp hn hd hf, hw, Nat.mod_eq_of_lt v.isLt]

/-- The header a memory holds below a pointer is the one RSM reads there. -/
theorem State.readHeader_placed {s : State} {st : StoreId} {top : Dword} {h : SavedHeader}
    (hp : s.placedBelow st top 0x24)
    (hdr7 : s.fieldIs st (top - 0x04) 4 h.dr7.toNat) (hfl : s.fieldIs st (top - 0x08) 4 h.eflags.toNat)
    (hcr0 : s.fieldIs st (top - 0x0C) 4 h.cr0.toNat) (hip : s.fieldIs st (top - 0x14) 4 h.nextIp.toNat)
    (hsel : s.fieldIs st (top - 0x18) 2 h.csSel.toNat) (hdesc : s.fieldIs st (top - 0x20) 8 h.csDesc.toNat)
    (hflags : s.fieldIs st (top - 0x24) 4 h.flags.toNat) : s.readHeader top = .ok h := by
  have rDr7 := State.memRead_header hp (by decide) (by decide) rfl hdr7
  have rEflags := State.memRead_header hp (by decide) (by decide) rfl hfl
  have rCr0 := State.memRead_header hp (by decide) (by decide) rfl hcr0
  have rIp := State.memRead_header hp (by decide) (by decide) rfl hip
  have rSel := State.memRead_header hp (by decide) (by decide) rfl hsel
  have rDesc := State.memRead_header hp (by decide) (by decide) rfl hdesc
  have rFlags := State.memRead_header hp (by decide) (by decide) rfl hflags
  simp only [State.readHeader, rDr7, rEflags, rCr0, rIp, rSel, rDesc, rFlags, bind, Except.bind, BitVec.ofNat_toNat,
    BitVec.setWidth_eq]

theorem exec_rsm_ok {s t : State} {pre : List Pfx} (hv : s.smmInstrValid = true) (hp : prefixesDefined pre = true)
    (h : s.resumeFromSmm = .ok t) : exec (.rsm pre) s = .next t := by
  simp only [exec, execRsm, whenValid, hv, hp, if_true, h, liftRefusal, finish]

/-! ### Writes under WP_ARR3 (R129) -/

theorem State.wpArr3Active_of {s : State} (hi : s.inSmm = false) (hw : s.cfg.wpArr3 = true)
    (he : s.cfg.arr3Enabled = true) {pa : Dword} (hpa : s.cfg.inArr3 pa = true) : s.wpArr3Active = true := by
  have hsize : (s.cfg.arr3SizeCode != 0) = true := by
    rw [CfgRegs.inArr3, Bool.and_eq_true] at hpa
    obtain ⟨hsize, -⟩ := hpa
    exact hsize
  rw [State.wpArr3Active, hi, hw, he, hsize]
  rfl

/-- With an aligned region the only ground on which a write is refused is a protection. -/
theorem State.checkWrite_cases {s : State} (ha : s.cfg.smarAligned = true) (pa : Dword) (l : Loc) :
    s.checkWrite pa l = .ok () ∨ s.checkWrite pa l = .error .writeProtected := by
  unfold State.checkWrite
  rw [ha, if_neg (by simp)]
  split
  · exact .inr rfl
  · split
    · exact .inr rfl
    · exact .inl rfl

theorem State.checkWrite_protected {s : State} (ha : s.cfg.smarAligned = true) (hwp : s.wpArr3Active = true)
    {pa : Dword} (hpa : s.cfg.inArr3 pa = true) (l : Loc) : s.checkWrite pa l = .error .writeProtected := by
  simp [State.checkWrite, ha, hwp, hpa]

/-- One protected byte refuses the whole write. -/
theorem State.checkWrites_protected {s : State} (ha : s.cfg.smarAligned = true) (hwp : s.wpArr3Active = true)
    {xs : List (Dword × Loc)} (h : ∃ x ∈ xs, s.cfg.inArr3 x.1 = true) :
    s.checkWrites xs = .error .writeProtected := by
  induction xs with
  | nil => simp at h
  | cons y ys ih =>
    rcases State.checkWrite_cases ha y.1 y.2 with hy | hy
    · have hys : ∃ x ∈ ys, s.cfg.inArr3 x.1 = true := by
        obtain ⟨x, hx, hin⟩ := h
        rcases List.mem_cons.1 hx with rfl | hx
        · rw [State.checkWrite_protected ha hwp hin] at hy
          cases hy
        · exact ⟨x, hx, hin⟩
      simp only [State.checkWrites, hy, ih hys]
    · simp only [State.checkWrites, hy]

theorem State.writableLocs_protected {s : State} (ha : s.cfg.smarAligned = true) (hwp : s.wpArr3Active = true)
    {pas : List Dword} {pa : Dword} (hm : pa ∈ pas) (hpa : s.cfg.inArr3 pa = true) {ls : List Loc}
    (hl : s.locateAccess pas = .ok ls) : s.writableLocs pas = .error .writeProtected := by
  have hlen := (State.locateAccess_ok hl).length_eq
  have hz : ∃ x ∈ pas.zip ls, s.cfg.inArr3 x.1 = true := by
    rw [← List.map_fst_zip (le_of_eq hlen)] at hm
    obtain ⟨x, hx, rfl⟩ := List.mem_map.1 hm
    exact ⟨x, hx, hpa⟩
  simp only [State.writableLocs, hl, State.checkWrites_protected ha hwp hz]

theorem State.writeAccess_error {s : State} {acc : List (Dword × Byte)} {r : Refusal}
    (h : s.writableLocs (acc.map Prod.fst) = .error r) : s.writeAccess acc = .error r := by
  simp only [State.writeAccess, h]

/-! ### The statements -/

/-- Settles O37: the SIZE codes one by one, the base as its three bytes make it up. -/
theorem regionTest : Obligations.RegionTest := by
  intro c
  refine ⟨c.smarBase_toNat, fun h => ?_, fun h => ?_, fun h => ?_, fun h => ?_, c.smarOn_iff, c.inSmar_iff⟩
  · have hcode : c.arr3SizeCode = 0 := (c.arr3SizeCode_eq_iff 0).2 h
    simp [CfgRegs.smarOn, hcode]
  · have hcode : c.arr3SizeCode = 3 := (c.arr3SizeCode_eq_iff 3).2 h
    simp [CfgRegs.smarSize, arr3Size, hcode]
  · have hcode : c.arr3SizeCode = 15 := (c.arr3SizeCode_eq_iff 15).2 h
    simp [CfgRegs.smarSize, arr3Size, hcode]
  · exact arr3Size_pow fun hcode => h ((c.arr3SizeCode_eq_iff 0).1 hcode)

/-- Settles O26: a recomputed pointer loses nothing to the two bits that SMHR keeps for itself. -/
theorem entryPointer : Obligations.EntryPointer := by
  intro s
  refine ⟨fun hv => by rw [smhrForEntry, smhrValid, if_pos hv], fun hv => ?_⟩
  have he : smhrForEntry s.cfg s.smhr =
      (s.cfg.smarBase + BitVec.ofNat 32 s.cfg.smarSize).extractLsb' 2 30 ++ 0b01#2 := by
    rw [smhrForEntry, smhrValid, hv]; rfl
  have htop : s.entryTop = s.cfg.smarBase + BitVec.ofNat 32 s.cfg.smarSize := by
    rw [State.entryTop, he, hdrTop_append]
    exact hdrTop_of_aligned s.cfg.smarTop_aligned
  obtain ⟨hlow0, hlow1⟩ := hdrTop_low (smhrForEntry s.cfg s.smhr)
  refine ⟨?_, ?_, hlow0, hlow1, htop⟩
  · rw [he, BitVec.getLsbD_append]; rfl
  · rw [he, BitVec.getLsbD_append]; rfl

/-- Settles O39: a write whose bytes lie in one memory reaches the check of its protected byte. -/
theorem writeProtection : Obligations.WriteProtection := by
  intro s acc pa hsmm hwp hen ha hm hpa
  have hact : s.wpArr3Active = true :=
    State.wpArr3Active_of hsmm hwp (by simpa [CfgRegs.arr3Enabled, CfgRegs.sm3, CfgRegs.arren] using hen) hpa
  have hprot : ∀ ls, s.locateAccess (acc.map Prod.fst) = .ok ls →
      s.writableLocs (acc.map Prod.fst) = .error .writeProtected := fun ls hl =>
    State.writableLocs_protected ha hact hm hpa hl
  refine ⟨?_, fun ls hl => ⟨hprot ls hl, State.writeAccess_error (hprot ls hl)⟩⟩
  cases hl : s.locateAccess (acc.map Prod.fst) with
  | ok ls => exact ⟨_, State.writeAccess_error (hprot ls hl)⟩
  | error r => exact ⟨r, State.writeAccess_error (by simp only [State.writableLocs, hl])⟩

/-- Settles O27: the seven fields are read back one by one, then loaded. -/
theorem rsmResumes : Obligations.RsmResumes := by
  intro s pre st dr7 eflags cr0 nextIp flags sel desc hv hpre hvalid hp hdr7 hfl hcr0 hip hsel hdesc hflags
  have hread : s.readHeader (hdrTop s.smhr) = .ok ⟨dr7, eflags, cr0, nextIp, sel, desc, flags⟩ :=
    State.readHeader_placed hp hdr7 hfl hcr0 hip hsel hdesc hflags
  refine exec_rsm_ok hv hpre ?_
  simp only [State.resumeFromSmm, smhrValid, hvalid, if_true, hread]
  rfl

end Sys2Proof.Machine
end

section
/-!
Configuration writes and RESET (settles O43, O40, O51, O52): what a write does at each index, the state after reset,
and that no SMM instruction exists there.
-/
namespace Sys2Proof.Machine

/-! ### Configuration writes by index (R222) -/

/-- CCR3 after a write, bit by bit: SMI_LOCK only ever set, NMI_EN kept under the lock, the rest as written. -/
theorem ccr3Written_getLsbD (locked : Bool) (old v : Byte) :
    (ccr3Written locked old v).getLsbD 0 = (old.getLsbD 0 || v.getLsbD 0) ∧
      (ccr3Written locked old v).getLsbD 1 = (if locked then old.getLsbD 1 else v.getLsbD 1) ∧
      ∀ k, 2 ≤ k → (ccr3Written locked old v).getLsbD k = v.getLsbD k := by
  have bit : ∀ k, (ccr3Written locked old v).getLsbD k =
      ((if locked ∧ k = 1 then old.getLsbD 1 else v.getLsbD k) || (old.getLsbD k && decide (k = 0))) := by
    intro k
    cases locked
    · simp [ccr3Written]
    · simp [ccr3Written, getLsbD_setBit]
  refine ⟨?_, ?_, fun k hk => ?_⟩
  · rw [bit, Bool.or_comm, decide_eq_true rfl, Bool.and_true, if_neg (by omega)]
  · rw [bit, decide_eq_false (by decide), Bool.and_false, Bool.or_false]
    simp only [and_true]
  · rw [bit, decide_eq_false (by omega), Bool.and_false, Bool.or_false, if_neg (by omega)]

/-- An ARR3 byte written, by the lock (R68, R222). -/
theorem State.arr3Written_eq (s : State) (c : CfgRegs) :
    s.arr3Written c = if s.configLocked then s else { s with cfg := c, smhr := s.smhr &&& 0xFFFFFFFE } := rfl

theorem State.cfgWrite_arr3 (s : State) (v : Byte) {idx : Byte} {c : CfgRegs}
    (h : idx = 0xCD ∧ c = { s.cfg with arrCD := v } ∨ idx = 0xCE ∧ c = { s.cfg with arrCE := v } ∨
      idx = 0xCF ∧ c = { s.cfg with arrCF := v }) : s.cfgWrite idx v = .ok (s.arr3Written c) := by
  rcases h with ⟨rfl, rfl⟩ | ⟨rfl, rfl⟩ | ⟨rfl, rfl⟩ <;> rfl

theorem State.cfgWrite_ccr6 (s : State) (v : Byte) : s.cfgWrite 0xEA v =
    if s.inSmm && v.getLsbD 0 != s.cfg.smmMode then .error .smmModeChangeInSmm
    else .ok { s with cfg := { s.cfg with ccr6 := v } } := rfl

/-- R69: the source defines no other index. -/
theorem State.cfgWrite_undefined (s : State) (v : Byte) {idx : Byte}
    (h : idx ∉ [0xC0, 0xC1, 0xC2, 0xC3, 0xCD, 0xCE, 0xCF, 0xE8, 0xE9, 0xEA]) :
    s.cfgWrite idx v = .error .undefinedConfigIndex := by
  simp only [List.mem_cons, List.not_mem_nil, or_false, not_or, ← BitVec.toNat_inj] at h
  unfold State.cfgWrite
  split <;> simp_all

/-! ### The ten instructions where they do not exist (R170, R190) -/

theorem whenValid_invalid (s : State) {v : Bool} (h : v = false) (d : Bool) (x : Except Stop State) :
    whenValid s v d x = raiseInvalidOpcode s := by
  simp [whenValid, h]

/-- An instruction that does not exist raises the invalid-opcode exception, whatever its operands. -/
theorem exec_of_not_opExists {s : State} {i : Instr} (h : s.opExists i.op = false) : exec i s = raiseInvalidOpcode s := by
  cases i with
  | rsdc pre sreg rm =>
    have hv : s.smmInstrValid = false := h
    simp only [exec, execRsdc, hv, Bool.false_and, Bool.false_eq_true, if_false]
    exact whenValid_invalid s rfl _ _
  | _ => exact whenValid_invalid s h _ _

/-- R170, R190, R263: without a region neither the instructions nor the SMI# pin are in force. -/
theorem State.opExists_unconfigured {s : State} (h : s.cfg.smmConfigured = false) (op : SmmOp) :
    s.opExists op = false := by
  cases op <;> simp [State.opExists, State.smmInstrValid, State.smintValid, h]

theorem State.smiPinEnabled_unconfigured {s : State} (h : s.cfg.smmConfigured = false) : s.smiPinEnabled = false := by
  simp [State.smiPinEnabled, h]

theorem step_reset {s : State} (h : s.pins.reset = true) : step s = .next s.sampled.hardReset := by
  simp [step, State.boundary, h]

/-! ### The statements -/

/-- Settles O43: index by index. -/
theorem configWrite : Obligations.ConfigWrite := by
  intro s v
  dsimp only
  refine ⟨rfl, rfl, rfl, ⟨_, rfl, ccr3Written_getLsbD _ _ _⟩, fun idx c h => ?_, rfl, rfl, fun h => ?_, fun h hi => ?_,
    fun idx h => s.cfgWrite_undefined v h⟩
  · rw [s.cfgWrite_arr3 v h, State.arr3Written_eq]; rfl
  · rw [State.cfgWrite_ccr6, CfgRegs.smmMode, if_neg]
    rcases h with h | h
    · rw [h, bne_self_eq_false, Bool.and_false]
      exact Bool.false_ne_true
    · rw [h, Bool.false_and]
      exact Bool.false_ne_true
  · rw [State.cfgWrite_ccr6, if_pos]
    simpa [hi, CfgRegs.smmMode] using h

/-- Settles O40: both memories are empty at reset. -/
theorem resetMemoriesWf : Obligations.ResetMemoriesWf :=
  ⟨Memory.wf_nil, Memory.wf_nil⟩

/-- Settles O51: the rows of R80, each read off the reset state. -/
theorem resetValues : Obligations.ResetValues := by
  unfold Obligations.ResetValues
  decide

/-- Settles O52: after RESET no region is configured. -/
theorem resetPinDisablesSmm : Obligations.ResetPinDisablesSmm := by
  intro s h
  have hcfg : s.sampled.hardReset.cfg.smmConfigured = false := by rw [State.hardReset_cfg]; decide
  refine ⟨_, step_reset h, rfl, rfl, ?_, rfl, rfl, rfl, rfl, State.smiPinEnabled_unconfigured hcfg, fun i => ?_⟩
  · rw [State.hardReset_smhr]; decide
  · exact exec_of_not_opExists (State.opExists_unconfigured hcfg _)

end Sys2Proof.Machine
end

section
/-!
Base instructions that change registers only (settles O48, O49, O50): halting and shutting down, the returns, and the
FPU's state.
-/
namespace Sys2Proof.Machine

/-! ### Outcomes without memory accesses -/

/-- A base instruction whose outcome makes no memory access completes, its registers passed through the guard of R49 and
R58 and all else as before. -/
theorem State.execBase_guarded {s : State} {i : BaseInstr} {len : Nat} {o : BaseOutcome}
    (hi : s.execBase i len = finish s (s.baseStep (s.baseEffect i len))) (he : s.baseEffect i len = .ok o)
    (hr : o.reads = []) (hw : o.writes = []) :
    ∃ t, s.execBase i len = .next t ∧ s.onlyBase t (guardRegs s.cfg s.base o.regs) :=
  ⟨_, State.execBase_registers hi he hr hw, rfl, rfl,
    ⟨rfl, rfl, rfl, rfl, rfl, rfl, rfl, rfl, rfl, rfl, rfl, rfl⟩, fun _ _ => rfl⟩

/-- Where CR0 and EFLAGS are kept the guard changes nothing. -/
theorem State.execBase_onlyBase {s : State} {i : BaseInstr} {len : Nat} {o : BaseOutcome}
    (hi : s.execBase i len = finish s (s.baseStep (s.baseEffect i len))) (he : s.baseEffect i len = .ok o)
    (hr : o.reads = []) (hw : o.writes = []) (hcr0 : o.regs.cr0 = s.base.cr0) (hfl : o.regs.eflags = s.base.eflags) :
    ∃ t, s.execBase i len = .next t ∧ s.onlyBase t o.regs := by
  rw [← guardRegs_keeping s.cfg hcr0 hfl]
  exact State.execBase_guarded hi he hr hw

/-! ### Halting and shutting down (R228, R235, R293) -/

theorem BaseRegs.atCpl0_eq {b : BaseRegs} (h : b.cpl = 0) (o : Except Stop BaseOutcome) : b.atCpl0 o = o := by
  simp [BaseRegs.atCpl0, h]

theorem BaseRegs.realMode_eq_false {b : BaseRegs} (h : b.cr0.getLsbD 0 = true) : b.realMode = false := by
  rw [BaseRegs.realMode, cr0Pe, h]; rfl

theorem BaseRegs.protectedMode_of {b : BaseRegs} (hpe : b.cr0.getLsbD 0 = true) (hvm : b.eflags.getLsbD 17 = false) :
    b.protectedMode = true := by
  rw [BaseRegs.protectedMode, BaseRegs.realMode_eq_false hpe, BaseRegs.v86Mode, flagVm, hvm, Bool.and_false]; rfl

/-- The fields 0, 2, 3, 4 and 5 name a segment register that a MOV may load (R148). -/
theorem sreg_named {sreg : BitVec 3} (h : sreg.toNat ∈ [0, 2, 3, 4, 5]) :
    sregDefined sreg = true ∧ ∃ n, SegName.ofNum sreg = some n := by
  have key : ∀ r : BitVec 3, r.toNat ∈ [0, 2, 3, 4, 5] → sregDefined r = true ∧ (SegName.ofNum r).isSome = true := by
    decide
  obtain ⟨hdef, hsome⟩ := key sreg h
  exact ⟨hdef, Option.isSome_iff_exists.1 hsome⟩

theorem State.loadSegEffect_named {s : State} {sreg : BitVec 3} {rm : RmArg} {pre : List Pfx} {len : Nat} {v : Dword}
    (h : sreg.toNat ∈ [0, 2, 3, 4, 5]) (hv : s.readRm .word rm pre = .ok v) :
    ∃ o, s.loadSegEffect sreg rm pre len = s.selectorLoad (.ok o) := by
  obtain ⟨hdef, n, hn⟩ := sreg_named h
  simp only [State.loadSegEffect, hdef, hn, hv]
  exact ⟨_, rfl⟩

theorem State.loadSelectorEffect_read {s : State} {src : SelectorSource} {v : Dword} (hr : s.base.realMode = false)
    (hv : s.readSelector src = .ok v) : s.loadSelectorEffect src = s.selectorLoad (.ok (regsOnly s.base)) := by
  simp only [State.loadSelectorEffect, hr, hv, Bool.false_eq_true, if_false]
  rfl

theorem State.retFarEffect_popped {s : State} {w : Width} {extra : Word16} {off sel : Dword}
    (hoff : s.popValue 0 w.bytes = .ok off) (hsel : s.popValue w.bytes w.bytes = .ok sel) :
    s.retFarEffect w extra = s.selectorLoad
      (.ok (jumping ((s.base.popped (2 * w.bytes + extra.toNat)).loadCs (sel.setWidth 16)) w off [])) := by
  simp only [State.retFarEffect, hoff, hsel]

/-- A selector load whose operands are read, in protected mode with no GDT, shuts the core down and changes nothing
else. -/
theorem State.execBase_shutDown {s : State} {i : BaseInstr} {len : Nat} {o : BaseOutcome}
    (hp : s.base.protectedMode = true) (hn : s.noGdt = true)
    (hi : s.execBase i len = finish s (s.baseStep (s.baseEffect i len)))
    (he : s.baseEffect i len = s.selectorLoad (.ok o)) :
    ∃ t, s.execBase i len = .next t ∧ s.onlyBase t s.base.shutDown :=
  State.execBase_onlyBase hi (he.trans (State.selectorLoad_shutDown hp hn o)) rfl rfl rfl rfl

/-! ### Returns (R238, R239) -/

/-- Taking bytes off the stack changes no general register but ESP. -/
theorem BaseRegs.popped_get (b : BaseRegs) (k : Nat) {r : GReg} (h : r ≠ .esp) :
    (b.popped k).gpr.get r = b.gpr.get r := by
  simp only [BaseRegs.popped, Gpr.get_set, if_neg h]

theorem State.selectorLoad_real {s : State} (h : s.base.realMode = true) (o : Except Stop BaseOutcome) :
    s.selectorLoad o = o := by
  simp [State.selectorLoad, h]

/-- The registers `r` that a far return from `b` in real mode leaves, flags apart: EIP, CS with 16 times the selector as
its base, its limit and rights as before, and of the other registers only ESP changed (R239). -/
structure BaseRegs.FarReturned (b r : BaseRegs) (off sel : Dword) : Prop where
  eip : r.eip = off
  csSel : r.seg.cs.sel = sel.setWidth 16
  csBase : r.seg.cs.base.toNat = 16 * (sel.toNat % 2 ^ 16)
  csLimit : r.seg.cs.limit = b.seg.cs.limit
  csRights : r.seg.cs.rights = b.seg.cs.rights
  ss : r.seg.ss = b.seg.ss
  gpr : ∀ g, g ≠ .esp → r.gpr.get g = b.gpr.get g

theorem BaseRegs.farReturned {b r : BaseRegs} {off sel : Dword} {k : Nat} (heip : r.eip = off)
    (hseg : r.seg = ((b.popped k).loadCs (sel.setWidth 16)).seg) (hgpr : r.gpr = (b.popped k).gpr) :
    b.FarReturned r off sel := by
  obtain ⟨hlimit, hrights, -⟩ := b.seg.cs.loadReal_keeps (sel.setWidth 16)
  refine ⟨heip, by rw [hseg]; rfl, ?_, by rw [hseg]; exact hlimit, by rw [hseg]; exact hrights, by rw [hseg]; rfl,
    fun g hg => by rw [hgpr]; exact b.popped_get k hg⟩
  rw [hseg, ← BitVec.toNat_setWidth]
  exact b.seg.cs.loadReal_base _

theorem State.iretEffect_popped {s : State} {w : Width} {off sel fl : Dword} (hreal : s.base.realMode = true)
    (hoff : s.popValue 0 w.bytes = .ok off) (hsel : s.popValue w.bytes w.bytes = .ok sel)
    (hfl : s.popValue (2 * w.bytes) w.bytes = .ok fl) :
    s.iretEffect w = .ok (jumping
      { (s.base.popped (3 * w.bytes)).loadCs (sel.setWidth 16) with
        eflags := flagsPopped w s.base.eflags fl } w off []) := by
  simp only [State.iretEffect, State.selectorLoad_real hreal, hoff, hsel, hfl]
  rfl

/-- IF is the popped one, whatever the width (log entry 50). -/
theorem flagsPopped_if (w : Width) (old v : Dword) : (flagsPopped w old v).getLsbD flagIf = v.getLsbD flagIf := by
  cases w <;> simp [flagsPopped, flagIf]

/-- The guard of EFLAGS.ID leaves IF (R58). -/
theorem keepId_if (c : CfgRegs) (old new : Dword) : (keepId c old new).getLsbD flagIf = new.getLsbD flagIf := by
  unfold keepId
  split
  · rfl
  · rw [getLsbD_setBit, if_neg (by decide)]

/-! ### The FPU's image (R31, R234) -/

theorem BaseRegs.fpuForm_full_iff (b : BaseRegs) (w : Width) :
    (b.fpuForm w).full = true ↔ b.realMode = false ∧ b.v86Mode = false ∧ w = .dword := by
  simp [BaseRegs.fpuForm, FpuForm.full, BaseRegs.protectedMode, and_assoc]

/-- A byte of the full image that the FPU lists: its own but for the pending bit. -/
theorem Fpu.fullByte_listed {f : Fpu} {form : FpuForm} {k : Nat} {x : Byte} (h : f.image[k]? = some x) :
    f.fullByte form k = if k = form.pendingPlace.1 then setBit x form.pendingPlace.2 f.pendingUnmasked else x := by
  simp only [Fpu.fullByte, List.getD_eq_getElem?_getD, h, Option.getD_some]

theorem Fpu.fullByte_eq_self {f : Fpu} {form : FpuForm} {k : Nat} {x : Byte} (h : f.image[k]? = some x)
    (hx : k = form.pendingPlace.1 → x.getLsbD form.pendingPlace.2 = f.pendingUnmasked) : f.fullByte form k = x := by
  rw [Fpu.fullByte_listed h]
  split
  · rw [← hx ‹_›, setBit_self]
  · rfl

/-- Every other bit of a listed byte is the image's. -/
theorem Fpu.fullByte_getLsbD {f : Fpu} {form : FpuForm} {k b : Nat} {x : Byte} (h : f.image[k]? = some x)
    (hb : (k, b) ≠ form.pendingPlace) : (f.fullByte form k).getLsbD b = x.getLsbD b := by
  rw [Fpu.fullByte_listed h]
  split
  · rw [getLsbD_setBit, if_neg]
    rintro ⟨rfl, -⟩
    exact hb (Prod.ext ‹_› rfl)
  · rfl

/-- The saved image says whether an exception is pending. -/
theorem Fpu.saved_pending (f : Fpu) {form : FpuForm} (hf : form.full = true) :
    ((f.saved form).getD form.pendingPlace.1 0).getLsbD form.pendingPlace.2 = f.pendingUnmasked := by
  obtain ⟨hbyte, hbit⟩ := form.pendingPlace_lt
  rw [List.getD_eq_getElem?_getD, f.saved_getElem? hf hbyte, Option.getD_some, Fpu.fullByte, if_pos rfl,
    getLsbD_setBit, if_pos ⟨rfl, hbit⟩]

/-- Bytes restored in the full form are saved as they were. -/
theorem Fpu.saved_restored (g : Fpu) {form : FpuForm} (hf : form.full = true) {bs : List Byte}
    (hl : bs.length = form.imageSize) : (g.restored form bs).saved form = bs := by
  apply List.ext_getElem (by simp [hl])
  intro k hk hb
  have himage : (g.restored form bs).image[k]? = some bs[k] := by
    rw [Fpu.restored_full g hf, List.getElem?_eq_getElem hb]
  have hsaved := (g.restored form bs).saved_getElem? hf (k := k) (by omega)
  rw [Fpu.fullByte_eq_self himage fun hp => ?_, List.getElem?_eq_getElem hk] at hsaved
  · exact Option.some.inj hsaved
  · subst hp
    rw [Fpu.restored_full g hf, List.getD_eq_getElem _ _ hb]

theorem BaseRegs.withFpu_eq {b : BaseRegs} (hem : b.cr0.getLsbD 2 = false) (hts : b.cr0.getLsbD 3 = false)
    (o : Except Stop BaseOutcome) : b.withFpu o = o := by
  rw [BaseRegs.withFpu, cr0Em, cr0Ts, hem, hts]; rfl

/-! ### The statements -/

/-- Settles O48: HLT by its outcome; each selector load reads its operands, then shuts down. -/
theorem haltAndShutdown : Obligations.HaltAndShutdown := by
  refine ⟨fun s len hcpl => ?_, fun s h => by simp [State.noGdt, h], fun s i len hpe hvm hn h => ?_⟩
  · obtain ⟨t, ht, hb, hsmhr, hctl, hmem⟩ :=
      State.execBase_onlyBase (i := .hlt) (len := len) rfl (BaseRegs.atCpl0_eq hcpl _) rfl rfl rfl rfl
    exact ⟨t, ht, by rw [hb]; rfl, by rw [hb]; rfl, by rw [hb]; rfl, by rw [hb]; rfl, hsmhr, hctl, hmem⟩
  · have hp := BaseRegs.protectedMode_of hpe hvm
    rcases h with ⟨sreg, rm, pre, v, hs, rfl, hv⟩ | ⟨w, sel, off, rfl⟩ | ⟨w, extra, off, sel, rfl, hoff, hsel⟩ |
      ⟨src, v, rfl, hv⟩
    · obtain ⟨o, ho⟩ := State.loadSegEffect_named (len := len) hs hv
      exact State.execBase_shutDown hp hn rfl ho
    · exact State.execBase_shutDown hp hn rfl rfl
    · exact State.execBase_shutDown hp hn rfl (State.retFarEffect_popped hoff hsel)
    · exact State.execBase_shutDown hp hn rfl (State.loadSelectorEffect_read (BaseRegs.realMode_eq_false hpe) hv)

/-- Settles O49: each return is a jump with the registers popped, the far ones with CS loaded as well. -/
theorem returnsReloadCs : Obligations.ReturnsReloadCs := by
  intro s w extra len off sel fl hoff
  refine ⟨?_, fun hreal hsel => ⟨?_, fun hfl => ?_⟩⟩
  · have he : s.baseEffect (.retNear w extra) len =
        .ok (jumping (s.base.popped (w.bytes + extra.toNat)) w off []) := by
      simp only [State.baseEffect, State.retNearEffect, hoff]
    obtain ⟨t, ht, hb, hsmhr, hctl, hmem⟩ := State.execBase_onlyBase rfl he rfl rfl rfl rfl
    have hgpr : ∀ r, r ≠ .esp → t.base.gpr.get r = s.base.gpr.get r := fun r hr => by
      rw [hb]; exact s.base.popped_get _ hr
    exact ⟨t, ht, by rw [hb]; rfl, by rw [hb]; rfl, hgpr, hctl, hsmhr, hmem⟩
  · have he := (State.retFarEffect_popped (extra := extra) hoff hsel).trans (State.selectorLoad_real hreal _)
    obtain ⟨t, ht, hb, hsmhr, hctl, hmem⟩ :=
      State.execBase_onlyBase (i := .retFar w extra) (len := len) rfl he rfl rfl rfl rfl
    obtain ⟨heip, hcs, hbase, hlimit, hrights, hss, hgpr⟩ : s.base.FarReturned t.base (w.trunc off) sel :=
      BaseRegs.farReturned (by rw [hb]; rfl) (by rw [hb]; rfl) (by rw [hb]; rfl)
    exact ⟨t, ht, heip, hcs, hbase, hlimit, hrights, hss, hgpr, hctl, hsmhr, hmem⟩
  · obtain ⟨t, ht, hb, hsmhr, hctl, hmem⟩ := State.execBase_guarded (i := .iret w) (len := len) rfl
      (State.iretEffect_popped hreal hoff hsel hfl) rfl rfl
    obtain ⟨heip, hcs, hbase, hlimit, hrights, hss, hgpr⟩ : s.base.FarReturned t.base (w.trunc off) sel :=
      BaseRegs.farReturned (by rw [hb]; rfl) (by rw [hb]; rfl) (by rw [hb]; rfl)
    have hif : t.base.eflags.getLsbD flagIf = fl.getLsbD flagIf := by
      rw [hb]
      exact (keepId_if _ _ _).trans (flagsPopped_if w s.base.eflags fl)
    have hsmm : t.inSmm = s.inSmm := by
      obtain ⟨-, -, hsmm, -⟩ := hctl
      exact hsmm
    exact ⟨t, ht, heip, hcs, hbase, hlimit, hrights, hss, hgpr, hif, hsmm, hctl, hsmhr, hmem⟩

/-- Settles O50: the image byte by byte, then FNINIT and WAIT by their outcomes. -/
theorem fpuStateKept : Obligations.FpuStateKept := by
  refine ⟨BaseRegs.fpuForm_full_iff, fun f g form hf => ?_, fun s len hem hts => ?_⟩
  · have hr := Fpu.restored_full g hf (f.saved form)
    refine ⟨?_, fun k x hk hx hp => ?_, fun k b x hk hx hb => ?_, fun bs hl => Fpu.saved_restored g hf hl⟩
    · rw [hr]; exact f.saved_pending hf
    · rw [hr, f.saved_getElem? hf hk, Fpu.fullByte_eq_self hx hp]
    · exact ⟨_, by rw [hr]; exact f.saved_getElem? hf hk, Fpu.fullByte_getLsbD hx hb⟩
  · refine ⟨?_, fun hpend => ?_, fun hpend => ?_⟩
    · obtain ⟨t, ht, hb, hsmhr, hctl, hmem⟩ :=
        State.execBase_onlyBase (i := .fnInit) (len := len) rfl (BaseRegs.withFpu_eq hem hts _) rfl rfl rfl rfl
      exact ⟨t, _, ht, rfl, hb, hctl, hsmhr, hmem⟩
    · have he : s.baseEffect .wait len = .error (.event .fpuException) := by
        simp only [State.baseEffect, State.waitEffect, BaseRegs.withFpu_eq hem hts, hpend, if_true]
      simp only [State.execBase, he, State.baseStep, finish]
    · have he : s.baseEffect .wait len = .ok (regsOnly (s.base.past len)) := by
        simp only [State.baseEffect, State.waitEffect, BaseRegs.withFpu_eq hem hts, hpend, Bool.false_eq_true, if_false]
      obtain ⟨t, ht, hb, hsmhr, hctl, hmem⟩ := State.execBase_onlyBase rfl he rfl rfl rfl rfl
      exact ⟨t, ht, hb, hctl, hsmhr, hmem⟩

end Sys2Proof.Machine
end

section
/-!
Routing, and the cells of a mem80 (settles O36, O8): which memory an address reaches, and that ten consecutive offsets of
an operand, its wrap-around included, are ten cells.
-/
namespace Sys2Proof.Machine

/-! ### Routing (R104, R106) -/

/-- R66: an address of the region says that there is a region. -/
theorem CfgRegs.smarOn_of_inSmar {c : CfgRegs} {pa : Dword} (h : c.inSmar pa = true) : c.smarOn = true := by
  obtain ⟨hon, -⟩ := (c.inSmar_iff pa).1 h
  exact hon

theorem State.smmReachable_iff (s : State) :
    s.smmReachable = true ↔ s.cfg.useSmi = true ∧ (s.inSmm = true ∨ s.cfg.smac = true) := by
  simp [State.smmReachable]

/-- R104 for an aligned region (U5), in one equation. -/
theorem State.locate_aligned {s : State} (h : s.cfg.smarOn = true → s.cfg.smarAligned = true) (pa : Dword) :
    s.locate pa = .ok (if s.smmReachable = true ∧ s.cfg.inSmar (s.regionTestAddr pa) = true then ⟨.smm, pa⟩
      else ⟨.normal, s.maskedAddr pa⟩) := by
  unfold State.locate
  cases hr : s.smmReachable
  · simp
  · cases hon : s.cfg.smarOn
    · have hin : s.cfg.inSmar (s.regionTestAddr pa) = false :=
        Bool.eq_false_iff.2 fun hi => by simp [CfgRegs.smarOn_of_inSmar hi] at hon
      simp [hin]
    · cases hi : s.cfg.inSmar (s.regionTestAddr pa) <;> simp [h hon]

/-- R106: while A20M# is not asserted an address is compared and used as it is. -/
theorem State.unmasked {s : State} (h : s.a20m = false) (pa : Dword) :
    s.regionTestAddr pa = pa ∧ s.maskedAddr pa = pa := by
  simp [State.regionTestAddr, State.maskedAddr, h]

/-- D20: two bytes that route to different memories make no access. -/
theorem State.locateAccess_pair_straddles {s : State} {pa pb : Dword} {l k : Loc} (hl : s.locate pa = .ok l)
    (hk : s.locate pb = .ok k) (hne : l.store ≠ k.store) : s.locateAccess [pa, pb] = .error .regionStraddle := by
  simp [State.locateAccess, State.locateEach, sameStore, hl, hk, hne.symm]

/-- Settles O36: the routing of an aligned region is one equation, whose condition is that of R104. -/
theorem routing : Obligations.Routing := by
  intro s halign
  refine ⟨fun pa ⟨huse, hin, hsmm⟩ => ?_, fun pa hnot => ?_, fun ha => State.unmasked ha, fun pa pb l k hl hk hne =>
    State.locateAccess_pair_straddles hl hk hne⟩
  · rw [State.locate_aligned halign, if_pos ⟨s.smmReachable_iff.2 ⟨huse, hsmm⟩, hin⟩]
  · rw [State.locate_aligned halign, if_neg]
    rintro ⟨hr, hin⟩
    obtain ⟨huse, hsmm⟩ := s.smmReachable_iff.1 hr
    exact hnot ⟨huse, hin, hsmm⟩

/-! ### The ten cells of a mem80 (R171, D21) -/

/-- D21: an operand's offsets wrap around at 2^16 at the earliest, so shorter runs of them do not repeat. -/
theorem MemArg.offset_inj (g : Gpr) (m : MemArg) {i j : Nat} (hi : i < 2 ^ 16) (hj : j < 2 ^ 16)
    (h : m.offset g i = m.offset g j) : i = j := by
  have hn := congrArg BitVec.toNat h
  cases m with
  | a16 a =>
    simp only [MemArg.offset, BitVec.toNat_setWidth, BitVec.toNat_add, BitVec.toNat_ofNat] at hn
    omega
  | a32 a =>
    simp only [MemArg.offset, BitVec.toNat_add, BitVec.toNat_ofNat] at hn
    omega

/-- Settles O8: the cells lie at the segment's base plus ten offsets, no two of which are the same. -/
theorem mem80CellsDistinct : Obligations.Mem80CellsDistinct := by
  intro s pre m cells _ hp ha h
  refine ⟨List.Nodup.of_map Loc.addr ?_, State.operandCells_length h⟩
  rw [State.operandAccess_addrs hp ha (.inl h)]
  refine (List.nodup_map_iff_inj_on List.nodup_range).2 fun i hi j hj he => ?_
  have hi := List.mem_range.1 hi
  have hj := List.mem_range.1 hj
  exact MemArg.offset_inj s.base.gpr m (by omega) (by omega) (add_left_cancel he)

end Sys2Proof.Machine
end

section
/-!
What one step does to the two memories (settles O41, O55): it writes cells that routing gives, seen from a state with the
memories it began with; so it keeps their canonical form, and where SMM memory cannot be reached it keeps that.
-/
namespace Sys2Proof.Machine

/-! ### Writes of routed cells -/

/-- The memories of `t` are those of `s` with cells written that `s` routes accesses to. -/
def State.WroteRouted (s t : State) : Prop :=
  ∃ xs, s.routed xs ∧ t.normal = (s.writeLocs xs).normal ∧ t.smm = (s.writeLocs xs).smm

theorem State.WroteRouted.of_same {s t : State} (hn : t.normal = s.normal) (hs : t.smm = s.smm) : s.WroteRouted t :=
  ⟨[], by simp [State.routed], hn, hs⟩

/-- What a write of cells leaves in the memories is decided by the memories before it. -/
theorem State.writeLocs_memories_congr (xs : List (Loc × Byte)) {s t : State} (hn : t.normal = s.normal)
    (hs : t.smm = s.smm) : (t.writeLocs xs).normal = (s.writeLocs xs).normal ∧ (t.writeLocs xs).smm = (s.writeLocs xs).smm := by
  induction xs generalizing s t with
  | nil => exact ⟨hn, hs⟩
  | cons x xs ih =>
    simp only [State.writeLocs_cons]
    apply ih <;> cases hl : x.1.store <;> simp [State.writeLoc, hl, hn, hs]

/-- Canonical form is kept (R100). -/
theorem State.WroteRouted.memoriesWf {s t : State} (h : s.WroteRouted t) (hs : s.memoriesWf) : t.memoriesWf := by
  obtain ⟨xs, -, hn, hm⟩ := h
  obtain ⟨hwn, hwm⟩ := State.memoriesWf_writeLocs hs xs
  exact ⟨hn ▸ hwn, hm ▸ hwm⟩

/-- Where no access reaches SMM memory it is left alone (R104). -/
theorem State.WroteRouted.smm_unreachable {s t : State} (h : s.WroteRouted t) (hr : s.smmReachable = false) :
    t.smm = s.smm := by
  obtain ⟨xs, hx, -, hm⟩ := h
  rw [hm, State.writeLocs_smm_of_normal xs s (State.routed_normal hr hx)]

/-! ### What each effect writes -/

theorem State.applyBase_wroteRouted {s t : State} {o : BaseOutcome} (h : s.applyBase o = .ok t) : s.WroteRouted t := by
  obtain ⟨xs, st, hx, rfl⟩ := State.applyBase_ok h
  exact ⟨xs, hx, rfl, rfl⟩

theorem LocalEffect.wroteRouted {s t : State} (h : LocalEffect s t) : s.WroteRouted t := by
  obtain ⟨xs, b, hx, rfl, -⟩ := h
  exact ⟨xs, hx, rfl, rfl⟩

/-- The cells of an I/O instruction are routed before its port access, which leaves the memories alone. -/
theorem IoEffect.wroteRouted {s t : State} (h : IoEffect s t) : s.WroteRouted t := by
  obtain ⟨u, xs, b, io, hp, hx, rfl, -⟩ := h
  obtain ⟨hn, hm⟩ := State.writeLocs_memories_congr xs hp.normal hp.smm
  exact ⟨xs, hx, hn, hm⟩

/-- An entry writes its header as an access from inside SMM (R270). -/
theorem State.enterSmm_wroteRouted {s t : State} {a : EntryArgs} (h : s.enterSmm a = .ok t) :
    s.entering.WroteRouted t ∧ t.inSmm = true := by
  obtain ⟨xs, hx, rfl⟩ := State.enterSmm_ok h
  exact ⟨⟨xs, hx, rfl, rfl⟩, by simp⟩

theorem Effect.wroteRouted {s t : State} (h : Effect s t) :
    s.WroteRouted t ∨ (s.entering.WroteRouted t ∧ t.inSmm = true) := by
  cases h with
  | wait n h => exact .inl (.of_same (by rw [h]) (by rw [h]))
  | base o h => exact .inl (State.applyBase_wroteRouted h)
  | enter a h => exact .inr (State.enterSmm_wroteRouted h)
  | resume h => obtain ⟨-, hd, -, rfl⟩ := State.resumeFromSmm_ok h; exact .inl (.of_same rfl rfl)
  | wrshr v len h => exact .inl (.of_same (by rw [h]; rfl) (by rw [h]; rfl))
  | loc h => exact .inl h.wroteRouted
  | io h => exact .inl h.wroteRouted

/-! ### What a step writes -/

/-- `r` has the memories of `s`, and reaches of them what `s` does. -/
structure State.SameReach (s r : State) : Prop where
  normal : r.normal = s.normal
  smm : r.smm = s.smm
  reach : r.smmReachable = s.smmReachable

theorem State.settled_sameReach (s : State) : s.SameReach s.settled := ⟨rfl, rfl, rfl⟩

theorem State.afterFetch_sameReach (s : State) : s.SameReach s.settled.afterFetch :=
  ⟨by simp, by simp, by simp [State.smmReachable]⟩

theorem State.SameReach.advance {s r : State} (h : s.SameReach r) (len : Nat) : s.SameReach (r.advance len) :=
  ⟨h.normal, h.smm, h.reach⟩

theorem State.SameReach.writes {s r u : State} (h : s.SameReach r) (he : Effect r u) (d : Bool) :
    ∃ q : State, q.normal = s.normal ∧ q.smm = s.smm ∧ q.WroteRouted { u with debugTrap := d } ∧
      (u.inSmm = false → q.smmReachable = s.smmReachable) := by
  rcases he.wroteRouted with hw | ⟨hw, hi⟩
  · exact ⟨r, h.normal, h.smm, hw, fun _ => h.reach⟩
  · exact ⟨r.entering, h.normal, h.smm, hw, fun hu => by simp [hi] at hu⟩

/-- What a step does to the memories: routed cells are written, routing being that of the state the step began in unless
the step enters SMM. -/
theorem step_writes {s t : State} (h : step s = .next t) :
    ∃ q : State, q.normal = s.normal ∧ q.smm = s.smm ∧ q.WroteRouted t ∧
      (t.inSmm = false → q.smmReachable = s.smmReachable) := by
  replace h := step_next h
  rcases h with ⟨-, rfl⟩ | ⟨-, -, rfl⟩ | ⟨-, -, -, h⟩ | ⟨-, -, -, h⟩
  · exact ⟨s, rfl, rfl, .of_same rfl rfl, fun _ => rfl⟩
  · exact ⟨s, rfl, rfl, .of_same rfl rfl, fun _ => rfl⟩
  · exact s.settled_sameReach.writes (.enter _ h) t.debugTrap
  · rcases h with ⟨n, h⟩ | ⟨o, h⟩ | ⟨u, d, -, rfl, h⟩
    · exact s.settled_sameReach.writes (.wait n h) t.debugTrap
    · exact s.settled_sameReach.writes (.base o h) t.debugTrap
    · rcases h with ⟨i, -, h⟩ | h | ⟨o, h⟩ | ⟨o, len, h⟩
      · exact s.afterFetch_sameReach.writes (.of_exec h) d
      · exact s.afterFetch_sameReach.writes (.io h) d
      · exact s.afterFetch_sameReach.writes (.base o h) d
      · exact (s.afterFetch_sameReach.advance len).writes (.base o h) d

/-! ### The statements -/

/-- In normal mode with SMAC = 0 no access reaches SMM memory (R104, R305). -/
theorem State.smmReachable_normalMode {s : State} (hi : s.inSmm = false) (hs : s.cfg.smac = false) :
    s.smmReachable = false := by
  simp [State.smmReachable, hi, hs]

/-- Settles O41: a step's writes keep the canonical form. -/
theorem stepKeepsMemoriesWf : Obligations.StepKeepsMemoriesWf := by
  intro s t ⟨hnormal, hsmm⟩ h
  obtain ⟨q, hn, hm, hw, -⟩ := step_writes h
  exact hw.memoriesWf ⟨hn ▸ hnormal, hm ▸ hsmm⟩

/-- Settles O55: a step that stays in normal mode routes its writes as normal mode does. -/
theorem normalModeKeepsSmmMemory : Obligations.NormalModeKeepsSmmMemory := by
  intro s t hi hs h ht
  obtain ⟨q, -, hm, hw, hreach⟩ := step_writes h
  have hq : q.smmReachable = false := (hreach ht).trans (State.smmReachable_normalMode hi hs)
  exact (hw.smm_unreachable hq).trans hm

end Sys2Proof.Machine
end

section
/-!
Other contents of SMM memory, where no access reaches it (R104, R305): every read gives the same, and every write,
delivery of an event and port access leaves the same but for those contents.
-/
namespace Sys2Proof.Machine

/-- The state with other contents of SMM memory. -/
def State.withSmm (m : Memory) (s : State) : State := { s with smm := m }

section Fields
variable (m : Memory) (s : State)

@[simp] theorem State.withSmm_base : (s.withSmm m).base = s.base := rfl
@[simp] theorem State.withSmm_cfg : (s.withSmm m).cfg = s.cfg := rfl
@[simp] theorem State.withSmm_cfgIndex : (s.withSmm m).cfgIndex = s.cfgIndex := rfl
@[simp] theorem State.withSmm_normal : (s.withSmm m).normal = s.normal := rfl
@[simp] theorem State.withSmm_inputs : (s.withSmm m).inputs = s.inputs := rfl
@[simp] theorem State.withSmm_staleCode : (s.withSmm m).staleCode = s.staleCode := rfl
@[simp] theorem State.withSmm_draws : (s.withSmm m).draws = s.draws := rfl

/-! ### What does not look at the memories -/

@[simp] theorem State.withSmm_locate : (s.withSmm m).locate = s.locate := State.locate_congr rfl rfl rfl

@[simp] theorem State.withSmm_locateAccess : (s.withSmm m).locateAccess = s.locateAccess :=
  State.locateAccess_congr (s.withSmm_locate m)

@[simp] theorem State.withSmm_writableLocs : (s.withSmm m).writableLocs = s.writableLocs :=
  State.writableLocs_congr (s.withSmm_locate m) (State.checkWrite_congr rfl rfl rfl)

@[simp] theorem State.withSmm_checkReads (rs : List (List Dword)) : (s.withSmm m).checkReads rs = s.checkReads rs := by
  induction rs with
  | nil => rfl
  | cons pas rs ih => simp only [State.checkReads, State.withSmm_locateAccess, ih]

@[simp] theorem State.withSmm_advance (len : Nat) : (s.withSmm m).advance len = (s.advance len).withSmm m := rfl

end Fields

/-! ### Reads -/

theorem State.withSmm_readLoc (m : Memory) (s : State) {l : Loc} (hl : l.store = .normal) :
    (s.withSmm m).readLoc l = s.readLoc l := by
  simp [State.readLoc, hl]

section Reads
variable {s : State} (h : s.smmReachable = false) (m : Memory)
include h

theorem State.locate_normal {pa : Dword} {l : Loc} (hl : s.locate pa = .ok l) : l.store = .normal := by
  rw [State.locate_unreachable h] at hl
  injection hl with hl
  rw [← hl]

theorem State.locateAccess_normal {pas : List Dword} {ls : List Loc} (hl : s.locateAccess pas = .ok ls) :
    ∀ l ∈ ls, l.store = .normal := by
  have hf := State.locateAccess_ok hl
  clear hl
  induction hf with
  | nil => simp
  | cons hl _ ih => exact List.forall_mem_cons.2 ⟨State.locate_normal h hl, ih⟩

@[simp] theorem State.withSmm_readAccess (pas : List Dword) : (s.withSmm m).readAccess pas = s.readAccess pas := by
  simp only [State.readAccess, State.withSmm_locateAccess]
  cases hl : s.locateAccess pas with
  | error r => rfl
  | ok ls =>
    exact congrArg Except.ok (List.map_congr_left fun l hm =>
      State.withSmm_readLoc m s (State.locateAccess_normal h hl l hm))

@[simp] theorem State.withSmm_baseView : (s.withSmm m).baseView = s.baseView := State.baseView_unreachable h m

@[simp] theorem State.withSmm_translate (k : AccessKind) (lin : Dword) :
    (s.withSmm m).translate k lin = s.translate k lin := by
  simp [State.translate, h]

@[simp] theorem State.withSmm_translateEach (k : AccessKind) (lins : List Dword) :
    (s.withSmm m).translateEach k lins = s.translateEach k lins := by
  have key : ∀ (left : Nat) (lin' pa' : Dword),
      (s.withSmm m).translateFrom k left lin' pa' lins = s.translateFrom k left lin' pa' lins := by
    induction lins with
    | nil => intros; rfl
    | cons lin lins ih => intros; simp only [State.translateFrom, State.withSmm_translate h, ih]
  exact key 0 0 0

@[simp] theorem State.withSmm_segPermits (r : SegReg) (k : AccessKind) (offs : List Dword) :
    (s.withSmm m).segPermits r k offs = s.segPermits r k offs := by
  simp [State.segPermits, h]

@[simp] theorem State.withSmm_segAddrs (r : SegReg) (k : AccessKind) (offs : List Dword) :
    (s.withSmm m).segAddrs r k offs = s.segAddrs r k offs := by
  simp [State.segAddrs, h]

@[simp] theorem State.withSmm_segRead (r : SegReg) (offs : List Dword) :
    (s.withSmm m).segRead r offs = s.segRead r offs := by
  simp [State.segRead, h]

@[simp] theorem State.withSmm_segWriteLocs (r : SegReg) (offs : List Dword) :
    (s.withSmm m).segWriteLocs r offs = s.segWriteLocs r offs := by
  simp [State.segWriteLocs, h]

end Reads

/-! ### Writes -/

/-- Cells of normal memory are written whatever SMM memory holds. -/
theorem State.withSmm_writeLocs (m : Memory) (s : State) {xs : List (Loc × Byte)} (hx : ∀ x ∈ xs, x.1.store = .normal) :
    (s.withSmm m).writeLocs xs = (s.writeLocs xs).withSmm m := by
  induction xs generalizing s with
  | nil => rfl
  | cons x xs ih =>
    obtain ⟨hl, hxs⟩ := List.forall_mem_cons.1 hx
    have hw : (s.withSmm m).writeLoc x.1 x.2 = (s.writeLoc x.1 x.2).withSmm m := by
      simp only [State.writeLoc, hl, State.withSmm_readLoc m s hl]; rfl
    rw [State.writeLocs_cons, hw, ih _ hxs, State.writeLocs_cons]

section Writes
variable {s : State} (h : s.smmReachable = false) (m : Memory)
include h

theorem State.withSmm_writeAccess (acc : List (Dword × Byte)) :
    (s.withSmm m).writeAccess acc = (s.writeAccess acc).map (State.withSmm m) := by
  simp only [State.writeAccess, State.withSmm_writableLocs]
  cases hw : s.writableLocs (acc.map Prod.fst) with
  | error r => rfl
  | ok ls => exact congrArg Except.ok (State.withSmm_writeLocs m s (State.routed_normal h (State.routed_zip hw _)))

theorem State.withSmm_writeAccesses (as : List (List (Dword × Byte))) :
    (s.withSmm m).writeAccesses as = (s.writeAccesses as).map (State.withSmm m) := by
  induction as generalizing s with
  | nil => rfl
  | cons a as ih =>
    simp only [State.writeAccesses, State.withSmm_writeAccess h]
    cases ht : s.writeAccess a with
    | error r => rfl
    | ok t =>
      obtain ⟨xs, rfl, -⟩ := State.writeAccess_ok ht
      exact ih (by simpa [State.smmReachable] using h)

/-! ### Outcomes of `Base` and the delivery of an event -/

theorem State.withSmm_applyBase (o : BaseOutcome) :
    (s.withSmm m).applyBase o = (s.applyBase o).map (State.withSmm m) := by
  simp only [State.applyBase, State.withSmm_checkReads, State.withSmm_writeAccesses h]
  cases s.checkReads o.reads with
  | error r => rfl
  | ok _ => cases s.writeAccesses o.writes <;> rfl

theorem State.withSmm_realDelivery (v : Byte) : (s.withSmm m).realDelivery v = s.realDelivery v := by
  simp [State.realDelivery, State.pushAddrs, h]

theorem State.withSmm_deliver (e : BaseEvent) :
    (s.withSmm m).deliver e = (s.deliver e).map (State.withSmm m) := by
  have hb : (s.withSmm m).baseDelivery e = s.baseDelivery e := by simp [State.baseDelivery, h]
  simp only [State.deliver, State.withSmm_base, State.withSmm_realDelivery h, hb, State.withSmm_applyBase h]
  split
  · split <;> rfl
  · rfl

end Writes

/-! ### Answers of a step -/

/-- What a step answers, with other contents of SMM memory in the next state. -/
def outWithSmm (m : Memory) : Out → Out
  | .next t => .next (t.withSmm m)
  | .fault f => .fault f
  | .refused r => .refused r

theorem outcome_withSmm (m : Memory) (x : Except Refusal State) :
    outcome (x.map (State.withSmm m)) = outWithSmm m (outcome x) := by
  cases x <;> rfl

theorem liftRefusal_withSmm (m : Memory) (x : Except Refusal State) :
    liftRefusal (x.map (State.withSmm m)) = (liftRefusal x).map (State.withSmm m) := by
  cases x <;> rfl

section Answers
variable {s : State} (h : s.smmReachable = false) (m : Memory)
include h

theorem State.withSmm_runBase : (s.withSmm m).runBase = s.runBase.map (State.withSmm m) := by
  rw [State.runBase, State.withSmm_baseView h, State.withSmm_applyBase h, State.runBase]

/-- The delivery of an event as the answer of a step. -/
theorem State.withSmm_outcome_deliver (e : BaseEvent) :
    outcome ((s.withSmm m).deliver e) = outWithSmm m (outcome (s.deliver e)) := by
  rw [State.withSmm_deliver h, outcome_withSmm]

theorem finish_withSmm (x : Except Stop State) :
    finish (s.withSmm m) (x.map (State.withSmm m)) = outWithSmm m (finish s x) := by
  match x with
  | .ok t => rfl
  | .error (.event e) => exact State.withSmm_outcome_deliver h m e
  | .error (.refuse r) => rfl
  | .error .leftToBase => exact (congrArg outcome (State.withSmm_runBase h m)).trans (outcome_withSmm m _)

end Answers

/-! ### Ports (R221 to R227) -/

section Ports
variable (m : Memory) (s : State)

theorem State.withSmm_cfgWrite (idx v : Byte) :
    (s.withSmm m).cfgWrite idx v = (s.cfgWrite idx v).map (State.withSmm m) := by
  have arr : ∀ c, (s.withSmm m).arr3Written c = (s.arr3Written c).withSmm m := by
    intro c
    rw [State.arr3Written, State.arr3Written, apply_ite (State.withSmm m)]
    rfl
  unfold State.cfgWrite
  simp only [arr]
  split
  -- CCR6: the one arm that may refuse.
  case h_10 => rw [apply_ite (Except.map (State.withSmm m))]; rfl
  all_goals rfl

theorem State.withSmm_ioWrite (p : Word16) (w : Width) (v : Dword) :
    (s.withSmm m).ioWrite p w v = (s.ioWrite p w v).map (State.withSmm m) := by
  have data : (s.withSmm m).dataPortWrite v = (s.dataPortWrite v).map (State.withSmm m) := by
    simp only [State.dataPortWrite, State.withSmm_cfgIndex, State.withSmm_cfg, State.withSmm_cfgWrite]
    cases s.cfgIndex with
    | none => rfl
    | some idx =>
      dsimp only
      split
      · rfl
      · rfl
      · cases s.cfgWrite idx (v.setWidth 8) <;> rfl
  simp only [State.ioWrite, data]
  split
  · rfl
  · split
    · rfl
    · split <;> rfl

theorem State.withSmm_ioRead (p : Word16) (w : Width) :
    (s.withSmm m).ioRead p w = (s.ioRead p w).map (Prod.map id (State.withSmm m)) := by
  have data : (s.withSmm m).dataPortRead = s.dataPortRead.map (Prod.map id (State.withSmm m)) := by
    simp only [State.dataPortRead, State.withSmm_cfgIndex, State.withSmm_cfg]
    cases s.cfgIndex with
    | none => rfl
    | some idx =>
      dsimp only
      split
      · rfl
      · rfl
      · cases cfgRead s.cfg idx <;> rfl
  simp only [State.ioRead, data]
  split
  · rfl
  · split <;> rfl

end Ports

end Sys2Proof.Machine
end

section
/-!
One step of normal mode with other contents of SMM memory (settles O56): none of the ten instructions exists, and the
boundary, the fetch and the base instructions are made of the shared operations.
-/
namespace Sys2Proof.Machine

/-! ### Base instructions -/

section Effects
variable {s : State} (h : s.smmReachable = false) (m : Memory)
include h

@[simp] theorem State.withSmm_readOperand (pre : List Pfx) (a : MemArg) (n : Nat) :
    (s.withSmm m).readOperand pre a n = s.readOperand pre a n := by
  simp [State.readOperand, State.operandSeg, h]

@[simp] theorem State.withSmm_readRm (w : Width) (rm : RmArg) (pre : List Pfx) :
    (s.withSmm m).readRm w rm pre = s.readRm w rm pre := by
  cases rm with
  | reg r => rfl
  | mem a => simp [State.readRm, h]

@[simp] theorem State.withSmm_writeRm (w : Width) (rm : RmArg) (pre : List Pfx) (v : Dword) :
    (s.withSmm m).writeRm w rm pre v = s.writeRm w rm pre v := by
  cases rm with
  | reg r => rfl
  | mem a => simp [State.writeRm, State.operandSeg, h]

@[simp] theorem State.withSmm_pushAccess (k n v : Nat) : (s.withSmm m).pushAccess k n v = s.pushAccess k n v := by
  simp [State.pushAccess, h]

@[simp] theorem State.withSmm_popValue (k n : Nat) : (s.withSmm m).popValue k n = s.popValue k n := by
  simp [State.popValue, h]

@[simp] theorem State.withSmm_readFar (w : Width) (a : MemArg) (pre : List Pfx) :
    (s.withSmm m).readFar w a pre = s.readFar w a pre := by
  simp [State.readFar, h]

@[simp] theorem State.withSmm_selectorLoad (o : Except Stop BaseOutcome) :
    (s.withSmm m).selectorLoad o = s.selectorLoad o := by
  have hg : (s.withSmm m).noGdt = s.noGdt := by rw [State.noGdt, State.withSmm_baseView h]; rfl
  simp only [State.selectorLoad, State.withSmm_base, hg]

@[simp] theorem State.withSmm_callNearEffect (w : Width) (target : Dword) (len : Nat) :
    (s.withSmm m).callNearEffect w target len = s.callNearEffect w target len := by
  simp [State.callNearEffect, h]

@[simp] theorem State.withSmm_jmpFarEffect (w : Width) (sel : Word16) (off : Dword) :
    (s.withSmm m).jmpFarEffect w sel off = s.jmpFarEffect w sel off := by
  simp [State.jmpFarEffect, h]

@[simp] theorem State.withSmm_callFarEffect (w : Width) (sel : Word16) (off : Dword) (len : Nat) :
    (s.withSmm m).callFarEffect w sel off len = s.callFarEffect w sel off len := by
  simp [State.callFarEffect, h]

@[simp] theorem State.withSmm_readSelector (src : SelectorSource) :
    (s.withSmm m).readSelector src = s.readSelector src := by
  cases src <;> simp [State.readSelector, h]

/-- The outcome of a base instruction does not depend on SMM memory: it reads through the shared operations. -/
theorem State.withSmm_baseEffect (i : BaseInstr) (len : Nat) : (s.withSmm m).baseEffect i len = s.baseEffect i len := by
  cases i with
  | load | store | bitTest | callNear | jmpFar | callFar => simp [State.baseEffect, h]
  | loadSeg => simp [State.baseEffect, State.loadSegEffect, h]
  | loadSelector => simp [State.baseEffect, State.loadSelectorEffect, h]
  | alu => simp [State.baseEffect, State.aluEffect, h]
  | dec => simp [State.baseEffect, State.decEffect, h]
  | jmpRm => simp [State.baseEffect, State.jmpRmEffect, h]
  | callRm => simp [State.baseEffect, State.callRmEffect, h]
  | retNear => simp [State.baseEffect, State.retNearEffect, h]
  | jmpFarMem => simp [State.baseEffect, State.jmpFarMemEffect, h]
  | callFarMem => simp [State.baseEffect, State.callFarMemEffect, h]
  | retFar => simp [State.baseEffect, State.retFarEffect, h]
  | iret => simp [State.baseEffect, State.iretEffect, h]
  | fnSave => simp [State.baseEffect, State.fnSaveEffect, State.operandSeg, h]
  | frStor => simp [State.baseEffect, State.frStorEffect, h]
  | storeTable => simp [State.baseEffect, State.storeTableEffect, State.operandSeg, h]
  | loadTable => simp [State.baseEffect, State.loadTableEffect, h]
  | movsString => simp [State.baseEffect, State.movsEffect, h]
  | _ => rfl

/-! ### I/O instructions (R227) -/

@[simp] theorem State.withSmm_ioPermitted (p : Word16) (w : Width) :
    (s.withSmm m).ioPermitted p w = s.ioPermitted p w := by
  simp only [State.ioPermitted, State.withSmm_base, State.withSmm_baseView h]

theorem State.withSmm_portOut (p : Word16) (w : Width) (v : Dword) :
    (s.withSmm m).portOut p w v = (s.portOut p w v).map (State.withSmm m) := by
  simp only [State.portOut, State.withSmm_ioPermitted h, State.withSmm_ioWrite]
  cases s.ioPermitted p w with
  | false => rfl
  | true => cases s.ioWrite p w v <;> rfl

theorem State.withSmm_portIn (p : Word16) (w : Width) :
    (s.withSmm m).portIn p w = (s.portIn p w).map (Prod.map id (State.withSmm m)) := by
  simp only [State.portIn, State.withSmm_ioPermitted h, State.withSmm_ioRead]
  cases s.ioPermitted p w with
  | false => rfl
  | true => cases s.ioRead p w <;> rfl

theorem State.withSmm_execIn (w : Width) (p : PortArg) (len : Nat) :
    (s.withSmm m).execIn w p len = (s.execIn w p len).map (State.withSmm m) := by
  simp only [State.execIn, State.withSmm_base, State.withSmm_portIn h]
  cases s.portIn (p.value s.base.gpr) w <;> rfl

theorem State.withSmm_execOut (w : Width) (p : PortArg) (len : Nat) :
    (s.withSmm m).execOut w p len = (s.execOut w p len).map (State.withSmm m) := by
  simp only [State.execOut, State.withSmm_base, State.withSmm_portOut h]
  cases s.portOut (p.value s.base.gpr) w (s.base.gpr.part w 0) <;> rfl

/-- The cells INS writes are routed before its port access, so they are cells of normal memory whatever it makes of the
configuration. -/
theorem State.withSmm_execIns (w : Width) (rep a32 : Bool) (len : Nat) :
    (s.withSmm m).execIns w rep a32 len = (s.execIns w rep a32 len).map (State.withSmm m) := by
  simp only [State.execIns, State.withSmm_base, State.withSmm_segWriteLocs h, State.withSmm_portIn h,
    State.withSmm_advance]
  split
  · rfl
  · cases hl : s.segWriteLocs s.base.seg.es (stringOffsets a32 (s.base.gpr.sized a32 .edi) w.bytes) with
    | error e => rfl
    | ok ls =>
      obtain ⟨pas, -, hw⟩ := State.segWriteLocs_ok hl
      have hx := fun bs => State.routed_normal h (State.routed_zip hw bs)
      cases s.portIn (s.base.gpr.get16 .edx) w with
      | error e => rfl
      | ok x =>
        simp only [Except.map, Prod.map, id, State.withSmm_writeLocs m x.2 (hx _)]
        rfl

theorem State.withSmm_execOuts (w : Width) (rep a32 : Bool) (pre : List Pfx) (len : Nat) :
    (s.withSmm m).execOuts w rep a32 pre len = (s.execOuts w rep a32 pre len).map (State.withSmm m) := by
  simp only [State.execOuts, State.withSmm_base, State.withSmm_segRead h, State.withSmm_portOut h,
    State.withSmm_advance]
  split
  · rfl
  · cases s.segRead (s.base.seg.get ((overrideSeg pre).getD .ds))
        (stringOffsets a32 (s.base.gpr.sized a32 .esi) w.bytes) with
    | error e => rfl
    | ok bs => dsimp only; cases s.portOut (s.base.gpr.get16 .edx) w (BitVec.ofNat 32 (ofLE bs)) <;> rfl

/-! ### A base instruction executed -/

theorem State.withSmm_baseStep (o : Except Stop BaseOutcome) :
    (s.withSmm m).baseStep o = (s.baseStep o).map (State.withSmm m) := by
  cases o with
  | error e => rfl
  | ok o => rw [State.baseStep, State.withSmm_applyBase h, liftRefusal_withSmm, State.baseStep]

theorem State.withSmm_execBase (i : BaseInstr) (len : Nat) :
    (s.withSmm m).execBase i len = outWithSmm m (s.execBase i len) := by
  unfold State.execBase
  split
  · rw [State.withSmm_execIn h, finish_withSmm h]
  · rw [State.withSmm_execOut h, finish_withSmm h]
  · rw [State.withSmm_execIns h, finish_withSmm h]
  · rw [State.withSmm_execOuts h, finish_withSmm h]
  · exact State.withSmm_outcome_deliver (s := s.advance len) h m .breakpoint
  · rw [State.withSmm_baseEffect h, State.withSmm_baseStep h, finish_withSmm h]

/-! ### The ten instructions (R170, R190) -/

/-- Where no access reaches SMM memory none of the ten instructions exists: each needs USE_SMI, and SMAC or SMM. -/
theorem State.opExists_unreachable (op : SmmOp) : s.opExists op = false := by
  cases hu : s.cfg.useSmi with
  | false => exact State.opExists_unconfigured (by simp [CfgRegs.smmConfigured, hu]) op
  | true =>
    obtain ⟨hi, hs⟩ : s.inSmm = false ∧ s.cfg.smac = false := by simpa [State.smmReachable, hu] using h
    cases op <;> simp [State.opExists, State.smmInstrValid, State.smintValid, hi, hs]

theorem exec_withSmm (i : Instr) : exec i (s.withSmm m) = outWithSmm m (exec i s) := by
  have hs : s.opExists i.op = false := State.opExists_unreachable h i.op
  have hm : (s.withSmm m).opExists i.op = false := State.opExists_unreachable (s := s.withSmm m) h i.op
  rw [exec_of_not_opExists hs, exec_of_not_opExists hm]
  exact State.withSmm_outcome_deliver h m .invalidOpcode

/-! ### Fetching and running (R127, R140) -/

theorem State.codeCell_normal {off : Dword} {l : Loc} (hl : s.codeCell off = .ok l) : l.store = .normal := by
  unfold State.codeCell at hl
  split at hl
  · split at hl
    · cases hl
    · split at hl
      · rename_i hp; injection hl with hl; exact hl ▸ State.locate_normal h hp
      · cases hl
  · cases hl

@[simp] theorem State.withSmm_fetchByte (off : Dword) : (s.withSmm m).fetchByte off = s.fetchByte off := by
  have cell : (s.withSmm m).codeCell off = s.codeCell off := by simp [State.codeCell, h]
  simp only [State.fetchByte, cell]
  cases hl : s.codeCell off with
  | error e => rfl
  | ok l =>
    have hn : l.store = .normal := State.codeCell_normal h hl
    simp only [State.codeByte, State.withSmm_readLoc m s hn, State.withSmm_staleCode, State.withSmm_draws]

theorem State.withSmm_fetch : (s.withSmm m).fetch = s.fetch := by
  have tail : ∀ n off, (s.withSmm m).fetchTail n off = s.fetchTail n off := by
    intro n
    induction n with
    | zero => intro; rfl
    | succ n ih => intro off; simp only [State.fetchTail, State.withSmm_fetchByte h, ih]
  have all : ∀ n off, (s.withSmm m).fetchFrom n off = s.fetchFrom n off := by
    intro n
    induction n with
    | zero => intro; rfl
    | succ n ih => intro off; simp only [State.fetchFrom, State.withSmm_fetchByte h, tail, ih]
  exact all Config.prefixLimit s.base.eip

theorem State.withSmm_runCode (c : Fetched) : (s.withSmm m).runCode c = outWithSmm m (s.runCode c) := by
  have hop : (s.withSmm m).opExists = s.opExists := by funext op; cases op <;> rfl
  simp only [State.runCode, State.withSmm_base, hop]
  split
  · exact exec_withSmm h m _
  · split
    · exact State.withSmm_execBase h m _ _
    · exact finish_withSmm h m (.error .leftToBase)
  · split
    · exact State.withSmm_outcome_deliver h m .invalidOpcode
    · split
      · exact finish_withSmm h m (.error _)
      · rfl

theorem State.withSmm_underBreakpoints (o : Out) :
    (s.withSmm m).underBreakpoints (outWithSmm m o) = outWithSmm m (s.underBreakpoints o) := by
  have hd : (s.withSmm m).debugMatch = s.debugMatch := by simp [State.debugMatch, h]
  simp only [State.underBreakpoints, hd]
  split
  · rfl
  · exact State.withSmm_outcome_deliver h m .debugBreakpoint
  · cases o <;> rfl

theorem State.withSmm_runInstruction : (s.withSmm m).runInstruction = outWithSmm m s.runInstruction := by
  have hf : (s.withSmm m).afterFetch = s.afterFetch.withSmm m := by
    rw [State.afterFetch, State.afterFetch, apply_ite (State.withSmm m)]; rfl
  have hr : s.afterFetch.smmReachable = false := by simpa [State.smmReachable] using h
  rw [State.runInstruction, hf, State.withSmm_fetch h, State.withSmm_runCode hr, State.withSmm_underBreakpoints h,
    State.runInstruction]

theorem State.withSmm_proceed : (s.withSmm m).proceed = outWithSmm m s.proceed := by
  have hsusp : (s.withSmm m).suspended = s.suspended := rfl
  simp only [State.proceed, State.withSmm_base, State.withSmm_inputs, hsusp, State.withSmm_runInstruction h]
  split
  · rw [apply_ite (outWithSmm m)]; rfl
  · rfl
  · rw [apply_ite (outWithSmm m)]; rfl

/-! ### The boundary (R267) -/

theorem State.withSmm_warmReset : (s.withSmm m).warmReset = s.warmReset.withSmm m := by
  simp only [State.warmReset, State.withSmm_baseView h]; rfl

/-- Without an SMI the boundary resets, delivers an event or brings nothing. -/
theorem State.withSmm_boundary (hs : s.smiTaken = false) : (s.withSmm m).boundary = s.boundary.map (outWithSmm m) := by
  have hs' : (s.withSmm m).smiTaken = false := hs
  have warm : (s.withSmm m).sampled.warmReset = s.sampled.warmReset.withSmm m :=
    State.withSmm_warmReset (s := s.sampled) h m
  have event : ∀ e, some (outcome ((s.withSmm m).settled.deliver e)) =
      (some (outcome (s.settled.deliver e))).map (outWithSmm m) := fun e =>
    congrArg some (State.withSmm_outcome_deliver (s := s.settled) h m e)
  simp only [State.boundary, hs, hs', Bool.false_eq_true, if_false, apply_ite (Option.map (outWithSmm m))]
  refine if_congr Iff.rfl rfl (if_congr Iff.rfl (congrArg (some ∘ Host.Outcome.next) warm)
    (if_congr Iff.rfl (event .debugBreakpoint) (if_congr Iff.rfl (event .nmi) ?_)))
  rw [show (s.withSmm m).intrServed = s.intrServed from rfl]
  cases s.intrServed with
  | none => rfl
  | some v => exact event (.intr v)

theorem step_withSmm (hs : s.smiTaken = false) : step (s.withSmm m) = outWithSmm m (step s) := by
  simp only [step, State.withSmm_boundary h m hs]
  cases s.boundary with
  | some o => rfl
  | none => exact State.withSmm_proceed (s := s.settled) h m

end Effects

/-! ### The statement -/

/-- Settles O56: normal mode with SMAC = 0 reaches no SMM memory, so other contents there pass through the step. -/
theorem normalModeCannotReadSmmMemory : Obligations.NormalModeCannotReadSmmMemory := by
  intro s t m hi hs htaken h
  have hstep := step_withSmm (State.smmReachable_normalMode hi hs) m htaken
  rw [h] at hstep
  exact hstep

end Sys2Proof.Machine
end

section
/-!
The decoder and the encoder undo each other, and the one ground on which bytes that show an opcode of the ten fail to
decode (settles O1, O2, O3; used for O9).
-/
namespace Sys2Proof

/-! ### The opcode of a byte string (R142, R149) -/

theorem opcodeRead_eq_some {bs : List Byte} {op : SmmOp} :
    opcodeRead bs = some op ↔ ∃ tail, (scanPrefixes bs).2 = 0x0F :: op.byte :: tail := by
  unfold opcodeRead
  split
  · rename_i esc opb tail hscan
    rw [hscan]
    constructor
    · intro h
      obtain ⟨rfl, hop⟩ : esc = 0x0F ∧ SmmOp.ofByte opb = some op := by simpa using h
      exact ⟨tail, by rw [SmmOp.byte_ofByte hop]⟩
    · rintro ⟨_, h⟩
      obtain ⟨rfl, rfl, rfl⟩ : esc = 0x0F ∧ opb = op.byte ∧ tail = _ := by simpa using h
      rw [if_pos rfl, SmmOp.ofByte_byte]
  · rename_i hscan
    constructor
    · nofun
    · rintro ⟨tail, h⟩
      exact absurd h (hscan _ _ _)

/-- R147: behind one of the ten opcodes the rest is read by that opcode's format. -/
theorem decode_of_scan {d32 : Bool} {bs tail : List Byte} {op : SmmOp}
    (h : (scanPrefixes bs).2 = 0x0F :: op.byte :: tail) :
    decode d32 bs = decodeOp op (scanPrefixes bs).1 (addrSize32 d32 (scanPrefixes bs).1) tail := by
  simp only [decode, h, if_true, SmmOp.ofByte_byte]

/-- Nothing decodes but behind one of the ten opcodes. -/
theorem opcodeRead_of_decode {d32 : Bool} {bs rest : List Byte} {i : Instr} (h : decode d32 bs = .ok (i, rest)) :
    ∃ op, opcodeRead bs = some op := by
  unfold decode at h
  split at h
  · cases h
  · rename_i esc tail hscan
    split at h
    · subst esc
      split at h
      · cases h
      · rename_i opb tail
        split at h
        · cases h
        · rename_i op hop
          exact ⟨op, by simp only [opcodeRead, hscan, if_true, hop]⟩
    · cases h

/-- The inversion of the decoder: the instruction's prefixes and opcode are those read, and its bytes its encoding. -/
theorem decode_ok {d32 : Bool} {bs rest : List Byte} {i : Instr} (h : decode d32 bs = .ok (i, rest)) :
    opcodeRead bs = some i.op ∧ i.encodable d32 = true ∧ bs = encode i ++ rest := by
  obtain ⟨op, hop⟩ := opcodeRead_of_decode h
  obtain ⟨tail, hscan⟩ := opcodeRead_eq_some.1 hop
  rw [decode_of_scan hscan] at h
  obtain ⟨hpre, rfl, henc, rfl⟩ := decodeOp_ok h
  refine ⟨hop, henc, ?_⟩
  rw [← scanPrefixes_eta bs, hscan, ← hpre]
  simp only [encode, List.append_assoc, List.cons_append]

theorem decode_eq_of_encode {d32 : Bool} {bs : List Byte} {i : Instr} (h : i.encodable d32 = true)
    (hbs : encode i = bs) : decode d32 bs = .ok (i, []) := by
  rw [← hbs, ← decode_encode_append h [], List.append_nil]

/-! ### Behind one of the ten opcodes only too few bytes fail to decode (R150) -/

theorem map_error {α β ε : Type} {f : α → β} {x : Except ε α} {e : ε} (h : x.map f = .error e) : x = .error e := by
  cases x with
  | error _ => exact congrArg Except.error (Except.error.inj h)
  | ok _ => cases h

theorem takeByte_error {bs : List Byte} {e : DecodeError} (h : takeByte bs = .error e) : e = .truncated := by
  unfold takeByte at h
  split at h <;> cases h
  rfl

theorem takeWord_error {bs : List Byte} {e : DecodeError} (h : takeWord bs = .error e) : e = .truncated := by
  unfold takeWord at h
  split at h <;> cases h
  rfl

theorem takeDword_error {bs : List Byte} {e : DecodeError} (h : takeDword bs = .error e) : e = .truncated := by
  unfold takeDword at h
  split at h <;> cases h
  rfl

theorem decodeDisp32_error {md : BitVec 2} {bs : List Byte} {e : DecodeError} (h : decodeDisp32 md bs = .error e) :
    e = .truncated := by
  unfold decodeDisp32 at h
  split at h
  · cases h
  · split at h
    · exact takeByte_error (map_error h)
    · exact takeDword_error (map_error h)

theorem decodeAddr16_error {md : BitVec 2} {rm : BitVec 3} {bs : List Byte} {e : DecodeError}
    (h : decodeAddr16 md rm bs = .error e) : e = .truncated := by
  unfold decodeAddr16 at h
  split at h
  · split at h
    · exact takeWord_error (map_error h)
    · cases h
  · split at h
    · exact takeByte_error (map_error h)
    · exact takeWord_error (map_error h)

theorem decodeSib_error {md : BitVec 2} {bs : List Byte} {e : DecodeError} (h : decodeSib md bs = .error e) :
    e = .truncated := by
  cases bs with
  | nil => cases h; rfl
  | cons b bs =>
    simp only [decodeSib] at h
    split at h
    · exact takeDword_error (map_error h)
    · exact decodeDisp32_error (map_error h)

theorem decodeAddr32_error {md : BitVec 2} {rm : BitVec 3} {bs : List Byte} {e : DecodeError}
    (h : decodeAddr32 md rm bs = .error e) : e = .truncated := by
  unfold decodeAddr32 at h
  split at h
  · exact decodeSib_error h
  · split at h
    · exact takeDword_error (map_error h)
    · exact decodeDisp32_error (map_error h)

theorem decodeModRm_error {a32 : Bool} {bs : List Byte} {e : DecodeError} (h : decodeModRm a32 bs = .error e) :
    e = .truncated := by
  cases bs with
  | nil => cases h; rfl
  | cons b bs =>
    simp only [decodeModRm] at h
    split at h
    · cases h
    · split at h
      · exact decodeAddr32_error (map_error h)
      · exact decodeAddr16_error (map_error h)

theorem decodeOp_error {op : SmmOp} {pre : List Pfx} {a32 : Bool} {bs : List Byte} {e : DecodeError}
    (h : decodeOp op pre a32 bs = .error e) : e = .truncated := by
  cases op with
  | smint | rsm => cases h
  | _ => exact decodeModRm_error (map_error h)

theorem decode_error_of_opcodeRead {d32 : Bool} {bs : List Byte} {op : SmmOp} {e : DecodeError}
    (hop : opcodeRead bs = some op) (h : decode d32 bs = .error e) : e = .truncated := by
  obtain ⟨tail, hscan⟩ := opcodeRead_eq_some.1 hop
  exact decodeOp_error (decode_of_scan hscan ▸ h)

/-! ### The statements -/

/-- Settles O1: prefixes, opcode, mod r/m byte and address bytes are each read back from what was written for them. -/
theorem decodeOfEncode : Obligations.DecodeOfEncode :=
  fun _ _ rest h => decode_encode_append h rest

/-- Settles O2: by inversion of the decoder. -/
theorem encodeOfDecode : Obligations.EncodeOfDecode :=
  fun _ _ _ _ h => (decode_ok h).2

/-- Settles O3: each line is its instruction's encoding, with nothing after it. -/
theorem listingDecodes : Obligations.ListingDecodes :=
  ⟨decode_eq_of_encode rfl rfl, decode_eq_of_encode rfl rfl, decode_eq_of_encode rfl rfl, decode_eq_of_encode rfl rfl,
    decode_eq_of_encode rfl rfl, decode_eq_of_encode rfl rfl, decode_eq_of_encode rfl rfl⟩

end Sys2Proof
end

section
/-!
Effective addresses, and where the ten instructions exist (settles O6, O9, O14).
-/
namespace Sys2Proof.Machine

/-! ### The scaled index (R145) -/

theorem scaledIndex_esp (g : Gpr) (scale : BitVec 2) : scaledIndex g scale .esp = 0 := if_pos rfl

theorem scaledIndex_of_ne_esp (g : Gpr) (scale : BitVec 2) {index : GReg} (h : index ≠ .esp) :
    scaledIndex g scale index = g.get index * BitVec.ofNat 32 (2 ^ scale.toNat) := by
  rw [scaledIndex, if_neg h]
  apply BitVec.eq_of_toNat_eq
  simp only [BitVec.toNat_shiftLeft, Nat.shiftLeft_eq, BitVec.toNat_mul, BitVec.toNat_ofNat, Nat.mul_mod_mod]

/-! ### Where the ten instructions exist (R150, R170, R190) -/

theorem State.smmInstrValid_iff (s : State) : s.smmInstrValid = true ↔
    s.base.cpl = 0 ∧ s.cfg.ccr1.getLsbD 1 = true ∧ s.cfg.arrCF.extractLsb' 0 4 ≠ 0 ∧ s.cfg.ccr1.getLsbD 7 = true ∧
      (s.cfg.ccr1.getLsbD 2 = true ∨ s.inSmm = true) := by
  simp [State.smmInstrValid, CfgRegs.smmConfigured, CfgRegs.useSmi, CfgRegs.sm3, CfgRegs.smac, CfgRegs.arr3SizeCode,
    and_assoc]

theorem State.opExists_eq (s : State) (op : SmmOp) :
    s.opExists op = if op = .smint then s.smintValid else s.smmInstrValid := by
  cases op <;> rfl

/-- R150, R170: bytes that show an opcode of an instruction that does not exist raise the invalid-opcode exception, be
the instruction whole or cut off. -/
theorem State.runCode_of_not_opExists {s : State} {c : Fetched} {op : SmmOp} (hop : opcodeRead c.bytes = some op)
    (h : s.opExists op = false) : s.runCode c = raiseInvalidOpcode s := by
  unfold State.runCode
  cases hd : decode s.base.default32 c.bytes with
  | ok r =>
    obtain ⟨i, rest⟩ := r
    have hi : i.op = op := Option.some.inj ((decode_ok hd).1.symm.trans hop)
    exact exec_of_not_opExists (hi ▸ h)
  | error e =>
    obtain rfl := decode_error_of_opcodeRead hop hd
    simp only [hop, Option.any_some, h, Bool.not_false, if_true]

/-! ### Encodings without a meaning (R150) -/

theorem whenValid_undefined (s : State) {v d : Bool} (hv : v = true) (hd : d = false) (x : Except Stop State) :
    whenValid s v d x = .refused .undefinedEncoding := by
  simp [whenValid, hv, hd]

/-- R150: an encoding without a meaning is refused wherever its instruction exists. -/
theorem exec_of_not_hasMeaning {s : State} {i : Instr} (he : s.opExists i.op = true) (hm : i.hasMeaning = false) :
    exec i s = .refused .undefinedEncoding := by
  cases i with
  | rsdc pre sreg rm =>
    obtain ⟨hcs, hd⟩ : (prefixesDefined pre && decide (sreg = 1)) = false ∧
        (prefixesDefined pre && (sregDefined sreg && rm.isMem)) = false := by
      rw [← Bool.or_eq_false_iff, ← Bool.and_or_distrib_left]
      exact hm
    simp only [exec, execRsdc, Bool.and_assoc, hcs, Bool.and_false, Bool.false_eq_true, if_false]
    exact whenValid_undefined s he hd _
  | smint pre | rsm pre => exact whenValid_undefined s he ((Bool.and_true _).symm.trans hm) _
  | rdshr | wrshr => exact whenValid_undefined s he hm _
  | _ => exact whenValid_undefined s he ((Bool.and_assoc _ _ _).trans hm) _

/-! ### The statements -/

/-- Settles O6: the forms are read off the definition; a scaled index is a product. -/
theorem effectiveAddresses : Obligations.EffectiveAddresses := by
  intro g
  refine ⟨fun d => ⟨rfl, rfl, rfl, rfl, rfl, rfl, rfl, rfl⟩, fun _ => rfl, rfl, fun d => ?_, fun _ => rfl,
    fun _ _ => rfl, fun _ => rfl, fun scale index base d h => ?_, fun scale base d => ?_, fun scale index d h => ?_,
    fun scale d => ?_, rfl, fun d => ?_, fun _ => rfl⟩
  · exact BitVec.toInt_signExtend_of_le (by decide)
  · rw [Addr32.ea, scaledIndex_of_ne_esp g scale h]
  · rw [Addr32.ea, scaledIndex_esp]
    exact congrArg (· + d.value) (BitVec.add_zero _)
  · rw [Addr32.ea, scaledIndex_of_ne_esp g scale h]
  · rw [Addr32.ea, scaledIndex_esp]
    exact BitVec.zero_add d
  · exact BitVec.toInt_signExtend_of_le (by decide)

/-- Settles O9: outside its predicate an instruction does not exist, and no operand byte is looked at. -/
theorem invalidOpcodeOutsideSmmInstrValid : Obligations.InvalidOpcodeOutsideSmmInstrValid := by
  intro s
  refine ⟨s.smmInstrValid_iff, fun i hv hi => ?_, fun c op hop h => ?_⟩
  · exact exec_of_not_opExists (by rw [State.opExists_eq, if_neg hi, hv])
  · exact State.runCode_of_not_opExists hop (by rw [State.opExists_eq, h])

/-- Settles O14: the instruction exists, and its encoding has no meaning. -/
theorem undefinedEncodingsRefused : Obligations.UndefinedEncodingsRefused := by
  intro s i hv hs hundef
  have he : s.opExists i.op = true := by
    rw [State.opExists_eq]
    split
    · next hi => exact hs hi
    · exact hv
  refine exec_of_not_hasMeaning he ?_
  rcases hundef with hp | hf
  · rw [Instr.hasMeaning, hp, Bool.false_and]
  · rw [Instr.hasMeaning, hf, Bool.and_false]

end Sys2Proof.Machine
end

section
/-!
The save and restore instructions (settles O13, O15 to O21): one lemma for what a save leaves and one for what a restore
leaves, each used by three instructions; R114 read off the ten bytes of a mem80; and the round trip put together from
what SVDC and RSDC do.
-/
namespace Sys2Proof.Machine

/-! ### The segment register a field names (R148, R172, R173) -/

theorem SegName.num_of_ofNum {sreg : BitVec 3} {n : SegName} (h : SegName.ofNum sreg = some n) : n.num = sreg := by
  have key : ∀ r : BitVec 3, ∀ k ∈ SegName.ofNum r, k.num = r := by decide
  exact key sreg n h

/-- A field naming a segment register other than CS is one SVDC and RSDC have a meaning for (R150). -/
theorem sregDefined_of_ofNum {sreg : BitVec 3} {n : SegName} (h : SegName.ofNum sreg = some n) (hn : n ≠ .cs) :
    sregDefined sreg = true ∧ sreg ≠ 1 := by
  obtain rfl := SegName.num_of_ofNum h
  cases n with
  | cs => exact absurd rfl hn
  | _ => decide

theorem SegFile.set_get (f : SegFile) (n : SegName) : f.set n (f.get n) = f := by
  cases n <;> rfl

/-! ### The bytes of a mem80 (R113, R114) -/

/-- A register's ten bytes determine it. -/
theorem SegReg.eq_of_mem80Byte {q r : SegReg} (h : ∀ k, k < 10 → mem80Byte q k = mem80Byte r k) : q = r := by
  have hbytes : q.toBytes = r.toBytes := by
    apply List.ext_getElem (by simp only [SegReg.toBytes_length])
    intro k hq hr
    rw [SegReg.toBytes_getElem, SegReg.toBytes_getElem, h k (by rwa [SegReg.toBytes_length] at hq)]
  rw [← SegReg.ofBytes_toBytes q, hbytes, SegReg.ofBytes_toBytes]

theorem mem80Byte_of_lt (r : SegReg) {k : Nat} (h : k < 8) : mem80Byte r k = r.desc.extractLsb' (8 * k) 8 := if_pos h

theorem extractLsb'_toNat_eq {w : Nat} (v : BitVec w) (i n : Nat) :
    (v.extractLsb' i n).toNat = v.toNat / 2 ^ i % 2 ^ n := by
  rw [BitVec.extractLsb'_toNat, Nat.shiftRight_eq_div_pow]

/-- The ten bytes as numbers: the descriptor's eight, then the selector's two. -/
theorem mem80Byte_toNat (r : SegReg) (k : Nat) : (mem80Byte r k).toNat =
    if k < 8 then r.desc.toNat / 2 ^ (8 * k) % 2 ^ 8 else r.sel.toNat / 2 ^ (8 * (k - 8)) % 2 ^ 8 := by
  rw [mem80Byte, apply_ite BitVec.toNat, extractLsb'_toNat_eq, extractLsb'_toNat_eq]

theorem SegReg.sel_eq_mem80 (r : SegReg) : r.sel = mem80Byte r 9 ++ mem80Byte r 8 := by
  apply BitVec.eq_of_toNat_eq
  have := r.sel.isLt
  simp only [toNat_append_eq, mem80Byte_toNat, Nat.reduceLT, if_false]
  omega

theorem SegReg.base_eq_mem80 (r : SegReg) :
    r.base = mem80Byte r 7 ++ mem80Byte r 4 ++ mem80Byte r 3 ++ mem80Byte r 2 := by
  apply BitVec.eq_of_toNat_eq
  simp only [SegReg.base, toNat_append_eq, extractLsb'_toNat_eq, mem80Byte_toNat, Nat.reduceLT, if_true]
  omega

theorem SegReg.limit20_eq_mem80 (r : SegReg) :
    r.limit20 = (mem80Byte r 6).extractLsb' 0 4 ++ mem80Byte r 1 ++ mem80Byte r 0 := by
  apply BitVec.eq_of_toNat_eq
  simp only [SegReg.limit20, toNat_append_eq, extractLsb'_toNat_eq, mem80Byte_toNat, Nat.reduceLT, if_true]
  omega

theorem SegReg.rights_eq_mem80 (r : SegReg) : r.rights = (mem80Byte r 6).extractLsb' 4 4 ++ mem80Byte r 5 := by
  apply BitVec.eq_of_toNat_eq
  simp only [SegReg.rights, toNat_append_eq, extractLsb'_toNat_eq, mem80Byte_toNat, Nat.reduceLT, if_true]
  omega

theorem SegReg.granular_eq_mem80 (r : SegReg) : r.granular = (mem80Byte r 6).getLsbD 7 := by
  rw [mem80Byte_of_lt r (by decide), BitVec.getLsbD_extractLsb']
  rfl

theorem SegReg.big_eq_mem80 (r : SegReg) : r.big = (mem80Byte r 6).getLsbD 6 := by
  rw [mem80Byte_of_lt r (by decide), BitVec.getLsbD_extractLsb']
  rfl

/-- R114: the limit counts bytes, or pages of 4 KBytes when G = 1. -/
theorem SegReg.limit_toNat (r : SegReg) :
    r.limit.toNat = if r.granular then r.limit20.toNat * 2 ^ 12 + 0xFFF else r.limit20.toNat := by
  unfold SegReg.limit
  split
  · exact toNat_append_eq _ _
  · rw [BitVec.toNat_setWidth, Nat.mod_eq_of_lt (Nat.lt_trans r.limit20.isLt (by decide))]

/-! ### Frames -/

theorem State.sameControl.trans {s t u : State} (h : s.sameControl t) (g : t.sameControl u) : s.sameControl u := by
  simp_all only [State.sameControl, and_self]

theorem State.sameControl.smmInstrValid {s t : State} (h : s.sameControl t) (hcpl : t.base.cpl = s.base.cpl) :
    t.smmInstrValid = s.smmInstrValid := by
  obtain ⟨hcfg, -, hsmm, -⟩ := h
  simp only [State.smmInstrValid, hcpl, hcfg, hsmm]

theorem State.sameControl.locateAccess {s t : State} (h : s.sameControl t) : t.locateAccess = s.locateAccess := by
  obtain ⟨hcfg, -, hsmm, -, -, -, ha20, -⟩ := h
  exact State.locateAccess_congr (State.locate_congr hcfg hsmm ha20)

/-- Bytes stored in as many cells, then EIP advanced. -/
theorem State.storedAt_writeLocs (s : State) {cells : List Loc} {bs : List Byte} {byte : Nat → Byte} (len : Nat)
    (hl : cells.length = bs.length) (hb : ∀ k, (h : k < bs.length) → bs[k] = byte k) :
    s.storedAt ((s.writeLocs (cells.zip bs)).advance len) cells byte len := by
  refine ⟨by simp, by simp, by simp [State.sameControl], s.sameMemoryOutside_writeLocs cells bs, fun hd k l hk => ?_⟩
  have hlt : k < bs.length := hl ▸ (List.getElem?_eq_some_iff.1 hk).1
  have hread : (s.writeLocs (cells.zip bs)).readLoc l = bs[k]?.getD 0 := State.readLoc_writeLocs_zip hd hl hk
  rw [List.getElem?_eq_getElem hlt, Option.getD_some, hb k hlt] at hread
  exact hread

/-- Base registers changed, then EIP advanced. -/
theorem State.onlyBase_advance (s : State) (b : BaseRegs) (len : Nat) :
    s.onlyBase (State.advance { s with base := b } len) { b with eip := b.eip + BitVec.ofNat 32 len } :=
  ⟨rfl, rfl, ⟨rfl, rfl, rfl, rfl, rfl, rfl, rfl, rfl, rfl, rfl, rfl, rfl⟩, fun _ _ => rfl⟩

/-! ### What a save and a restore do (R172 to R178) -/

/-- Where an instruction exists and its encoding has a meaning, a completed effect is its outcome. -/
theorem whenValid_ok (s : State) {v d : Bool} {x : Except Stop State} {t : State} (hv : v = true) (hd : d = true)
    (hx : x = .ok t) : whenValid s v d x = .next t := by
  rw [whenValid, hv, hd, hx]
  rfl

/-- R172, R174, R176: SVDC, SVLDT and SVTS where the ten bytes may be stored. -/
theorem whenValid_saveSegReg {s : State} {v d : Bool} {pre : List Pfx} {m : MemArg} {cells : List Loc} (hv : v = true)
    (hd : d = true) (h : s.operandCells pre m 10 = .ok cells) (r : SegReg) (len : Nat) :
    ∃ t, whenValid s v d (s.saveSegReg pre (.mem m) r len) = .next t ∧ s.storedAt t cells (mem80Byte r) len := by
  have hsave : s.saveSegReg pre (.mem m) r len = .ok ((s.writeLocs (cells.zip r.toBytes)).advance len) := by
    simp only [State.saveSegReg, State.writeOperand, SegReg.toBytes_length, h]
  have hlen : cells.length = r.toBytes.length := by rw [State.operandCells_length h, SegReg.toBytes_length]
  exact ⟨_, whenValid_ok s hv hd hsave, s.storedAt_writeLocs len hlen r.toBytes_getElem⟩

theorem State.readsFrom_length {s : State} {pre : List Pfx} {m : MemArg} {n : Nat} {cells : List Loc}
    (h : s.readsFrom pre m n cells) : cells.length = n := by
  obtain ⟨pas, hp, hl⟩ := h
  rw [← (State.locateAccess_ok hl).length_eq, State.segAddrs_length hp, MemArg.offsets_length]

theorem State.readOperand_of_readsFrom {s : State} {pre : List Pfx} {m : MemArg} {n : Nat} {cells : List Loc}
    (h : s.readsFrom pre m n cells) : s.readOperand pre m n = .ok (cells.map s.readLoc) := by
  obtain ⟨pas, hp, hl⟩ := h
  simp only [State.readOperand, State.segRead, hp, State.readAccess, hl]

/-- The register made from the bytes of ten cells has these bytes (R113, R178). -/
theorem State.mem80Byte_ofCells (s : State) {cells : List Loc} (hl : cells.length = 10) {k : Nat} {l : Loc}
    (hk : cells[k]? = some l) : mem80Byte (SegReg.ofBytes (cells.map s.readLoc)) k = s.readLoc l := by
  obtain ⟨hlt, rfl⟩ := List.getElem?_eq_some_iff.1 hk
  rw [mem80Byte_ofBytes (by simpa using hl) k (by simpa using hlt), List.getElem_map]

/-- R173, R175, R177: RSDC, RSLDT and RSTS where the ten bytes may be read, `put` saying which register is loaded. -/
theorem whenValid_restoreSegReg {s : State} {v d : Bool} {pre : List Pfx} {m : MemArg} {cells : List Loc}
    (hv : v = true) (hd : d = true) (h : s.readsFrom pre m 10 cells) (put : BaseRegs → SegReg → BaseRegs) (len : Nat) :
    ∃ t r, whenValid s v d (s.restoreSegReg pre (.mem m) put len) = .next t ∧
      (∀ k l, cells[k]? = some l → mem80Byte r k = s.readLoc l) ∧
      s.onlyBase t { put s.base r with eip := (put s.base r).eip + BitVec.ofNat 32 len } := by
  have hrestore : s.restoreSegReg pre (.mem m) put len =
      .ok (State.advance { s with base := put s.base (SegReg.ofBytes (cells.map s.readLoc)) } len) := by
    simp only [State.restoreSegReg, State.readOperand_of_readsFrom h]
  exact ⟨_, _, whenValid_ok s hv hd hrestore, fun _ _ hk => s.mem80Byte_ofCells (State.readsFrom_length h) hk,
    s.onlyBase_advance _ len⟩

/-- The encoding of a memory operand has a meaning where its prefixes and its field have one (R150). -/
theorem operandDefined {pre : List Pfx} {field : Bool} (m : MemArg) (hp : prefixesDefined pre = true)
    (hf : field = true) : (prefixesDefined pre && field && (RmArg.mem m).isMem) = true := by
  rw [hp, hf]
  rfl

theorem exec_svdc_named (s : State) (pre : List Pfx) {sreg : BitVec 3} {n : SegName} (rm : RmArg)
    (h : SegName.ofNum sreg = some n) : exec (.svdc pre sreg rm) s =
      whenValid s s.smmInstrValid (prefixesDefined pre && sregDefined sreg && rm.isMem)
        (s.saveSegReg pre rm (s.base.seg.get n) (Instr.svdc pre sreg rm).length) := by
  simp only [exec, execSvdc, h]

theorem exec_rsdc_named (s : State) (pre : List Pfx) {sreg : BitVec 3} {n : SegName} (rm : RmArg)
    (h : SegName.ofNum sreg = some n) (hn : n ≠ .cs) : exec (.rsdc pre sreg rm) s =
      whenValid s s.smmInstrValid (prefixesDefined pre && sregDefined sreg && rm.isMem)
        (s.restoreSegReg pre rm (fun b r => { b with seg := b.seg.set n r }) (Instr.rsdc pre sreg rm).length) := by
  obtain ⟨-, hne⟩ := sregDefined_of_ofNum h hn
  simp only [exec, execRsdc, h, hne, decide_false, Bool.and_false, Bool.false_eq_true, if_false]

/-! ### The operand of a save, read back (R171, R180) -/

/-- In real mode without paging a segment is accessed alike for reading and for writing. -/
theorem State.segAddrs_real {s : State} (hreal : s.base.realMode = true) (hp : s.base.paging = false) (r : SegReg)
    (k : AccessKind) (offs : List Dword) : s.segAddrs r k offs =
      if offs.all (fun o => o.toNat ≤ r.limit.toNat) then .ok (offs.map fun o => r.base + o)
      else .error (.event .protectionError) := by
  simp only [State.segAddrs, State.segPermits, hreal, Bool.true_or, Bool.and_true, State.translateEach_off hp]

/-- In real mode the cells that a store to an operand goes to are those that a read of it comes from, also after an
instruction that moved EIP only. -/
theorem State.readsFrom_of_operandCells {s t : State} {pre : List Pfx} {m : MemArg} {n : Nat} {cells : List Loc}
    {ip : Dword} (hreal : s.base.realMode = true) (hp : s.base.paging = false) (hb : t.base = { s.base with eip := ip })
    (hc : s.sameControl t) (h : s.operandCells pre m n = .ok cells) : t.readsFrom pre m n cells := by
  obtain ⟨pas, hs, hw⟩ := State.segWriteLocs_ok h
  obtain ⟨hl, -⟩ := State.writableLocs_ok hw
  have hseg : t.operandSeg pre m = s.operandSeg pre m := by simp only [State.operandSeg, hb]
  have hgpr : t.base.gpr = s.base.gpr := by rw [hb]
  have hreal' : t.base.realMode = true := by rw [hb]; exact hreal
  have hp' : t.base.paging = false := by rw [hb]; exact hp
  refine ⟨pas, ?_, by rw [hc.locateAccess, hl]⟩
  rw [hseg, hgpr, State.segAddrs_real hreal' hp', ← State.segAddrs_real hreal hp _ .write, hs]

/-- R178: a register whose ten bytes are found in the distinct cells that another's were stored in is that register. -/
theorem State.storedAt.eq_of_bytes {s t : State} {cells : List Loc} {r : SegReg} {len : Nat}
    (h : s.storedAt t cells (mem80Byte r) len) (hd : cells.Nodup) (hl : cells.length = 10) (q : SegReg)
    (hq : ∀ k l, cells[k]? = some l → mem80Byte q k = t.readLoc l) : q = r := by
  obtain ⟨-, -, -, -, hbytes⟩ := h
  refine SegReg.eq_of_mem80Byte fun k hk => ?_
  have hcell : cells[k]? = some cells[k] := List.getElem?_eq_getElem (hl ▸ hk)
  rw [hq k _ hcell, hbytes hd k _ hcell]

/-! ### The statements -/

/-- Settles O13: where RSDC exists, CS is looked at before the operand (log entry 44); elsewhere it does not exist. -/
theorem rsdcCsRaises : Obligations.RsdcCsRaises := by
  intro s pre rm hp
  cases hv : s.smmInstrValid with
  | true => simp only [exec, execRsdc, hv, hp, decide_true, Bool.and_self, if_true]
  | false => exact exec_of_not_opExists hv

/-- Settles O15: the save of the register its field names. -/
theorem svdcStores : Obligations.SvdcStores := by
  intro s pre sreg n m cells hv hp hname hn hcells
  obtain ⟨hdef, -⟩ := sregDefined_of_ofNum hname hn
  rw [exec_svdc_named s pre _ hname]
  exact whenValid_saveSegReg hv (operandDefined m hp hdef) hcells _ _

/-- Settles O16: the restore of the register its field names, with R114 for what its ten bytes say. -/
theorem rsdcLoads : Obligations.RsdcLoads := by
  intro s pre sreg n m cells hv hp hname hn hcells
  obtain ⟨hdef, -⟩ := sregDefined_of_ofNum hname hn
  rw [exec_rsdc_named s pre _ hname hn]
  obtain ⟨t, r, ht, hbytes, hbase⟩ := whenValid_restoreSegReg hv (operandDefined m hp hdef) hcells
    (fun b r => { b with seg := b.seg.set n r }) (Instr.rsdc pre sreg (.mem m)).length
  refine ⟨t, r, ht, hbytes, r.sel_eq_mem80, r.base_eq_mem80, fun limit20 hlimit => ?_, r.big_eq_mem80,
    r.rights_eq_mem80, hbase⟩
  rw [hlimit, ← r.limit20_eq_mem80, ← r.granular_eq_mem80, r.limit_toNat]

/-- Settles O17: the save of LDTR. -/
theorem svldtStores : Obligations.SvldtStores := by
  intro s pre m cells hv hp hcells
  exact whenValid_saveSegReg hv (operandDefined m hp rfl) hcells _ _

/-- Settles O18: the restore of LDTR. -/
theorem rsldtLoads : Obligations.RsldtLoads := by
  intro s pre m cells hv hp hcells
  exact whenValid_restoreSegReg hv (operandDefined m hp rfl) hcells (fun b r => { b with ldtr := r }) _

/-- Settles O19: the save of TR. -/
theorem svtsStores : Obligations.SvtsStores := by
  intro s pre m cells hv hp hcells
  exact whenValid_saveSegReg hv (operandDefined m hp rfl) hcells _ _

/-- Settles O20: the restore of TR. -/
theorem rstsLoads : Obligations.RstsLoads := by
  intro s pre m cells hv hp hcells
  exact whenValid_restoreSegReg hv (operandDefined m hp rfl) hcells (fun b r => { b with tr := r }) _

/-- Settles O21: RSDC reads the ten distinct cells that SVDC wrote (O8), where the register's own bytes stand. -/
theorem svdcRsdcRoundTrip : Obligations.SvdcRsdcRoundTrip := by
  intro s pre sreg n m cells hv hp hname hn hreal hpaging ha hcells
  obtain ⟨hdistinct, hlen⟩ := mem80CellsDistinct s pre m cells hreal hpaging ha hcells
  obtain ⟨t, ht, hstored⟩ := svdcStores s pre sreg n m cells hv hp hname hn hcells
  have hfound := hstored.eq_of_bytes hdistinct hlen
  obtain ⟨hbt, hsmhr, hctl, hmem, -⟩ := hstored
  have hvt : t.smmInstrValid = true := by rw [hctl.smmInstrValid (by rw [hbt]), hv]
  have hreads : t.readsFrom pre m 10 cells := State.readsFrom_of_operandCells hreal hpaging hbt hctl hcells
  obtain ⟨u, r, hu, hbytes, -, -, -, -, -, hbu, hsmhr', hctl', hmem'⟩ :=
    rsdcLoads t pre sreg n m cells hvt hp hname hn hreads
  refine ⟨t, u, ht, hu, ?_, fun l hl => ?_, hctl.trans hctl', hsmhr'.trans hsmhr⟩
  · have hlength : (Instr.rsdc pre sreg (.mem m)).length = (Instr.svdc pre sreg (.mem m)).length := by
      rw [Laws.LengthTable.rsdc pre sreg (.mem m), Laws.LengthTable.svdc pre sreg (.mem m)]
      rfl
    rw [hbu, hfound r hbytes, hbt, SegFile.set_get, hlength, BitVec.add_assoc, ← BitVec.ofNat_add, ← Nat.two_mul]
  · rw [hmem' l List.not_mem_nil, hmem l hl]

end Sys2Proof.Machine
end

section
/-!
SMM entry, the return from it, and the two instructions that make them (settles O24, O29, O10, O28): an entry whose
header fits leaves the state R270 describes, and RSM finds there what R192 loads.
-/
namespace Sys2Proof.Machine

/-! ### Where SMINT exists (R190) -/

/-- R190: `SmintValid` in the bits of the configuration registers. -/
theorem State.smintValid_iff (s : State) : s.smintValid = true ↔
    s.base.cpl = 0 ∧ s.cfg.ccr1.getLsbD 1 = true ∧ s.cfg.arrCF.extractLsb' 0 4 ≠ 0 ∧ s.cfg.ccr1.getLsbD 7 = true ∧
      s.cfg.ccr1.getLsbD 2 = true := by
  simp [State.smintValid, CfgRegs.smmConfigured, CfgRegs.useSmi, CfgRegs.sm3, CfgRegs.smac, CfgRegs.arr3SizeCode,
    and_assoc]

/-! ### Fields of memory, read by their bits (R110) -/

theorem ofNat_byte_getLsbD (v : Dword) (k : Nat) {i : Nat} (hi : i < 8) :
    (BitVec.ofNat 8 (v.toNat / 256 ^ k)).getLsbD i = v.getLsbD (8 * k + i) := by
  have hpow : 256 ^ k = 2 ^ (8 * k) := (pow_mul 2 8 k).symm
  rw [BitVec.getLsbD_ofNat, hpow, Nat.testBit_div_two_pow, BitVec.testBit_toNat, Nat.add_comm]
  simp [hi]

/-- Memory that holds a field holds its low bytes, and these are any dword's with the same low bits. -/
theorem State.fieldIs.low {s : State} {st : StoreId} {a v w : Dword} {m n : Nat} (h : s.fieldIs st a m v.toNat)
    (hn : n ≤ m) (hbits : ∀ j, j < 8 * n → v.getLsbD j = w.getLsbD j) : s.fieldIs st a n w.toNat := by
  intro k hk
  rw [h k (by omega)]
  apply BitVec.eq_of_getLsbD_eq
  intro i hi
  rw [ofNat_byte_getLsbD v k hi, ofNat_byte_getLsbD w k hi, hbits _ (by omega)]

/-- R118, R273: the valid bits of the data field are those of the bytes that were written. -/
theorem IoInfo.validData_getLsbD {i : IoInfo} (hw : i.write = true) {j : Nat} (hj : j < 8 * i.size.bytes) :
    i.validData.getLsbD j = true := by
  rw [IoInfo.validData, if_pos hw]
  cases hs : i.size with
  | byte =>
    have key : ∀ j < 8, (0x000000FF : Dword).getLsbD j = true := by decide
    exact key j (by rwa [hs] at hj)
  | word =>
    have key : ∀ j < 16, (0x0000FFFF : Dword).getLsbD j = true := by decide
    exact key j (by rwa [hs] at hj)
  | dword =>
    have key : ∀ j < 32, (0xFFFFFFFF : Dword).getLsbD j = true := by decide
    exact key j (by rwa [hs] at hj)

theorem Width.bytes_le (w : Width) : w.bytes ≤ 4 := by
  cases w <;> decide

/-! ### What an entry leaves (R270, R274) -/

/-- R274: the registers an entry loads. -/
theorem State.entryRegisters_of_base {s t : State} (h : t.base = entryRegs s.cfg s.base) : s.entryRegisters t := by
  obtain ⟨hlimit, hbig⟩ := entryCsDesc_limit s.cfg Config.smmEntryCsSelector
  exact ⟨_, entryCsDesc_base s.cfg Config.smmEntryCsSelector, hlimit, hbig, h⟩

section Entry

variable {s t : State} {a : EntryArgs} {st : StoreId}

/-- R116, R270: after an entry each field of the header stands at its distance below the pointer. -/
theorem State.enterSmm_field (h : s.headerFits st) (ht : s.enterSmm a = .ok t) {d n v : Nat}
    (hf : (d, n, v) ∈ headerFields s a) : t.fieldIs st (s.entryTop - BitVec.ofNat 32 d) n v := by
  rw [State.enterSmm_fits h] at ht
  obtain rfl := Except.ok.inj ht
  exact headerCells_field (u := s.entering) hf

/-- R118, R273: the I/O fields describe the I/O instruction just executed. -/
theorem State.enterSmm_ioFields (h : s.headerFits st) (ht : s.enterSmm a = .ok t) {i : IoInfo} (hi : a.io = some i) :
    t.ioFieldsAre st s.entryTop i := by
  have field := fun d n v => State.enterSmm_field (d := d) (n := n) (v := v) h ht
  refine ⟨field 0x10 4 _ ?_, field 0x26 2 _ ?_, field 0x28 2 _ ?_, fun hw => ?_, field 0x30 4 _ ?_⟩
  · simp [headerFields, hi]
  · cases hs : i.size <;> simp [headerFields, hi, hs, Width.code]
  · simp [headerFields, hi]
  · have hdata := field 0x2C 4 ((i.data &&& i.validData) ||| (s.drawn 6 32 &&& ~~~i.validData)).toNat
      (by simp [headerFields, hi])
    refine hdata.low i.size.bytes_le fun j hj => ?_
    simp [IoInfo.validData_getLsbD hw hj]
  · simp [headerFields, hi]

/-- R116, R270: the header an entry writes. -/
theorem State.enterSmm_headerIs (h : s.headerFits st) (ht : s.enterSmm a = .ok t) : s.headerIs t a st := by
  have field := fun d n v => State.enterSmm_field (d := d) (n := n) (v := v) h ht
  have flags : s.entryFlagsAre a (entryFlags s a (s.drawn 2 32) ((s.drawn 3 1).getLsbD 0)) := entryFlags_bits s a _ _
  exact ⟨field 0x04 4 _ (by simp [headerFields]), field 0x08 4 _ (by simp [headerFields]),
    field 0x0C 4 _ (by simp [headerFields]), fun n hn => field 0x14 4 _ (by simp [headerFields, hn]),
    field 0x18 2 _ (by simp [headerFields]), field 0x20 8 _ (by simp [headerFields]),
    ⟨_, field 0x24 4 _ (by simp [headerFields]), flags⟩, fun i hi => State.enterSmm_ioFields h ht hi⟩

/-- R270: an entry writes nothing outside its header. -/
theorem State.enterSmm_sameMemoryOutside (h : s.headerFits st) (ht : s.enterSmm a = .ok t) :
    s.sameMemoryOutside t (cellsBelow st s.entryTop 48) := by
  rw [State.enterSmm_fits h] at ht
  obtain rfl := Except.ok.inj ht
  intro l hl
  exact State.readLoc_writeLocs_of_notMem _ s.entering l fun hm => hl (headerCells_mem_below hm)

/-- R270: an entry whose header fits completes. -/
theorem State.enterSmm_entered (a : EntryArgs) (h : s.headerFits st) :
    ∃ t, s.enterSmm a = .ok t ∧ s.entered t a st := by
  have ht := State.enterSmm_fits (a := a) h
  refine ⟨_, ht, ?_, ?_, rfl, State.entryRegisters_of_base rfl, State.enterSmm_headerIs h ht,
    State.enterSmm_sameMemoryOutside h ht, ?_⟩
  · simp
  · simp
  · simp

/-! ### RSM after an entry (R192, R281, R286) -/

/-- R68: an entry leaves SMHR valid. -/
theorem smhrForEntry_valid (s : State) : (smhrForEntry s.cfg s.smhr).getLsbD 0 = true := by
  obtain ⟨hkept, hmade⟩ := entryPointer s
  cases hv : s.smhr.getLsbD 0 with
  | true => rw [hkept hv, hv]
  | false => obtain ⟨hvalid, -⟩ := hmade hv; exact hvalid

/-- R170: after an entry RSM exists, the handler running at CPL 0 inside SMM. -/
theorem State.entered.smmInstrValid (h : s.entered t a st) (hc : s.cfg.smmConfigured = true) :
    t.smmInstrValid = true := by
  obtain ⟨hsmm, -, hcfg, ⟨cs, -, -, -, hbase⟩, -⟩ := h
  have hconf : t.cfg.smmConfigured = true := by rw [hcfg]; exact hc
  simp [State.smmInstrValid, hbase, hconf, hsmm]

/-- R104: accesses after an entry are routed as those that wrote the header were. -/
theorem State.entered.locate (h : s.entered t a st) : t.locate = s.entering.locate := by
  obtain ⟨hsmm, -, hcfg, -, -, -, -, -, -, -, ha20, -⟩ := h
  exact State.locate_congr_regs (by rw [hcfg]; rfl) (by rw [hcfg]; rfl) (by rw [hcfg]; rfl) (by rw [hcfg]; rfl)
    (by rw [hsmm]; rfl) (by rw [ha20]; rfl)

/-- The bytes RSM reads lie where the entry wrote them. -/
theorem State.entered.placedBelow (h : s.entered t a st) (hfits : s.headerFits st) {n : Nat} (hn : n ≤ 48) :
    t.placedBelow st s.entryTop n := by
  obtain ⟨hplaced, -⟩ := hfits
  intro k hk hkn
  rw [h.locate]
  exact hplaced k hk (by omega)

/-- R49: a value of CR0 replaced under LOCK_NW and put back under it is as it was. -/
theorem keepNw_keepNw (c : CfgRegs) (old new : Dword) : keepNw c (keepNw c old new) old = old := by
  cases hl : c.lockNw with
  | true =>
    have hnw := keepNw_nw hl old new
    rw [keepNw, if_pos hl, hnw, setBit_self]
  | false => simp [keepNw, hl]

/-- R62: CCR6.N, cleared and then set, is set. -/
theorem CfgRegs.setNest_clear_set (c : CfgRegs) : (c.setNest false).setNest true = c.setNest true := by
  have hbits : ∀ b : Byte, b &&& 0xBF ||| 0x40 = b ||| 0x40 := by decide
  simp only [CfgRegs.setNest, if_true, Bool.false_eq_true, if_false, hbits]

/-- R192, R281: what RSM makes of the registers that an entry has loaded and of those that it has saved. -/
theorem resumeRegs_entryRegs (c : CfgRegs) (b : BaseRegs) (n flags : Dword) (hcpl : headerCpl flags = b.cpl) :
    resumeRegs (c.setNest false) (entryRegs c b) ⟨b.dr7, b.eflags, b.cr0, n, b.seg.cs.sel, b.seg.cs.desc, flags⟩ =
      { b with eip := n, activity := .running } := by
  have hnw : keepNw (c.setNest false) (keepNw c b.cr0 Config.resetCr0) b.cr0 = b.cr0 := keepNw_keepNw c _ _
  simp only [resumeRegs, entryRegs, hnw, hcpl]
  rfl

end Entry

/-! ### The statements -/

/-- Settles O24: SMINT, where it exists, is an entry with its own arguments. -/
theorem smintEnters : Obligations.SmintEnters := by
  intro s pre st hv hp hfits
  have hlength : (Instr.smint pre).length = pre.length + 2 := Laws.LengthTable.smint pre
  obtain ⟨t, ht, hentered⟩ := State.enterSmm_entered (smintArgs s (Instr.smint pre).length) hfits
  refine ⟨t, whenValid_ok s hv hp (by rw [ht]; rfl), ?_⟩
  rw [hlength] at hentered
  exact hentered

/-- Settles O29: RSM finds the entry's header in memory and loads it (O27). -/
theorem entryThenResume : Obligations.EntryThenResume := by
  intro s a n st hc hn hfits
  obtain ⟨t, ht, hentered⟩ := State.enterSmm_entered a hfits
  obtain ⟨hcfg, hsmhr, -, hbase⟩ := State.enterSmm_keeps ht
  have hvalid := hentered.smmInstrValid hc
  have hplaced := hentered.placedBelow hfits (n := 0x24) (by decide)
  have htop : s.entryTop = hdrTop t.smhr := by rw [hsmhr]; rfl
  obtain ⟨-, -, -, -, hheader, hmem, hidx, hsmi, hnmi, -⟩ := hentered
  obtain ⟨hdr7, hfl, hcr0, hip, hsel, hdesc, ⟨flags, hflags, -, -, -, hN, hcpl, -⟩, -⟩ := hheader
  rw [htop] at hplaced hdr7 hfl hcr0 hip hsel hdesc hflags
  have hrsm := rsmResumes t [] st _ _ _ n flags _ _ hvalid rfl (by rw [hsmhr]; exact smhrForEntry_valid s) hplaced
    hdr7 hfl hcr0 (hip n hn) hsel hdesc hflags
  refine ⟨t, _, ht, hrsm, ?_, hN, ?_, hsmhr, hmem, hidx, hsmi, hnmi⟩
  · rw [hbase, hcfg]
    exact resumeRegs_entryRegs s.cfg s.base n flags hcpl
  · rw [hcfg]
    exact s.cfg.setNest_clear_set

/-- Settles O10: SMINT's predicate field by field, SMAC being what the pin's asks to be clear. -/
theorem smintValidity : Obligations.SmintValidity := by
  intro s pre
  refine ⟨s.smintValid_iff, fun hv => exec_of_not_opExists hv, fun hv => ?_⟩
  obtain ⟨-, -, -, -, hsmac⟩ := s.smintValid_iff.1 hv
  rw [State.smiPinEnabled, CfgRegs.smac, hsmac, Bool.not_true, Bool.and_false]

/-- Settles O28: the instruction exists, and its effect asks for SMHR's valid bit first (D37). -/
theorem rsmNeedsValidSmhr : Obligations.RsmNeedsValidSmhr := by
  intro s pre hv hp hinvalid
  have hrefused : s.resumeFromSmm = .error .smhrInvalid := by
    rw [State.resumeFromSmm, smhrValid, hinvalid, if_neg Bool.false_ne_true]
  simp only [exec, execRsm, whenValid, hv, hp, if_true, hrefused, liftRefusal, finish]

end Sys2Proof.Machine
end

section
/-!
RDSHR and WRSHR (settles O22, O23): the four bytes of a doubleword, each way, and what is left by loading SMHR alone.
-/
namespace Sys2Proof.Machine

/-! ### The bytes of a word, least significant first (R110) -/

theorem toLE_getElem_eq_extractLsb' {w : Nat} (v : BitVec w) (n k : Nat) (h : k < (toLE n v.toNat).length) :
    (toLE n v.toNat)[k] = v.extractLsb' (8 * k) 8 := by
  rw [toLE_getElem, BitVec.extractLsb', Nat.shiftRight_eq_div_pow, Nat.pow_mul]

/-- A word made from exactly the bytes it holds has each of them in its place. -/
theorem extractLsb'_ofLE {w : Nat} {bs : List Byte} (hw : w = 8 * bs.length) {k : Nat} (hk : k < bs.length) :
    (BitVec.ofNat w (ofLE bs)).extractLsb' (8 * k) 8 = bs[k] := by
  have hlt : ofLE bs < 2 ^ w := by
    rw [hw, Nat.pow_mul]
    exact ofLE_lt bs
  have hbytes : toLE bs.length (BitVec.ofNat w (ofLE bs)).toNat = bs := by
    rw [BitVec.toNat_ofNat, Nat.mod_eq_of_lt hlt, toLE_ofLE]
  rw [← toLE_getElem_eq_extractLsb' _ bs.length k (hbytes.symm ▸ hk)]
  simp only [hbytes]

/-- SMHR as WRSHR makes it from the bytes of four cells (R211). -/
theorem State.extractLsb'_ofCells (s : State) {cells : List Loc} (hl : cells.length = 4) {k : Nat} {l : Loc}
    (hk : cells[k]? = some l) :
    (BitVec.ofNat 32 (ofLE (cells.map s.readLoc))).extractLsb' (8 * k) 8 = s.readLoc l := by
  obtain ⟨hlt, rfl⟩ := List.getElem?_eq_some_iff.1 hk
  rw [extractLsb'_ofLE (by rw [List.length_map, hl]) (by rwa [List.length_map]), List.getElem_map]

/-! ### What the two instructions leave -/

theorem State.writeOperand_of_operandCells {s : State} {pre : List Pfx} {m : MemArg} {cells : List Loc} {bs : List Byte}
    (h : s.operandCells pre m bs.length = .ok cells) : s.writeOperand pre m bs = .ok (s.writeLocs (cells.zip bs)) := by
  simp only [State.writeOperand, h]

/-- SMHR loaded, then EIP advanced: memory and the control state stay. -/
theorem State.advance_smhr_frame (s : State) (v : Dword) (len : Nat) :
    (State.advance { s with smhr := v } len).base = { s.base with eip := s.base.eip + BitVec.ofNat 32 len } ∧
      s.sameControl (State.advance { s with smhr := v } len) ∧
      s.sameMemoryOutside (State.advance { s with smhr := v } len) [] :=
  ⟨rfl, ⟨rfl, rfl, rfl, rfl, rfl, rfl, rfl, rfl, rfl, rfl, rfl, rfl⟩, fun _ _ => rfl⟩

/-- The encoding of an instruction with a fixed field of zero has a meaning where its prefixes have one (R150). -/
theorem fieldZeroDefined {pre : List Pfx} (hp : prefixesDefined pre = true) :
    (prefixesDefined pre && (0 : BitVec 3) = 0) = true := by
  rw [hp]
  rfl

theorem exec_rdshr_reg {s : State} {pre : List Pfx} (hv : s.smmInstrValid = true) (hp : prefixesDefined pre = true)
    (r : GReg) : exec (.rdshr pre 0 (.reg r)) s = .next (State.advance
      { s with base := { s.base with gpr := s.base.gpr.set r s.smhr } } (Instr.rdshr pre 0 (.reg r)).length) :=
  whenValid_ok s hv (fieldZeroDefined hp) rfl

theorem exec_rdshr_mem {s : State} {pre : List Pfx} {m : MemArg} {cells : List Loc} (hv : s.smmInstrValid = true)
    (hp : prefixesDefined pre = true) (h : s.operandCells pre m 4 = .ok cells) :
    exec (.rdshr pre 0 (.mem m)) s = .next
      ((s.writeLocs (cells.zip (toLE 4 s.smhr.toNat))).advance (Instr.rdshr pre 0 (.mem m)).length) := by
  have hwrite := State.writeOperand_of_operandCells (bs := toLE 4 s.smhr.toNat) (by rwa [toLE_length])
  exact whenValid_ok s hv (fieldZeroDefined hp) (by simp only [hwrite])

theorem exec_wrshr_reg {s : State} {pre : List Pfx} (hv : s.smmInstrValid = true) (hp : prefixesDefined pre = true)
    (r : GReg) : exec (.wrshr pre 0 (.reg r)) s = .next (State.advance
      { s with smhr := s.base.gpr.get r } (Instr.wrshr pre 0 (.reg r)).length) :=
  whenValid_ok s hv (fieldZeroDefined hp) rfl

theorem exec_wrshr_mem {s : State} {pre : List Pfx} {m : MemArg} {cells : List Loc} (hv : s.smmInstrValid = true)
    (hp : prefixesDefined pre = true) (h : s.readsFrom pre m 4 cells) :
    exec (.wrshr pre 0 (.mem m)) s = .next (State.advance
      { s with smhr := BitVec.ofNat 32 (ofLE (cells.map s.readLoc)) } (Instr.wrshr pre 0 (.mem m)).length) :=
  whenValid_ok s hv (fieldZeroDefined hp) (by simp only [State.readOperand_of_readsFrom h])

/-! ### The statements -/

/-- Settles O22: the register form changes base registers only; the memory form stores SMHR's four bytes. -/
theorem rdshrGivesSmhr : Obligations.RdshrGivesSmhr := by
  intro s pre hv hp
  refine ⟨fun r => ⟨_, exec_rdshr_reg hv hp r, ?_⟩, fun m cells hcells => ⟨_, exec_rdshr_mem hv hp hcells, ?_⟩⟩
  · have hlength : (Instr.rdshr pre 0 (.reg r)).length = pre.length + 3 := Laws.LengthTable.rdshr pre 0 (.reg r)
    rw [hlength]
    exact s.onlyBase_advance _ _
  · have hlen : cells.length = (toLE 4 s.smhr.toNat).length := by rw [State.operandCells_length hcells, toLE_length]
    exact s.storedAt_writeLocs _ hlen (toLE_getElem_eq_extractLsb' s.smhr 4)

/-- Settles O23: both forms load SMHR only, the memory form with the operand's bytes each in its place. -/
theorem wrshrLoadsSmhr : Obligations.WrshrLoadsSmhr := by
  intro s pre hv hp
  refine ⟨fun r => ⟨_, exec_wrshr_reg hv hp r, rfl, ?_⟩, fun m cells hreads =>
    ⟨_, exec_wrshr_mem hv hp hreads, fun _ _ hk => s.extractLsb'_ofCells (State.readsFrom_length hreads) hk,
      s.advance_smhr_frame _ _⟩⟩
  have hlength : (Instr.wrshr pre 0 (.reg r)).length = pre.length + 3 := Laws.LengthTable.wrshr pre 0 (.reg r)
  rw [hlength]
  exact s.advance_smhr_frame _ _

end Sys2Proof.Machine
end

section
/-!
Ports 22h and 23h and the I/O instructions OUT and REP OUTS (settles O42, O44, O45, O46, O47): what each of the two ports
does by the window and the index in it, and the record an I/O instruction leaves.
-/
namespace Sys2Proof

namespace Machine

/-! ### Ports 22h and 23h (R221) -/

theorem State.ioWrite_index (s : State) (v : Dword) :
    s.ioWrite 0x22 .byte v = .ok { s with cfgIndex := some (v.setWidth 8) } := rfl

theorem State.ioRead_index (s : State) : s.ioRead 0x22 .byte = .ok (s.offChipRead 0x22 .byte) := rfl

theorem State.ioWrite_data (s : State) (v : Dword) : s.ioWrite 0x23 .byte v = s.dataPortWrite v := rfl

theorem State.ioRead_data (s : State) : s.ioRead 0x23 .byte = s.dataPortRead := rfl

theorem widePort_iff (p : Word16) (w : Width) :
    widePort p w = true ↔ w ≠ .byte ∧ p.toNat ≤ 0x23 ∧ 0x22 < p.toNat + w.bytes := by
  simp [widePort]

/-- R221, D15: a port access of more than one byte that touches port 22h or 23h is refused. -/
theorem State.io_wide (s : State) {p : Word16} {w : Width} (h : widePort p w = true) (v : Dword) :
    s.ioWrite p w v = .error .widePortAccess ∧ s.ioRead p w = .error .widePortAccess :=
  ⟨if_pos h, if_pos h⟩

/-! ### Port 23h by the window (R222 to R225) -/

/-- R225: with no index selected the access goes off chip. -/
theorem State.dataPort_empty {s : State} (hi : s.cfgIndex = none) (v : Dword) :
    s.dataPortWrite v = .ok (s.offChipWrite 0x23 .byte v) ∧ s.dataPortRead = .ok (s.offChipRead 0x23 .byte) := by
  simp only [State.dataPortWrite, State.dataPortRead, hi]
  exact ⟨rfl, rfl⟩

/-- R224: with an index that is not accessible the access goes off chip and the window is emptied. -/
theorem State.dataPort_inaccessible {s : State} {idx : Byte} (hi : s.cfgIndex = some idx)
    (ha : accessible s.cfg idx = .ok false) (v : Dword) :
    s.dataPortWrite v = .ok (s.closeWindow.offChipWrite 0x23 .byte v) ∧
      s.dataPortRead = .ok (s.closeWindow.offChipRead 0x23 .byte) := by
  simp only [State.dataPortWrite, State.dataPortRead, hi, ha]
  exact ⟨rfl, rfl⟩

theorem State.dataPort_refused {s : State} {idx : Byte} {r : Refusal} (hi : s.cfgIndex = some idx)
    (ha : accessible s.cfg idx = .error r) (v : Dword) :
    s.dataPortWrite v = .error r ∧ s.dataPortRead = .error r := by
  simp only [State.dataPortWrite, State.dataPortRead, hi, ha, and_self]

/-- R222: a byte written with an accessible index is written to that register, and the window is closed. -/
theorem State.dataPortWrite_accessible {s : State} {idx : Byte} (hi : s.cfgIndex = some idx)
    (ha : accessible s.cfg idx = .ok true) (v : Dword) :
    s.dataPortWrite v = (s.cfgWrite idx (v.setWidth 8)).map State.closeWindow := by
  simp only [State.dataPortWrite, hi, ha]
  cases s.cfgWrite idx (v.setWidth 8) <;> rfl

/-- R223: a byte read with an accessible index is that register's, and the window is closed. -/
theorem State.dataPortRead_accessible {s : State} {idx : Byte} (hi : s.cfgIndex = some idx)
    (ha : accessible s.cfg idx = .ok true) :
    s.dataPortRead = (cfgRead s.cfg idx).map fun b => (b.setWidth 32, s.closeWindow) := by
  simp only [State.dataPortRead, hi, ha]
  cases cfgRead s.cfg idx <;> rfl

/-! ### Indexes (R69, R224) -/

/-- R69: the source defines no other index. -/
theorem cfgRead_undefined (c : CfgRegs) {idx : Byte}
    (h : idx ∉ [0xC0, 0xC1, 0xC2, 0xC3, 0xCD, 0xCE, 0xCF, 0xE8, 0xE9, 0xEA]) :
    cfgRead c idx = .error .undefinedConfigIndex := by
  simp only [List.mem_cons, List.not_mem_nil, or_false, not_or, ← BitVec.toNat_inj] at h
  unfold cfgRead
  split <;> simp_all

theorem lowIndex_eq (idx : Byte) :
    lowIndex idx = decide (0xC0 ≤ idx.toNat ∧ idx.toNat ≤ 0xCF ∨ idx = 0xFE ∨ idx = 0xFF) := by
  simp only [lowIndex, Bool.decide_or, Bool.decide_and, Bool.or_assoc]

theorem accessible_undefinedMapen {c : CfgRegs} (h0 : c.mapen ≠ 0) (h1 : c.mapen ≠ 1) (idx : Byte) :
    accessible c idx = .error .undefinedMapen := by
  simp only [accessible, if_neg h0, if_neg h1]

/-! ### I/O instructions in real mode (R227) -/

/-- In real mode `Base` permits every port write (log entry 16). -/
theorem State.portOut_real {s u : State} {p : Word16} {w : Width} {v : Dword} (hreal : s.base.realMode = true)
    (hw : s.ioWrite p w v = .ok u) : s.portOut p w v = .ok u := by
  have hperm : s.ioPermitted p w = true := by rw [State.ioPermitted, hreal, Bool.true_or]
  simp only [State.portOut, if_pos hperm, hw]

/-- An OUT whose port write completes, with the record it leaves (R271, R273). -/
theorem State.execOut_real {s u : State} {w : Width} {p : PortArg} (hreal : s.base.realMode = true)
    (hw : s.ioWrite (p.value s.base.gpr) w (s.base.gpr.part w 0) = .ok u) (len : Nat) :
    s.execOut w p len = .ok { u with
      base := s.base.past len
      lastIo := some ⟨s.base.eip, false, true, w, p.value s.base.gpr, s.base.gpr.part w 0, s.base.gpr.esi⟩ } := by
  simp only [State.execOut, State.portOut_real hreal hw]

/-- The general registers after one iteration of OUTS: the index register moved, then the count taken down. -/
def BaseRegs.outsGpr (b : BaseRegs) (w : Width) (rep a32 : Bool) : Gpr :=
  countDown (moveIndex b.gpr a32 .esi (stringStep b.eflags w)) rep a32

/-- An iteration of OUTS whose accesses complete, with the record it leaves (R271, R273). -/
theorem State.execOuts_real {s u : State} {w : Width} {rep a32 : Bool} {pre : List Pfx} {bs : List Byte}
    (hreal : s.base.realMode = true) (hcount : s.base.gpr.sized a32 .ecx ≠ 0)
    (hread : s.segRead (s.base.seg.get ((overrideSeg pre).getD .ds))
      (stringOffsets a32 (s.base.gpr.sized a32 .esi) w.bytes) = .ok bs)
    (hw : s.ioWrite (s.base.gpr.get16 .edx) w (BitVec.ofNat 32 (ofLE bs)) = .ok u) (len : Nat) :
    s.execOuts w rep a32 pre len = .ok { u with
      base := { s.base.pastIteration rep len with gpr := s.base.outsGpr w rep a32 }
      lastIo := some ⟨s.base.eip, rep, true, w, s.base.gpr.get16 .edx, BitVec.ofNat 32 (ofLE bs), s.base.gpr.esi⟩ } := by
  have hgo : s.base.repDone rep a32 = false := by
    rw [BaseRegs.repDone, decide_eq_false hcount, Bool.and_false]
  simp only [State.execOuts, hgo, Bool.false_eq_true, if_false, hread, State.portOut_real hreal hw]
  rfl

/-! ### The count register (R271) -/

theorem dword_and_ffff_toNat (v : Dword) : (v &&& 0xFFFF).toNat = v.toNat % 2 ^ 16 := by
  rw [BitVec.toNat_and]
  exact Nat.and_two_pow_sub_one_eq_mod v.toNat 16

/-- Counting down from a value that is not zero stays within the address size. -/
theorem sized_sub_one (g : Gpr) (a32 : Bool) (r : GReg) (h : g.sized a32 r ≠ 0) :
    (if a32 then g.sized a32 r - 1 else (g.sized a32 r - 1) &&& 0xFFFF) = g.sized a32 r - 1 := by
  cases a32 with
  | true => rfl
  | false =>
    have hv : g.sized false r = g.get r &&& 0xFFFF := rfl
    have hlt : (g.sized false r).toNat < 2 ^ 16 := by rw [hv, dword_and_ffff_toNat]; omega
    apply BitVec.eq_of_toNat_eq
    rw [if_neg Bool.false_ne_true, dword_and_ffff_toNat]
    generalize g.sized false r = x at *
    bv_omega

/-- The low half of a register is what was written there. -/
theorem dword_low_half (old v : Dword) : ((old &&& 0xFFFF0000) ||| (v &&& 0xFFFF)) &&& 0xFFFF = v &&& 0xFFFF := by
  rw [BitVec.and_or_distrib_right, BitVec.and_assoc, BitVec.and_assoc]
  simp

/-- A count or index register written at an address size: its own value cut to that size, the others' as before. -/
theorem Gpr.sized_setSized (g : Gpr) (a32 : Bool) (r q : GReg) (v : Dword) :
    (g.setSized a32 r v).sized a32 q =
      if q = r then (if a32 then v else v &&& 0xFFFF) else g.sized a32 q := by
  cases a32 with
  | true => exact Gpr.get_set g r q v
  | false =>
    simp only [Gpr.sized, Gpr.setSized, Bool.false_eq_true, if_false, Gpr.get_set]
    split
    · subst q
      exact dword_low_half _ v
    · rfl

/-- The iteration takes one off the count; the index register it moves is another one. -/
theorem BaseRegs.outsGpr_count (b : BaseRegs) (w : Width) {a32 : Bool} (h : b.gpr.sized a32 .ecx ≠ 0) :
    (b.outsGpr w true a32).sized a32 .ecx = b.gpr.sized a32 .ecx - 1 := by
  have hmove : (moveIndex b.gpr a32 .esi (stringStep b.eflags w)).sized a32 .ecx = b.gpr.sized a32 .ecx := by
    rw [moveIndex, Gpr.sized_setSized, if_neg (by decide)]
  rw [BaseRegs.outsGpr, countDown, if_pos rfl, Gpr.sized_setSized, if_pos rfl, hmove]
  exact sized_sub_one b.gpr a32 .ecx h

end Machine

/-! ### The statements -/

open Machine

/-- Settles O42: the byte accesses as the model gives them, the wide ones refused before the port is looked at. -/
theorem indexPort : Obligations.IndexPort := fun s v =>
  ⟨s.ioWrite_index v, s.ioRead_index, rfl, rfl,
    fun p w hw hle hlt => s.io_wide ((widePort_iff p w).2 ⟨hw, hle, hlt⟩) v⟩

/-- Settles O44: by whether an index is selected. -/
theorem dataPort : Obligations.DataPort := by
  intro s v
  refine ⟨fun idx u hi ha hw => ?_, fun idx b hi ha hr => ?_, fun idx hi ha hr => ?_,
    ⟨rfl, rfl, rfl, rfl, rfl, rfl, rfl, rfl, rfl, rfl, fun idx => cfgRead_undefined s.cfg⟩,
    fun hi => State.dataPort_empty hi v, rfl, rfl, ?_⟩
  · rw [State.ioWrite_data, State.dataPortWrite_accessible hi ha, hw]; rfl
  · rw [State.ioRead_data, State.dataPortRead_accessible hi ha, hr]; rfl
  · rw [State.ioRead_data, State.dataPortRead_accessible hi ha, hr]; rfl
  · rintro u (rfl | rfl) <;> exact ⟨rfl, rfl, rfl⟩

/-- Settles O45: by MAPEN, then port 23h by what the index is. -/
theorem accessibleIndexes : Obligations.AccessibleIndexes := by
  intro s idx v
  refine ⟨fun h0 => ?_, fun h1 => ?_, fun h0 h1 => ?_, fun hi ha => State.dataPort_inaccessible hi ha v⟩
  · rw [accessible, if_pos h0, lowIndex_eq]
  · rw [accessible, if_neg (by rw [h1]; decide), if_pos h1]
  · have ha := accessible_undefinedMapen h0 h1 idx
    exact ⟨ha, fun hi => State.dataPort_refused hi ha v⟩

/-- Settles O46: the port write is permitted, and the record is what the instruction was. -/
theorem outDescribed : Obligations.OutDescribed := by
  intro s u w p len hreal hw
  exact congrArg (finish s) (State.execOut_real hreal hw len)

/-- Settles O47: one iteration, whose move of the index register leaves the count. -/
theorem repOutsIteration : Obligations.RepOutsIteration := by
  intro s u w a32 pre len bs hreal hcount hread hw
  exact ⟨_, _, congrArg (finish s) (State.execOuts_real (rep := true) hreal hcount hread hw len), rfl,
    s.base.outsGpr_count w hcount, rfl, rfl, rfl, rfl, rfl, rfl, rfl, rfl, rfl, rfl, rfl⟩

end Sys2Proof
end

section
/-!
The delivery of an event, the NMI at the boundary, and base instructions at a step (settles O12, O34, O5).
-/
namespace Sys2Proof.Machine

/-! ### Writes of several accesses (R123) -/

theorem State.writableLocs_writeLocs (s : State) (xs : List (Loc × Byte)) :
    (s.writeLocs xs).writableLocs = s.writableLocs :=
  State.writableLocs_congr (State.locate_congr (by simp) (by simp) (by simp))
    (State.checkWrite_congr (by simp) (by simp) (by simp))

theorem State.writableLocs_length {s : State} {pas : List Dword} {cells : List Loc} (h : s.writableLocs pas = .ok cells) :
    cells.length = pas.length :=
  (State.locateAccess_ok (State.writableLocs_ok h).1).length_eq.symm

/-- A writable access before others: its cells are written, then the others go on. -/
theorem State.writeAccesses_cons {s : State} {pas : List Dword} {bs : List Byte} {cells : List Loc}
    (hw : s.writableLocs pas = .ok cells) (hl : pas.length = bs.length) (rest : List (List (Dword × Byte))) :
    s.writeAccesses (pas.zip bs :: rest) = (s.writeLocs (cells.zip bs)).writeAccesses rest := by
  have hfst : (pas.zip bs).map Prod.fst = pas := List.map_fst_zip (le_of_eq hl)
  have hsnd : (pas.zip bs).map Prod.snd = bs := List.map_snd_zip (le_of_eq hl.symm)
  simp only [State.writeAccesses, State.writeAccess_eq (hfst.symm ▸ hw), hsnd]

/-- Three accesses in order write the cells of the first, then the second's, then the third's: what is writable does not
depend on the memories. -/
theorem State.writeAccesses_three {s : State} {p₁ p₂ p₃ : List Dword} {b₁ b₂ b₃ : List Byte} {c₁ c₂ c₃ : List Loc}
    (h₁ : s.writableLocs p₁ = .ok c₁) (h₂ : s.writableLocs p₂ = .ok c₂) (h₃ : s.writableLocs p₃ = .ok c₃)
    (l₁ : p₁.length = b₁.length) (l₂ : p₂.length = b₂.length) (l₃ : p₃.length = b₃.length) :
    s.writeAccesses [p₁.zip b₁, p₂.zip b₂, p₃.zip b₃] = .ok (s.writeLocs ((c₁ ++ c₂ ++ c₃).zip (b₁ ++ b₂ ++ b₃))) := by
  have k₁ : c₁.length = b₁.length := (State.writableLocs_length h₁).trans l₁
  have k₂ : c₂.length = b₂.length := (State.writableLocs_length h₂).trans l₂
  have hz : (c₁ ++ c₂ ++ c₃).zip (b₁ ++ b₂ ++ b₃) = c₁.zip b₁ ++ c₂.zip b₂ ++ c₃.zip b₃ := by
    rw [List.zip_append (by rw [List.length_append, List.length_append, k₁, k₂]), List.zip_append k₁]
  rw [State.writeAccesses_cons h₁ l₁, State.writeAccesses_cons (by rw [State.writableLocs_writeLocs, h₂]) l₂,
    State.writeAccesses_cons (by rw [State.writableLocs_writeLocs, State.writableLocs_writeLocs, h₃]) l₃, hz,
    State.writeLocs_append, State.writeLocs_append]
  rfl

/-! ### Delivery in real mode (R277, R279; log entry 28) -/

/-- A word is pushed at two addresses. -/
theorem State.pushAddrs_length {s : State} {k : Nat} {pas : List Dword} (h : s.pushAddrs k = .ok pas) : pas.length = 2 :=
  State.segAddrs_length h

/-- The cells of a pushed word are two. -/
theorem State.pushCells_length {s : State} {k : Nat} {pas : List Dword} {cells : List Loc} (h : s.pushAddrs k = .ok pas)
    (hw : s.writableLocs pas = .ok cells) : cells.length = 2 :=
  (State.writableLocs_length hw).trans (State.pushAddrs_length h)

/-- The six bytes a real-mode delivery stores, in the order it stores them: FLAGS, CS, EIP. -/
def BaseRegs.returnBytes (b : BaseRegs) : List Byte :=
  toLE 2 b.eflags.toNat ++ toLE 2 b.seg.cs.sel.toNat ++ toLE 2 b.eip.toNat

/-- A delivery through the table that can read its entry and write its three words: the words stored, then CS and EIP
from the entry. -/
theorem State.deliver_real {s : State} {e : BaseEvent} {entry : List Byte} {fl cs ip : List Dword} {lf lc li : List Loc}
    (hreal : s.base.realMode = true) (hp : s.base.paging = false)
    (hlimit : 4 * e.vector.toNat + 3 ≤ s.base.idtr.limit.toNat)
    (hentry : s.readAccess (physAddrs (s.base.idtr.base + BitVec.ofNat 32 (4 * e.vector.toNat)) 4) = .ok entry)
    (hfl : s.pushAddrs 2 = .ok fl) (hcs : s.pushAddrs 4 = .ok cs) (hip : s.pushAddrs 6 = .ok ip)
    (hlf : s.writableLocs fl = .ok lf) (hlc : s.writableLocs cs = .ok lc) (hli : s.writableLocs ip = .ok li) :
    s.deliver e = .ok { s.writeLocs ((lf ++ lc ++ li).zip s.base.returnBytes) with
      base := guardRegs s.cfg s.base
        (realDeliveryRegs s.base (BitVec.ofNat 16 (ofLE (entry.drop 2))) (BitVec.ofNat 16 (ofLE (entry.take 2))))
      lastIo := none
      staleCode := []
      draws := s.draws + 1 } := by
  have hwrites := State.writeAccesses_three hlf hlc hli (b₁ := toLE 2 s.base.eflags.toNat)
    (b₂ := toLE 2 s.base.seg.cs.sel.toNat) (b₃ := toLE 2 s.base.eip.toNat)
    (by rw [State.pushAddrs_length hfl, toLE_length]) (by rw [State.pushAddrs_length hcs, toLE_length])
    (by rw [State.pushAddrs_length hip, toLE_length])
  simp only [State.deliver, hreal, hp, Bool.not_false, Bool.and_self, if_true, State.realDelivery, if_pos hlimit, hentry,
    hfl, hcs, hip, State.applyBase, State.checkReads, hwrites, State.writeLocs_draws]
  rfl

/-- The guard of EFLAGS.ID leaves every other flag (R58). -/
theorem keepId_getLsbD (c : CfgRegs) (old new : Dword) {k : Nat} (h : k ≠ flagId) :
    (keepId c old new).getLsbD k = new.getLsbD k := by
  unfold keepId
  split
  · rfl
  · rw [getLsbD_setBit, if_neg fun hk => h hk.1]

/-- A delivery clears IF and TF. -/
theorem realDeliveryRegs_flags (b : BaseRegs) (sel off : Word16) :
    (realDeliveryRegs b sel off).eflags.getLsbD flagIf = false ∧
      (realDeliveryRegs b sel off).eflags.getLsbD flagTf = false := by
  refine ⟨?_, ?_⟩
  · rw [realDeliveryRegs, getLsbD_setBit, if_neg (by decide), getLsbD_setBit, if_pos (by decide)]
  · rw [realDeliveryRegs, getLsbD_setBit, if_pos (by decide)]

/-! ### NMI at the boundary (R278; log entries 8 and 48) -/

/-- Where neither a reset nor an SMI is served, a breakpoint still pending is delivered (log entry 48). -/
theorem State.step_debugServed {s : State} (hr : s.pins.reset = false) (hw : s.pins.warmReset = false)
    (hd : s.debugServed = true) : step s = outcome (s.settled.deliver .debugBreakpoint) := by
  simp only [step, State.boundary, hr, hw, hd, if_true, Bool.false_eq_true, if_false]

/-- Where nothing goes before it, an NMI that is served is delivered. -/
theorem State.step_nmiServed {s : State} (hr : s.pins.reset = false) (hw : s.pins.warmReset = false)
    (hd : s.debugServed = false) (hs : s.smiTaken = false) (hn : s.nmiServed = true) :
    step s = outcome (s.settled.deliver .nmi) := by
  simp only [step, State.boundary, hr, hw, hd, hs, hn, if_true, Bool.false_eq_true, if_false]

theorem State.debugServed_eq {s : State} (h : s.base.activity ≠ .shutdown) : s.debugServed = s.debugTrap := by
  simp [State.debugServed, h]

/-- An NMI that arrived where it is enabled waits only for a pending breakpoint. -/
theorem State.nmiServed_eq {s : State} (ha : s.nmiArrived = true) (he : s.inSmm = false ∨ s.cfg.nmiEn = true)
    (hact : s.base.activity ≠ .shutdown) : s.nmiServed = !s.debugTrap := by
  have hen : (!s.inSmm || s.cfg.nmiEn) = true := by simpa using he
  simp [State.nmiServed, State.debugServed_eq hact, ha, hen, hact]

/-! ### Base instructions at a step (R220) -/

/-- Code that begins none of the ten instructions but a base instruction that the model decodes runs as that one. -/
theorem State.runCode_base {s : State} {c : Fetched} {b : BaseInstr} {len : Nat}
    (hd : decode s.base.default32 c.bytes = .error .notSmm)
    (hb : decodeBase s.base.default32 c.bytes = some (b, len)) : s.runCode c = s.execBase b len := by
  simp only [State.runCode, hd, hb]

/-! ### The statements -/

/-- Settles O5: the step runs the fetched code, which is the base instruction decoded. -/
theorem stepRunsBaseInstr : Obligations.StepRunsBaseInstr := by
  intro s b len hgo hd hb
  have hrun : s.settled.afterFetch.runCode s.settled.fetch = s.settled.afterFetch.execBase b len :=
    State.runCode_base (by simpa using hd) (by simpa using hb)
  have hstep : step s = s.settled.underBreakpoints (s.settled.afterFetch.execBase b len) := by rw [hgo.step_eq, hrun]
  exact ⟨hstep, fun hdr => hstep.trans (State.underBreakpoints_off (s := s.settled) hdr _)⟩

/-- Settles O34: by whether a breakpoint is pending; either delivery wakes the core. -/
theorem nmiDelivered : Obligations.NmiDelivered := by
  intro s hr hw hs hen hnmi hact
  have ha : s.nmiArrived = true := by simpa [State.nmiArrived] using hnmi
  have hserved : s.nmiServed = !s.debugTrap := State.nmiServed_eq ha hen hact
  have hdebug : s.debugServed = s.debugTrap := State.debugServed_eq hact
  have hlatch : s.settled.nmiLatched = s.debugTrap := by rw [State.settled_nmiLatched, ha, hserved, hs]; simp
  have hnone : s.debugTrap = false → step s = outcome (s.settled.deliver .nmi) := fun ht =>
    State.step_nmiServed hr hw (hdebug.trans ht) hs (by rw [hserved, ht]; rfl)
  have hfirst : s.debugTrap = true → step s = outcome (s.settled.deliver .debugBreakpoint) := fun ht =>
    State.step_debugServed hr hw (hdebug.trans ht)
  refine ⟨fun ht => ⟨hnone ht, hlatch.trans ht⟩, fun ht => ⟨hfirst ht, hlatch.trans ht⟩, fun t b h => ?_⟩
  cases ht : s.debugTrap with
  | false => exact State.deliver_awake (outcome_next ((hnone ht).symm.trans h)) b
  | true => exact State.deliver_awake (outcome_next ((hfirst ht).symm.trans h)) b

/-- Settles O12: the delivery completes, and its registers and stored words are read off. -/
theorem realModeDelivery : Obligations.RealModeDelivery := by
  refine ⟨rfl, rfl, rfl, rfl, fun _ => rfl, ?_⟩
  intro s e entry fl cs ip lf lc li hreal hp hlimit hentry hfl hcs hip hlf hlc hli
  obtain ⟨hif, htf⟩ := realDeliveryRegs_flags s.base (BitVec.ofNat 16 (ofLE (entry.drop 2)))
    (BitVec.ofNat 16 (ofLE (entry.take 2)))
  refine ⟨_, State.deliver_real hreal hp hlimit hentry hfl hcs hip hlf hlc hli, rfl, by simp, rfl, rfl,
    withBase_base _ _ _, (keepId_getLsbD _ _ _ (by decide)).trans hif, (keepId_getLsbD _ _ _ (by decide)).trans htf, fun hd => ?_⟩
  have hbytes : (lf ++ lc ++ li).length = s.base.returnBytes.length := by
    simp only [BaseRegs.returnBytes, List.length_append, toLE_length, State.pushCells_length hfl hlf,
      State.pushCells_length hcs hlc, State.pushCells_length hip hli]
  exact State.map_readLoc_writeLocs_zip s hd hbytes

end Sys2Proof.Machine
end

section
/-!
The SMI at the boundary and the passage into SMM and out of it (settles O57, O58, O11, O25, O30, O31, O32, O35): which
operations of a step can change `in_smm`, when the pin is heeded, and what a taken SMI leaves.
-/
namespace Sys2Proof.Machine

/-! ### What each effect leaves of the SMM mechanism -/

/-- What `Base` does never reaches the SMM mechanism (D1, R290). -/
theorem State.applyBase_sameControl {s t : State} {o : BaseOutcome} (h : s.applyBase o = .ok t) :
    s.sameControl t ∧ t.smhr = s.smhr := by
  obtain ⟨xs, st, -, rfl⟩ := State.applyBase_ok h
  exact ⟨by simp [State.sameControl], by simp⟩

theorem State.applyBase_inSmm {s t : State} {o : BaseOutcome} (h : s.applyBase o = .ok t) : t.inSmm = s.inSmm := by
  obtain ⟨⟨-, -, hsmm, -⟩, -⟩ := State.applyBase_sameControl h
  exact hsmm

theorem LocalEffect.inSmm {s t : State} (h : LocalEffect s t) : t.inSmm = s.inSmm := by
  obtain ⟨xs, b, -, rfl, -⟩ := h
  simp

theorem IoEffect.inSmm {s t : State} (h : IoEffect s t) : t.inSmm = s.inSmm := by
  obtain ⟨u, xs, b, io, hp, -, rfl, -⟩ := h
  simpa using hp.inSmm

theorem State.enterSmm_inSmm {s t : State} {a : EntryArgs} (h : s.enterSmm a = .ok t) : t.inSmm = true := by
  obtain ⟨xs, -, rfl⟩ := State.enterSmm_ok h
  simp

/-- The draw that a fetch may have taken bears on no header. -/
theorem State.afterFetch_readHeader (s : State) (top : Dword) : s.afterFetch.readHeader top = s.readHeader top := by
  unfold State.afterFetch
  split <;> rfl

/-! ### What changes `in_smm` (R260) -/

/-- Of the ten instructions only SMINT and RSM touch `in_smm`: the one sets it, the other takes the N field of the header
that it reads (R192, D26). -/
theorem exec_inSmm {i : Instr} {s t : State} (h : exec i s = .next t) :
    t.inSmm = s.inSmm ∨ (∃ pre, i = .smint pre ∧ t.inSmm = true) ∨
      ∃ pre hd, i = .rsm pre ∧ s.readHeader (hdrTop s.smhr) = .ok hd ∧ t.inSmm = headerN hd.flags := by
  rcases exec_next h with ⟨o, h⟩ | h | ⟨_, _, _, v, len, -, -, rfl⟩ | ⟨pre, hi, -, h⟩ | ⟨pre, hi, -, h⟩
  · exact .inl (State.applyBase_inSmm h)
  · exact .inl h.inSmm
  · exact .inl rfl
  · exact .inr (.inl ⟨pre, hi, State.enterSmm_inSmm h⟩)
  · obtain ⟨-, hd, hread, rfl⟩ := State.resumeFromSmm_ok h
    exact .inr (.inr ⟨pre, hd, hi, hread, rfl⟩)

/-- What changes `in_smm` where no reset and no SMI is served at the boundary. -/
theorem step_instruction_inSmm {s u : State} (hne : u.inSmm ≠ s.inSmm)
    (h : (∃ i, s.runs i ∧ exec i s.settled.afterFetch = .next u) ∨ IoEffect s.settled.afterFetch u ∨
      (∃ o, s.settled.afterFetch.applyBase o = .ok u) ∨
      ∃ o len, (s.settled.afterFetch.advance len).applyBase o = .ok u) :
    (u.inSmm = true ∧ ∃ pre, s.runs (.smint pre)) ∨
      ∃ pre hd, s.runs (.rsm pre) ∧ s.settled.readHeader (hdrTop s.smhr) = .ok hd ∧ u.inSmm = headerN hd.flags := by
  have hb := s.afterFetch_begins
  rcases h with ⟨i, hi, h⟩ | h | ⟨o, h⟩ | ⟨o, len, h⟩
  · rcases exec_inSmm h with hm | ⟨pre, rfl, hm⟩ | ⟨pre, hd, rfl, hread, hm⟩
    · exact absurd (hm.trans hb.inSmm) hne
    · exact .inl ⟨hm, pre, hi⟩
    · rw [State.afterFetch_readHeader, hb.smhr] at hread
      exact .inr ⟨pre, hd, hi, hread, hm⟩
  · exact absurd (h.inSmm.trans hb.inSmm) hne
  · exact absurd ((State.applyBase_inSmm h).trans hb.inSmm) hne
  · exact absurd ((State.applyBase_inSmm h).trans (hb.advance len).inSmm) hne

/-- The ways a step can change `in_smm`, each with the mode it leads to: RESET, WM_RST (D40), an SMI from the pin, SMINT,
RSM. -/
theorem step_inSmm {s t : State} (h : step s = .next t) (hne : t.inSmm ≠ s.inSmm) :
    (s.pins.reset = true ∧ t.inSmm = false) ∨ s.pins.warmReset = true ∨ (s.smiTaken = true ∧ t.inSmm = true) ∨
      (t.inSmm = true ∧ ∃ pre, s.runs (.smint pre)) ∨
      ∃ pre hd, s.runs (.rsm pre) ∧ s.settled.readHeader (hdrTop s.smhr) = .ok hd ∧ t.inSmm = headerN hd.flags := by
  replace h := step_next h
  rcases h with ⟨hr, rfl⟩ | ⟨-, hw, -⟩ | ⟨-, -, hs, h⟩ | ⟨-, -, -, ⟨n, rfl⟩ | ⟨o, h⟩ | ⟨u, d, -, rfl, h⟩⟩
  · exact .inl ⟨hr, rfl⟩
  · exact .inr (.inl hw)
  · exact .inr (.inr (.inl ⟨hs, State.enterSmm_inSmm h⟩))
  · exact absurd rfl hne
  · exact absurd (State.applyBase_inSmm h) hne
  · exact .inr (.inr (.inr (step_instruction_inSmm (u := u) hne h)))

/-! ### When the pin is heeded and an SMI is taken (R263 to R266) -/

/-- R263: `SmiPinEnabled` in the bits of the configuration registers. -/
theorem State.smiPinEnabled_iff (s : State) : s.smiPinEnabled = true ↔
    s.cfg.ccr1.getLsbD 1 = true ∧ s.cfg.ccr1.getLsbD 2 = false ∧ s.cfg.arrCF.extractLsb' 0 4 ≠ 0 ∧
      s.cfg.ccr1.getLsbD 7 = true := by
  simp only [State.smiPinEnabled, CfgRegs.smmConfigured, CfgRegs.useSmi, CfgRegs.sm3, CfgRegs.smac, CfgRegs.arr3SizeCode,
    Bool.and_eq_true, Bool.not_eq_true', bne_iff_ne]
  tauto

theorem State.smiEdge_iff (s : State) : s.smiEdge = true ↔ s.pins.smiLow = true ∧ s.smiLow = false := by
  simp [State.smiEdge]

/-- R264, R266: in SL-compatible mode an edge or a set latch asks for an SMI, which is taken outside SMM only. -/
theorem State.smiTaken_sl {s : State} (hm : s.cfg.smmMode = false) : s.smiTaken = true ↔
    s.debugServed = false ∧ s.smiPinEnabled = true ∧ s.cfgIndex = none ∧ s.inSmm = false ∧
      (s.smiEdge = true ∨ s.smiLatched = true) := by
  simp [State.smiTaken, hm, and_assoc]

/-- R265, R266: in Cyrix Enhanced mode the level asks for an SMI, which CCR6.N lets nest. -/
theorem State.smiTaken_enhanced {s : State} (hm : s.cfg.smmMode = true) : s.smiTaken = true ↔
    s.debugServed = false ∧ s.smiPinEnabled = true ∧ s.cfgIndex = none ∧ s.pins.smiLow = true ∧
      (s.inSmm = false ∨ s.cfg.nest = true) := by
  simp [State.smiTaken, hm, and_assoc]

/-- R263: a pin that is not enabled makes no SMI. -/
theorem State.smiTaken_of_pinDisabled {s : State} (h : s.smiPinEnabled = false) : s.smiTaken = false := by
  simp [State.smiTaken, h]

/-- R72, R264: in SL-compatible mode the latch is set after the boundary when no SMI was taken and it was set before or
an enabled edge came. -/
theorem State.smiLatchAfter_sl {s : State} (hm : s.cfg.smmMode = false) : s.smiLatchAfter = true ↔
    s.smiTaken = false ∧ (s.smiLatched = true ∨ (s.smiEdge = true ∧ s.smiPinEnabled = true)) := by
  simp [State.smiLatchAfter, hm]

/-- R72: in Cyrix Enhanced mode the boundary leaves the latch alone (log entry 41). -/
theorem State.smiLatchAfter_enhanced {s : State} (hm : s.cfg.smmMode = true) : s.smiLatchAfter = s.smiLatched :=
  if_pos hm

/-- A taken SMI clears the latch in SL-compatible mode. -/
theorem State.smiLatchAfter_of_smiTaken {s : State} (hm : s.cfg.smmMode = false) (hs : s.smiTaken = true) :
    s.smiLatchAfter = false := by
  rw [← Bool.not_eq_true, State.smiLatchAfter_sl hm, hs]
  simp

/-- An SMI waits for a pending breakpoint (log entry 48). -/
theorem State.debugServed_of_smiTaken {s : State} (hs : s.smiTaken = true) : s.debugServed = false := by
  by_contra hd
  simp [State.smiTaken, hd] at hs

/-! ### The entry by the pin (R267 to R275) -/

/-- Where no reset is sampled, a taken SMI makes the step an entry. -/
theorem State.step_smiTaken {s : State} (hr : s.pins.reset = false) (hw : s.pins.warmReset = false)
    (hs : s.smiTaken = true) : step s = outcome (s.settled.enterSmm s.pinArgs) := by
  have hd := State.debugServed_of_smiTaken hs
  simp only [step, State.boundary, hr, hw, hd, hs, if_true, Bool.false_eq_true, if_false]

/-- The arguments of an entry by the pin, field by field (R270, R271). -/
theorem State.pinArgs_eq (s : State) : s.pinArgs =
    ⟨.pin, if s.base.activity = .shutdown then none else some s.base.eip, s.lastIo,
      decide (s.base.activity ≠ .running)⟩ := by
  rw [State.pinArgs, decide_not]
  rfl

/-- R278: an NMI that has arrived is not served where an SMI is taken, and stays latched. -/
theorem State.settled_nmiLatched_of_smiTaken {s : State} (hs : s.smiTaken = true) :
    s.settled.nmiLatched = s.nmiArrived := by
  simp [hs]

/-- R277: INTR waits for IF. -/
theorem State.intrServed_of_if_clear {s : State} (h : s.base.eflags.getLsbD flagIf = false) : s.intrServed = none := by
  simp [State.intrServed, h]

/-- R30: the debug registers match nothing while DR7 enables no breakpoint. -/
theorem State.debugMatch_off {s : State} (h : s.base.dr7.extractLsb' 0 8 = 0) : s.debugMatch = .none := by
  simp [State.debugMatch, BaseRegs.breakpointsOn, h]

/-! ### The statements -/

/-- Settles O57: of what changes `in_smm`, an SMI and SMINT set it. -/
theorem onlyRsmLeavesSmm : Obligations.OnlyRsmLeavesSmm := by
  intro s t hin h hout
  rcases step_inSmm h (by simp [hin, hout]) with ⟨hr, -⟩ | hw | ⟨-, hset⟩ | ⟨hset, -⟩ | ⟨pre, -, hrsm, -⟩
  · exact .inl hr
  · exact .inr (.inl hw)
  · simp [hout] at hset
  · simp [hout] at hset
  · exact .inr (.inr ⟨pre, hrsm⟩)

/-- Settles O58: of what changes `in_smm`, RESET clears it and RSM sets it to the N field. -/
theorem smmEnteredOnlyBySmiRsmOrWarmReset : Obligations.SmmEnteredOnlyBySmiRsmOrWarmReset := by
  intro s t hout h hin
  rcases step_inSmm h (by simp [hin, hout]) with ⟨-, hclear⟩ | hw | ⟨hs, -⟩ | ⟨-, hsmint⟩ | ⟨pre, hd, hrsm, hread, hN⟩
  · simp [hin] at hclear
  · exact .inl hw
  · exact .inr (.inl hs)
  · exact .inr (.inr (.inl hsmint))
  · exact .inr (.inr (.inr ⟨pre, hd, hrsm, hread, hN.symm.trans hin⟩))

/-- Settles O11: the exception is delivered by `Base`. -/
theorem invalidOpcodeKeepsSmmState : Obligations.InvalidOpcodeKeepsSmmState := by
  intro s t h
  obtain ⟨o, ho⟩ := State.deliver_ok (outcome_next h)
  exact State.applyBase_sameControl ho

/-- Settles O25: the step is the entry from the settled state, whose latches it keeps. -/
theorem pinEnters : Obligations.PinEnters := by
  intro s st hr hw hs hfits
  obtain ⟨t, ht, hentered⟩ := State.enterSmm_entered s.pinArgs hfits
  rw [State.pinArgs_eq] at hentered
  refine ⟨t, by rw [State.step_smiTaken hr hw hs, ht]; rfl, hentered, fun hm => ?_, ?_⟩
  · obtain ⟨-, -, -, -, -, -, -, hlatch, -⟩ := hentered
    exact hlatch.trans (State.smiLatchAfter_of_smiTaken hm hs)
  · obtain ⟨-, -, -, -, -, -, -, -, hnmi, -⟩ := hentered
    exact hnmi.trans (State.settled_nmiLatched_of_smiTaken hs)

/-- Settles O30: a disabled pin takes no SMI, and an edge sets the latch through an enabled one only. -/
theorem pinIgnored : Obligations.PinIgnored := by
  intro s
  refine ⟨s.smiPinEnabled_iff, fun hoff => ⟨State.smiTaken_of_pinDisabled hoff, fun hlatch => ?_⟩⟩
  cases hm : s.cfg.smmMode with
  | true => exact (State.smiLatchAfter_enhanced hm).symm.trans hlatch
  | false =>
    obtain ⟨-, hl | ⟨-, hon⟩⟩ := (State.smiLatchAfter_sl hm).1 hlatch
    · exact hl
    · simp [hoff] at hon

/-- Settles O31: when an SMI is taken and what the latch is after it, an edge that cannot be served leaving none taken. -/
theorem slRecognition : Obligations.SlRecognition := by
  intro s hm hon
  have htaken := State.smiTaken_sl hm
  rw [s.smiEdge_iff] at htaken
  refine ⟨?_, fun hlow hhigh hheld => ?_, fun hlatch hs => (State.smiLatchAfter_sl hm).2 ⟨hs, .inl hlatch⟩,
    State.smiLatchAfter_of_smiTaken hm⟩
  · rw [htaken]
    simp only [hon, true_and]
    tauto
  · have hs : s.smiTaken = false := by
      rw [← Bool.not_eq_true, htaken]
      rintro ⟨hdebug, -, hwindow, hout, -⟩
      rcases hheld with hin | hopen | htrap
      · simp [hout] at hin
      · exact hopen hwindow
      · simp [hdebug] at htrap
    exact (State.smiLatchAfter_sl hm).2 ⟨hs, .inr ⟨s.smiEdge_iff.2 ⟨hlow, hhigh⟩, hon⟩⟩

/-- Settles O32: CCR6.N is bit 6. -/
theorem enhancedRecognition : Obligations.EnhancedRecognition := by
  intro s hm
  rw [State.smiTaken_enhanced hm, CfgRegs.nest]
  tauto

/-- Settles O35: the entry's EFLAGS has IF clear and its DR7 enables no breakpoint (R274). -/
theorem entryMasksIntrAndBreakpoints : Obligations.EntryMasksIntrAndBreakpoints := by
  intro s t a h
  obtain ⟨-, -, -, hbase⟩ := State.enterSmm_keeps h
  have hflags : t.base.eflags = 0x00000002 := by rw [hbase]; rfl
  have hdr7 : t.base.dr7 = 0x00000400 := by rw [hbase]; rfl
  exact ⟨State.intrServed_of_if_clear (by rw [hflags]; decide), hdr7, State.debugMatch_off (by rw [hdr7]; decide)⟩

end Sys2Proof.Machine
end
